-- ==== Sys2Proof/Word.lean ====
section
/-! DEFINITION. The word types of the machine: bytes, 32-bit machine words, core numbers
(spec 00_scope R7). -/

namespace Sys2Proof

/-- The addressable unit, 8 bits (R7). -/
abbrev Byte := BitVec 8

/-- A machine word: the width of every X and E register, of PC and EXC, and of an address (R7, R10). -/
abbrev Word := BitVec 32

/-- The number of a core, 0 to 3 (R7, 60_exceptions R315). -/
abbrev CoreId := Fin 4

end Sys2Proof
end

