-- ==== Sys2Proof/Syntax.lean ====
section
/-! DEFINITION. The instructions: one constructor for each of the 42 rows of spec/opcode_table.json
(30_encoding R110: 38 instructions and 4 reserved floating-point placeholders), operands in the
order of the source's instruction list. -/

namespace Sys2Proof

/-- The number of a general register X0 to X15 (10_state R20). -/
abbrev XReg := Fin 16

/-- The number of an extended register E0 to E15 (10_state R25). -/
abbrev EReg := Fin 16

/-- XSP is another name of X15 (10_state R21, R23). -/
abbrev xsp : XReg := 15

inductive Instr where
  -- 40_arithmetic
  | add (a b : XReg)
  | sub (a b : XReg)
  | mul (a b : XReg)
  | div (a b : XReg)
  | addFp
  | subFp
  | mulFp
  | divFp
  -- 41_logic_move
  | and (a b : XReg)
  | or (a b : XReg)
  | xor (a b : XReg)
  | not (a : XReg)
  | mov (d s : XReg)
  | movImm (d : XReg) (imm20 : BitVec 20)
  | movImmHigh (d : XReg) (imm16 : BitVec 16)
  | movExt (d : EReg) (s : XReg)
  | movGp (d : XReg) (s : EReg)
  | movExt2 (d s : EReg)
  -- 42_load_store
  | ldb (d a f : XReg)
  | stb (r a f : XReg)
  | ld (d a f : XReg)
  | st (r a f : XReg)
  -- 43_shift
  | lsh (p h : XReg)
  | lshImm (p : XReg) (imm20 : BitVec 20)
  | rsh (p h : XReg)
  | rshImm (p : XReg) (imm20 : BitVec 20)
  -- 44_jump
  | jmpImm (a : XReg) (imm20 : BitVec 20)
  | jmpRel (a f : XReg)
  | jmp (a : XReg)
  | jmpc (c : BitVec 3) (p1 p2 a f : XReg)
  | jmpcZ (c : BitVec 1) (p a f : XReg)
  -- 45_call_stack
  | callImm (a : XReg) (imm20 : BitVec 20)
  | call (a f : XReg)
  | ret
  | push (r : XReg)
  | pop (d : XReg)
  | pushExt (r : EReg)
  | popExt (d : EReg)
  -- 46_system
  | syscall (i : XReg)
  | sysret
  | hlt
  | cpuid (d : XReg)
deriving DecidableEq, Repr

end Sys2Proof
end

