-- ==== Sys2Proof/WellFormed.lean ====
section
/-! DEFINITION. Which instruction terms are instructions of the hardware. The types of the fields make
every register number and immediate fit its field (30_encoding R103, R108, R115); the one check left
is the condition code of JMPC, whose values 6 and 7 are reserved (R109, R112). -/

namespace Sys2Proof

/-- The 3-bit code of JMPC names a condition: it is not 6 and not 7 (R109). -/
def condCodeAssigned (c : BitVec 3) : Bool := decide (c.toNat < 6)

/-- An instruction is well formed when its JMPC code, if it has one, is assigned. -/
def Instr.wellFormed : Instr → Bool
  | .jmpc c _ _ _ _ => condCodeAssigned c
  | .add _ _ | .sub _ _ | .mul _ _ | .div _ _ => true
  | .addFp | .subFp | .mulFp | .divFp => true
  | .and _ _ | .or _ _ | .xor _ _ | .not _ | .mov _ _ => true
  | .movImm _ _ | .movImmHigh _ _ | .movExt _ _ | .movGp _ _ | .movExt2 _ _ => true
  | .ldb _ _ _ | .stb _ _ _ | .ld _ _ _ | .st _ _ _ => true
  | .lsh _ _ | .lshImm _ _ | .rsh _ _ | .rshImm _ _ => true
  | .jmpImm _ _ | .jmpRel _ _ | .jmp _ | .jmpcZ _ _ _ _ => true
  | .callImm _ _ | .call _ _ | .ret => true
  | .push _ | .pop _ | .pushExt _ | .popExt _ => true
  | .syscall _ | .sysret | .hlt | .cpuid _ => true

end Sys2Proof
end

