-- ==== Sys2Proof/Decode.lean ====
section
/-! DEFINITION. The decoder and the encoder, both written from the encoding tables of 30_encoding
(R101, R103, R105 to R110). Decoding is total: every word gives one instruction or is rejected by
name (R115). -/

namespace Sys2Proof

/-- Why a word, or a list of bytes, is no instruction. -/
inductive DecodeError where
  /-- fewer than the four bytes of an instruction word (R100) -/
  | tooShort
  /-- an opcode value that R110 does not list (R111) -/
  | unassignedOpcode (op : Byte)
  /-- JMPC with condition code 6 or 7 (R109, R112) -/
  | reservedCondition (c : BitVec 3)
deriving DecidableEq, Repr

/-- The word whose bytes lie at rising addresses b0, b1, b2, b3: little endian (20_memory R60, R61). -/
def wordOfBytes (b0 b1 b2 b3 : Byte) : Word := b3 ++ b2 ++ b1 ++ b0

/-- Byte k of a word, k = 0 the least significant (20_memory R60). -/
def wordByte (v : Word) (k : Nat) : Byte := v.extractLsb' (8 * k) 8

/-- The bytes of a word as memory holds them, lowest address first (20_memory R60, R61). -/
def bytesOfWord (v : Word) : List Byte := [wordByte v 0, wordByte v 1, wordByte v 2, wordByte v 3]

/-! Fields of an instruction word (R103). -/

/-- op = W[31:24]. -/
def opcode (w : Word) : Byte := w.extractLsb' 24 8

/-- The register number in the nibble whose lowest bit is `lo`. -/
def nibble (w : Word) (lo : Nat) : Fin 16 := (w.extractLsb' lo 4).toFin

/-- n1 = W[23:20]. -/
def n1 (w : Word) : Fin 16 := nibble w 20
/-- n2 = W[19:16]. -/
def n2 (w : Word) : Fin 16 := nibble w 16
/-- n3 = W[15:12]. -/
def n3 (w : Word) : Fin 16 := nibble w 12
/-- n4 = W[11:8]. -/
def n4 (w : Word) : Fin 16 := nibble w 8
/-- n5 = W[7:4]. -/
def n5 (w : Word) : Fin 16 := nibble w 4

/-- imm20 = W[19:0]. -/
def imm20 (w : Word) : BitVec 20 := w.extractLsb' 0 20
/-- imm16 = W[15:0]. -/
def imm16 (w : Word) : BitVec 16 := w.extractLsb' 0 16

/-- The JMPC code, W[22:20] (R109). -/
def code3 (w : Word) : BitVec 3 := w.extractLsb' 20 3
/-- The JMPC_Z code, W[20] (R109). -/
def code1 (w : Word) : BitVec 1 := w.extractLsb' 20 1

/-- The instruction an instruction word stands for (R110, R115). The unused bits of R113 are not
looked at; `unusedBits` gives them to the policy. The four floating-point placeholders (R148) decode
to their own constructors, whose meaning raises InvalidOpcodeFault (log 23). -/
def decodeWord (w : Word) : Except DecodeError Instr :=
  match (opcode w).toNat with
  | 0x01 => .ok (.add (n1 w) (n2 w))
  | 0x02 => .ok (.sub (n1 w) (n2 w))
  | 0x03 => .ok (.mul (n1 w) (n2 w))
  | 0x04 => .ok (.div (n1 w) (n2 w))
  | 0x05 => .ok .addFp
  | 0x06 => .ok .subFp
  | 0x07 => .ok .mulFp
  | 0x08 => .ok .divFp
  | 0x10 => .ok (.and (n1 w) (n2 w))
  | 0x11 => .ok (.or (n1 w) (n2 w))
  | 0x12 => .ok (.xor (n1 w) (n2 w))
  | 0x13 => .ok (.not (n1 w))
  | 0x14 => .ok (.mov (n1 w) (n2 w))
  | 0x15 => .ok (.movImm (n1 w) (imm20 w))
  | 0x16 => .ok (.movImmHigh (n1 w) (imm16 w))
  | 0x17 => .ok (.movExt (n1 w) (n2 w))
  | 0x18 => .ok (.movGp (n1 w) (n2 w))
  | 0x19 => .ok (.movExt2 (n1 w) (n2 w))
  | 0x20 => .ok (.ldb (n1 w) (n2 w) (n3 w))
  | 0x21 => .ok (.stb (n1 w) (n2 w) (n3 w))
  | 0x22 => .ok (.ld (n1 w) (n2 w) (n3 w))
  | 0x23 => .ok (.st (n1 w) (n2 w) (n3 w))
  | 0x28 => .ok (.lsh (n1 w) (n2 w))
  | 0x29 => .ok (.lshImm (n1 w) (imm20 w))
  | 0x2A => .ok (.rsh (n1 w) (n2 w))
  | 0x2B => .ok (.rshImm (n1 w) (imm20 w))
  | 0x30 => .ok (.jmpImm (n1 w) (imm20 w))
  | 0x31 => .ok (.jmpRel (n1 w) (n2 w))
  | 0x32 => .ok (.jmp (n1 w))
  | 0x33 => if condCodeAssigned (code3 w) then .ok (.jmpc (code3 w) (n2 w) (n3 w) (n4 w) (n5 w))
    else .error (.reservedCondition (code3 w))
  | 0x34 => .ok (.jmpcZ (code1 w) (n2 w) (n3 w) (n4 w))
  | 0x38 => .ok (.callImm (n1 w) (imm20 w))
  | 0x39 => .ok (.call (n1 w) (n2 w))
  | 0x3A => .ok .ret
  | 0x3B => .ok (.push (n1 w))
  | 0x3C => .ok (.pop (n1 w))
  | 0x3D => .ok (.pushExt (n1 w))
  | 0x3E => .ok (.popExt (n1 w))
  | 0x40 => .ok (.syscall (n1 w))
  | 0x41 => .ok .sysret
  | 0x42 => .ok .hlt
  | 0x43 => .ok (.cpuid (n1 w))
  | _ => .error (.unassignedOpcode (opcode w))

/-- The decoder over bytes in memory order: one instruction and the bytes after it. -/
def decodeBytes : List Byte → Except DecodeError (Instr × List Byte)
  | b0 :: b1 :: b2 :: b3 :: rest =>
    match decodeWord (wordOfBytes b0 b1 b2 b3) with
    | .ok i => .ok (i, rest)
    | .error e => .error e
  | _ => .error .tooShort

/-- The unused bits of an instruction's pattern, by opcode (R105, R113; `strict_mask` less `mask` in
spec/opcode_table.json). Opcodes that are no instruction have none, the placeholders 0x05 to 0x08 among
them, whose `strict_mask` is their `mask` (R112, R115; DEDUCED, log 22). -/
def unusedMask (op : Byte) : Word :=
  match op.toNat with
  | 0x01 | 0x02 | 0x03 | 0x04 | 0x10 | 0x11 | 0x12 | 0x14 | 0x17 | 0x18 | 0x19 | 0x28 | 0x2A | 0x31 | 0x39 => 0x0000FFFF#32
  | 0x13 | 0x32 | 0x3B | 0x3C | 0x3D | 0x3E | 0x40 | 0x43 => 0x000FFFFF#32
  | 0x16 => 0x000F0000#32
  | 0x20 | 0x21 | 0x22 | 0x23 => 0x00000FFF#32
  | 0x33 => 0x0080000F#32
  | 0x34 => 0x00E000FF#32
  | 0x3A | 0x41 | 0x42 => 0x00FFFFFF#32
  | _ => 0#32

/-- The bits of a word that UNUSED_BITS_POLICY is about (R113). -/
def unusedBits (w : Word) : Word := w &&& unusedMask (opcode w)

/-! The encoder. -/

/-- A word from its opcode and its six nibbles n1 to n6 (R103). -/
def pack (op : Byte) (n1 n2 n3 n4 n5 n6 : Fin 16) : Word :=
  op ++ BitVec.ofFin (w := 4) n1 ++ BitVec.ofFin (w := 4) n2 ++ BitVec.ofFin (w := 4) n3
    ++ BitVec.ofFin (w := 4) n4 ++ BitVec.ofFin (w := 4) n5 ++ BitVec.ofFin (w := 4) n6

/-- A word from its opcode, n1 and imm20 (R103, format INSTR_REG_IMM of R104). -/
def packImm20 (op : Byte) (n1 : Fin 16) (imm : BitVec 20) : Word :=
  op ++ BitVec.ofFin (w := 4) n1 ++ imm

/-- A word from its opcode, n1, n2 and imm16 (R103, format INSTR_2REG_IMM of R104). -/
def packImm16 (op : Byte) (n1 n2 : Fin 16) (imm : BitVec 16) : Word :=
  op ++ BitVec.ofFin (w := 4) n1 ++ BitVec.ofFin (w := 4) n2 ++ imm

/-- The nibble n1 of JMPC: an unused 0, then the code (R109). -/
def nibbleOfCode3 (c : BitVec 3) : Fin 16 := (0#1 ++ c).toFin

/-- The nibble n1 of JMPC_Z: three unused zeros, then the code (R109). -/
def nibbleOfCode1 (c : BitVec 1) : Fin 16 := (0#3 ++ c).toFin

/-- The instruction word of an instruction, its unused bits 0 as the assembler writes them (R113). -/
def encode : Instr → Word
  | .add a b => pack 0x01#8 a b 0 0 0 0
  | .sub a b => pack 0x02#8 a b 0 0 0 0
  | .mul a b => pack 0x03#8 a b 0 0 0 0
  | .div a b => pack 0x04#8 a b 0 0 0 0
  | .addFp => pack 0x05#8 0 0 0 0 0 0
  | .subFp => pack 0x06#8 0 0 0 0 0 0
  | .mulFp => pack 0x07#8 0 0 0 0 0 0
  | .divFp => pack 0x08#8 0 0 0 0 0 0
  | .and a b => pack 0x10#8 a b 0 0 0 0
  | .or a b => pack 0x11#8 a b 0 0 0 0
  | .xor a b => pack 0x12#8 a b 0 0 0 0
  | .not a => pack 0x13#8 a 0 0 0 0 0
  | .mov a b => pack 0x14#8 a b 0 0 0 0
  | .movImm a i => packImm20 0x15#8 a i
  | .movImmHigh a i => packImm16 0x16#8 a 0 i
  | .movExt a b => pack 0x17#8 a b 0 0 0 0
  | .movGp a b => pack 0x18#8 a b 0 0 0 0
  | .movExt2 a b => pack 0x19#8 a b 0 0 0 0
  | .ldb a b f => pack 0x20#8 a b f 0 0 0
  | .stb a b f => pack 0x21#8 a b f 0 0 0
  | .ld a b f => pack 0x22#8 a b f 0 0 0
  | .st a b f => pack 0x23#8 a b f 0 0 0
  | .lsh a b => pack 0x28#8 a b 0 0 0 0
  | .lshImm a i => packImm20 0x29#8 a i
  | .rsh a b => pack 0x2A#8 a b 0 0 0 0
  | .rshImm a i => packImm20 0x2B#8 a i
  | .jmpImm a i => packImm20 0x30#8 a i
  | .jmpRel a b => pack 0x31#8 a b 0 0 0 0
  | .jmp a => pack 0x32#8 a 0 0 0 0 0
  | .jmpc c p1 p2 a f => pack 0x33#8 (nibbleOfCode3 c) p1 p2 a f 0
  | .jmpcZ c p a f => pack 0x34#8 (nibbleOfCode1 c) p a f 0 0
  | .callImm a i => packImm20 0x38#8 a i
  | .call a b => pack 0x39#8 a b 0 0 0 0
  | .ret => pack 0x3A#8 0 0 0 0 0 0
  | .push a => pack 0x3B#8 a 0 0 0 0 0
  | .pop a => pack 0x3C#8 a 0 0 0 0 0
  | .pushExt a => pack 0x3D#8 a 0 0 0 0 0
  | .popExt a => pack 0x3E#8 a 0 0 0 0 0
  | .syscall a => pack 0x40#8 a 0 0 0 0 0
  | .sysret => pack 0x41#8 0 0 0 0 0 0
  | .hlt => pack 0x42#8 0 0 0 0 0 0
  | .cpuid a => pack 0x43#8 a 0 0 0 0 0

/-- The instruction the decoder reads from an instruction whose bits are w, numbered as
spec/opcode_table.json numbers them, every bit above nbits 0. -/
def decodeTableWord (nbits w : Nat) : Option Instr :=
  match decodeBytes (bytesOfWord (BitVec.ofNat 32 (w % 2 ^ nbits))) with
  | .ok (i, _) => some i
  | .error _ => none

end Sys2Proof
end

