-- ==== Sys2Proof/Config.lean ====
section
/-! DEFINITION. What an implementation fixes: the named parameters of 00_scope R8 (a record the state
carries unchanged, log 2), the constants of R7 and 20_memory R64, and the free values, which are
opaque constants with no body. -/

namespace Sys2Proof

/-- The interrupt sources, in the order of the vector table (60_exceptions R290, 10_state R37). -/
inductive IrqSource where
  | wdtExpired
  | irql0
  | irql1
  | irql2
  | irql3
  | osTimerTrigger
  | tim0Comp
  | tim1Comp
  | tim2Comp
  | tim3Comp
deriving DecidableEq, Repr

/-- The place of a source in the list of R290: 0 for WDT_EXPIRED, 9 for TIM3_COMP. -/
def IrqSource.index : IrqSource → Fin 10
  | .wdtExpired => 0
  | .irql0 => 1
  | .irql1 => 2
  | .irql2 => 3
  | .irql3 => 4
  | .osTimerTrigger => 5
  | .tim0Comp => 6
  | .tim1Comp => 7
  | .tim2Comp => 8
  | .tim3Comp => 9

/-- Every source, lowest vector number first, which is the priority order of R293. -/
def IrqSource.all : List IrqSource :=
  [.wdtExpired, .irql0, .irql1, .irql2, .irql3, .osTimerTrigger,
   .tim0Comp, .tim1Comp, .tim2Comp, .tim3Comp]

/-- The conditions of JMPC (30_encoding R109, 44_jump R205). -/
inductive Cond where
  | eq
  | lt
  | gt
  | le
  | ge
  | ne
deriving DecidableEq, Repr

/-- The conditions of JMPC_Z (30_encoding R109, 44_jump R208). -/
inductive CondZ where
  | nz
  | zr
deriving DecidableEq, Repr

/-- What the bits of an n-bit register mean for one yes-or-no question: a Boolean function of the bits, as
plain data. The layout parameters of 00_scope R8 are made of these (DESIGN CHOICE, unsafe: log 27). -/
inductive BitFn (n : Nat) where
  /-- bit i is 1 -/
  | bit (i : Fin n)
  | const (b : Bool)
  | not (f : BitFn n)
  | and (f g : BitFn n)
  | or (f g : BitFn n)
deriving DecidableEq, Repr

/-- The parameters of 00_scope R8 that are plain data. DESIGN CHOICE (log 2): the state carries them,
so that a statement about every state is a statement about every setting; no step changes them. -/
structure Config where
  /-- RESET_PC, OPEN (10_state R54): the pc of core 0 after reset. -/
  resetPc : Word
  /-- DIV_SIGNED (40_arithmetic R144, R146). -/
  divSigned : Bool
  /-- CMP_SIGNED (44_jump R205). -/
  cmpSigned : Bool
  /-- RSH_ARITH (43_shift R195). -/
  rshArith : Bool
  /-- SHIFT_AMOUNT_MOD32 (43_shift R195). -/
  shiftAmountMod32 : Bool
  /-- UNUSED_BITS_POLICY is `refuse` (30_encoding R113). -/
  unusedBitsRefuse : Bool
  /-- SMC_POLICY is `refuse` (20_memory R87). -/
  smcRefuse : Bool
  /-- CC_MAP for JMPC: the condition of each of the codes 0 to 5 (30_encoding R109). -/
  ccMap : Vector Cond 6
  /-- CC_MAP for JMPC_Z: the condition of each of the codes 0 and 1 (30_encoding R109). -/
  ccZMap : Vector CondZ 2
  /-- CORE_INTR_LAYOUT: when the bits of CORE_INTR allow maskable interrupts globally (10_state R43). -/
  intrAllow : BitFn 32
  /-- CORE_INTR_LAYOUT: when the bits of CORE_INTR disable maskable source k, k = 0 for IRQL0
  (10_state R43). -/
  intrDisable : Vector (BitFn 32) 9
  /-- CORE_FLAGS_OFFSET from CR_BASE (10_state R46). -/
  coreFlagsOffset : Nat
  /-- CORE_FLAGS_LAYOUT: what each bit of CORE_FLAGS reads as, from one bit for each core that says
  whether it is powered on (10_state R46). -/
  coreFlagsRead : Vector (BitFn 4) 8
  /-- CORE_FLAGS_LAYOUT: when a byte written to CORE_FLAGS asks that core n + 1 be powered on
  (10_state R46). -/
  coreFlagsPower : Vector (BitFn 8) 3
  /-- IRQ_TARGET: the cores whose pending bit a source sets (60_exceptions R296). -/
  irqTarget : Vector (List CoreId) 10
  /-- SYSCALL_HANDLER_SLOT, OPEN (46_system R242). -/
  syscallHandlerSlot : Word
deriving DecidableEq, Repr

/-- The defaults of R8. Two parameters have none. SYSCALL_HANDLER_SLOT: DESIGN CHOICE, unsafe (log 10),
the value the spec's own test vectors use. RESET_PC: DESIGN CHOICE, unsafe (log 3), the source's printed
literal, which the spec does not repair; it is not a multiple of 4. -/
def Config.default : Config where
  resetPc := 0xFFFFFFFB#32
  divSigned := false
  cmpSigned := false
  rshArith := false
  shiftAmountMod32 := false
  unusedBitsRefuse := false
  smcRefuse := false
  ccMap := #v[.eq, .lt, .gt, .le, .ge, .ne]
  ccZMap := #v[.nz, .zr]
  intrAllow := .bit 0
  intrDisable := #v[.bit 1, .bit 2, .bit 3, .bit 4, .bit 5, .bit 6, .bit 7, .bit 8, .bit 9]
  coreFlagsOffset := 0x4C
  coreFlagsRead := #v[.const true, .bit 1, .bit 2, .bit 3,
    .const false, .const false, .const false, .const false]
  coreFlagsPower := #v[.bit 1, .bit 2, .bit 3]
  irqTarget := Vector.replicate 10 [0]
  syscallHandlerSlot := 0x00007FFC#32

/-- CR_BASE, the first address of the control registers (R7, 10_state R40). -/
def crBase : Nat := 0x3F00

/-- IDT, the base of the Interrupt Vector Table (R7, 60_exceptions R270). -/
def ivtBase : Nat := 0x7F00

/-- The first address of program memory (20_memory R64). -/
def progBase : Nat := 0x8000

/-- The first address of the memory-mapped I/O window (20_memory R64). -/
def mmioBase : Nat := 0xFFFF6000

/-- The first address of the ROM (20_memory R64). -/
def romBase : Nat := 0xFFFFE000

/-- FREE VALUE: what a byte of IVT or program memory that nothing has written since reset holds
(70_reset R322: unspecified). Indexed by the byte address. Log 6. -/
opaque Config.powerOnByte : Nat → Byte

/-- FREE VALUE: ROM_IMAGE (00_scope R8, 70_reset R322, OPEN). Indexed by the byte address. Log 7. -/
opaque Config.romImage : Nat → Byte

/-- FREE VALUE: CPUID_VALUE (46_system R247, OPEN), constant per core. Log 9. -/
opaque Config.cpuidValue : CoreId → Word

/-- FREE VALUE: the unspecified byte that draw number n returns for the address a (10_state R44, R49,
R50; R316 for CORE_XCLK). Log 8. -/
opaque Config.drawByte : Nat → Nat → Byte

/-- FREE VALUE: the choice of the next core to move, at draw number n (20_memory R82, 70_reset R344:
the interleaving is arbitrary). Log 15. -/
opaque Config.drawTurn : Nat → Nat

end Sys2Proof
end

