-- ==== Sys2Proof/Machine/State.lean ====
section
/-! DEFINITION. The state of the machine as plain data: four cores (10_state R20 to R38, R42, R43), one
memory and the shared control registers (R41, R45, R51, R52), the model's own fields (parameters,
turn, script, draws), the reasons a step can stop, and the state after reset (R53 to R55). -/

namespace Sys2Proof.Machine

open Sys2Proof

/-- The privilege mode of a core (10_state R34): P0 kernel, P1 user. -/
inductive Mode where
  | p0
  | p1
deriving DecidableEq, Repr

/-- Whether a core is powered and alive (10_state R38). -/
inductive RunState where
  | off
  | running
  | tripleFaulted
deriving DecidableEq, Repr

/-- The exceptions that have a vector (60_exceptions R260, R271), in vector order. No rule raises
PageFault or InvalidPageFault (R262); DoubleFault is raised by trap entry alone (R286). -/
inductive Exc where
  | loadFault
  | storeFault
  | pageFault
  | invalidPageFault
  | loadStoreAlignmentFault
  | invalidOpcodeFault
  | instructionFetchFault
  | instrFetchAlignmentFault
  | zeroDivisionFault
  | doubleFault
deriving DecidableEq, Repr

/-- Why the machine is stuck: no core has a step and nothing is scripted, so nothing can happen any
more. Each names the state of the core whose turn it is. All are safe: the model stops where the
hardware does nothing. -/
inductive Fault where
  /-- raised by the step: the core whose turn it is is Off (10_state R38); safe -/
  | coreOff
  /-- raised by the step: the core whose turn it is has triple-faulted (60_exceptions R287); safe -/
  | tripleFaulted
  /-- raised by the step: the core whose turn it is is halted and no pending interrupt is enabled for
  it (46_system R246); safe -/
  | haltedForever
deriving DecidableEq, Repr

/-- Why the model gives a case no next state. -/
inductive Refusal where
  /-- raised by exec's arm of an instruction that has no meaning yet; safe -/
  | notModelled (mnemonic : String)
  /-- raised by LDB: the lane offset is not 0, 8, 16 or 24, a case the source gives no meaning
  (42_load_store R181, decision D14); safe -/
  | ldbLaneOffset
  /-- raised by a kernel-mode data access to the memory-mapped I/O window, whose devices the spec does
  not describe (20_memory R77, decision D56); safe -/
  | mmioAccess
  /-- raised by a write that covers a reserved or unlisted control-register byte (10_state R44, R49,
  R50, decision D45); safe -/
  | reservedControlByte
  /-- raised by SYSCALL: the parameter SYSCALL_HANDLER_SLOT is misaligned or outside IVT and PROG
  (46_system R242); safe -/
  | syscallHandlerSlot
  /-- raised by the step under UNUSED_BITS_POLICY = refuse: the word has a nonzero unused bit
  (30_encoding R113); safe -/
  | unusedBitsSet
  /-- raised by a store under SMC_POLICY = refuse: it reaches pc+4 to pc+15 (20_memory R87); safe -/
  | selfModifyingStore
deriving DecidableEq, Repr

/-- The state of one core (10_state R35). -/
structure Core where
  /-- X0 to X15 (R20) -/
  x : Vector Word 16
  /-- E0 to E15 (R25) -/
  e : Vector Word 16
  /-- the program counter (R27) -/
  pc : Word
  /-- the exception address register (R31) -/
  exc : Word
  /-- the privilege mode (R34) -/
  mode : Mode
  /-- the halt flag (R36) -/
  halted : Bool
  /-- one pending bit per interrupt source (R37) -/
  pending : Vector Bool 10
  /-- Off, Running or TripleFaulted (R38) -/
  runState : RunState
  /-- CORE_XCLK (R42), this core's copy (R51) -/
  coreXclk : Byte
  /-- CORE_INTR (R43), this core's copy (R51) -/
  coreIntr : Word
deriving DecidableEq, Repr

/-- One step of the environment's plan: the core that moves, and the interrupt sources that fire just
before it does (60_exceptions R306, 20_memory R82). -/
structure Tick where
  core : CoreId
  fires : List IrqSource
deriving DecidableEq, Repr

/-- Memory: the bytes written since reset, as (address, byte) pairs with strictly rising addresses
(`Memory.wf`). An unlisted address has no value here; what reading it gives is `storageByte`. -/
abbrev Memory := List Host.Cell

/-- The state of the whole machine. -/
structure State where
  /-- the four cores (10_state R35) -/
  cores : Vector Core 4
  /-- memory, shared (R52) -/
  mem : Memory
  /-- SYS_DCLK, shared (R41, R51) -/
  sysDclk : Byte
  /-- CPU1_BOOT_ADDR, CPU2_BOOT_ADDR, CPU3_BOOT_ADDR, in this order (R45) -/
  bootAddr : Vector Word 3
  /-- the MODEL's own: the parameters of 00_scope R8 (log 2) -/
  cfg : Config
  /-- the MODEL's own: the core an instruction acts on (log 14) -/
  turn : CoreId
  /-- the MODEL's own: what the environment does at the coming steps (log 14) -/
  script : List Tick
  /-- the MODEL's own: how many free values have been drawn (log 8) -/
  draws : Nat
deriving DecidableEq, Repr

/-- The outcome of an instruction or of a step. -/
abbrev Result := Host.Outcome State Fault Refusal

/-- A core that is Off: its register state is lost (60_exceptions R316). DESIGN CHOICE, safe (log 5): the
lost values are written as zeros, which nothing reads. -/
def Core.off : Core where
  x := Vector.replicate 16 0#32
  e := Vector.replicate 16 0#32
  pc := 0#32
  exc := 0#32
  mode := .p0
  halted := false
  pending := Vector.replicate 10 false
  runState := .off
  coreXclk := 0#8
  coreIntr := 0#32

/-- A core just powered on at the address pc (60_exceptions R316): P0, zero registers, nothing pending,
CORE_INTR 0; CORE_XCLK is unspecified, so its value is an argument. -/
def Core.poweredOn (pc : Word) (xclk : Byte) : Core :=
  { Core.off with pc := pc, runState := .running, coreXclk := xclk }

/-- The machine right after reset under the parameters cfg (00_scope R8, 10_state R53 to R55, 70_reset
R321, R322). Core 0 runs at RESET_PC, the others are Off. DESIGN CHOICE, unsafe (log 4): SYS_DCLK, CORE_XCLK and the boot addresses,
whose reset values the spec does not give, are 0. -/
def State.resetWith (cfg : Config) : State where
  cores := #v[Core.poweredOn cfg.resetPc 0#8, Core.off, Core.off, Core.off]
  mem := []
  sysDclk := 0#8
  bootAddr := Vector.replicate 3 0#32
  cfg := cfg
  turn := 0
  script := []
  draws := 0

/-- The machine right after reset under the defaults of R8 (log 2), with RESET_PC as log 3 says. -/
def State.reset : State := State.resetWith Config.default

end Sys2Proof.Machine
end

