-- ==== Sys2Proof/Machine/Operands.lean ====
section
/-! DEFINITION. The operand forms and the value functions the instructions share: immediates, address
sums, byte lanes, the shifts of 43_shift R195 and the division of 40_arithmetic R144. -/

namespace Sys2Proof.Machine

open Sys2Proof

/-- zext_32 of a 20-bit immediate (00_scope R11, 30_encoding R108). -/
def zext20 (i : BitVec 20) : Word := i.setWidth 32

/-- The word with the immediate in bits 31:16 and the old bits 15:0 (41_logic_move R172). -/
def withHighHalf (v : Word) (i : BitVec 16) : Word :=
  (i.setWidth 32 <<< 16) ||| (v &&& 0x0000FFFF#32)

/-- The lane offset of LDB is 0, 8, 16 or 24 (42_load_store R181). -/
def laneAligned (s : Word) : Bool := s == 0#32 || s == 8#32 || s == 16#32 || s == 24#32

/-- (v & ~(0xFF << s)) | (b << s): the byte lane at bit s replaced, the other bits kept (42_load_store
R181). -/
def insertByte (v : Word) (s : Nat) (b : Byte) : Word :=
  (v &&& ~~~(0xFF#32 <<< s)) ||| (b.setWidth 32 <<< s)

/-- The amount a shift uses (43_shift R195). -/
def shiftAmount (cfg : Config) (n : Nat) : Nat := if cfg.shiftAmountMod32 then n % 32 else n

/-- lsh(v, n) of 43_shift R195. -/
def lshValue (cfg : Config) (v : Word) (n : Nat) : Word :=
  let k := shiftAmount cfg n
  if 32 ≤ k then 0#32 else v <<< k

/-- rsh(v, n) of 43_shift R195: logical, or arithmetic under RSH_ARITH. -/
def rshValue (cfg : Config) (v : Word) (n : Nat) : Word :=
  let k := shiftAmount cfg n
  if cfg.rshArith then BitVec.ofInt 32 (v.toInt / 2 ^ (if 32 ≤ k then 31 else k))
  else if 32 ≤ k then 0#32
  else v >>> k

/-- The quotient of DIV for a divisor that is not 0 (40_arithmetic R144): unsigned, or under
DIV_SIGNED signed and rounded toward zero. -/
def divValue (cfg : Config) (a b : Word) : Word :=
  if cfg.divSigned then BitVec.ofInt 32 (a.toInt.tdiv b.toInt)
  else BitVec.ofNat 32 (a.toNat / b.toNat)

end Sys2Proof.Machine
end

