-- ==== Sys2Proof/Machine/Memory.lean ====
section
/-! DEFINITION. The address map (20_memory R64) and memory as a list of written bytes in one canonical
form (10_state R52). -/

namespace Sys2Proof.Machine

open Sys2Proof

/-- The six regions of the address map (20_memory R64). -/
inductive Region where
  | nulltrap
  | creg
  | ivt
  | prog
  | mmio
  | rom
deriving DecidableEq, Repr

/-- The region of a byte address (20_memory R64). -/
def regionOf (a : Nat) : Region :=
  if a < crBase then .nulltrap
  else if a < ivtBase then .creg
  else if a < progBase then .ivt
  else if a < mmioBase then .prog
  else if a < romBase then .mmio
  else .rom

/-- The region of an address value. -/
def region (a : Word) : Region := regionOf a.toNat

/-- a[1:0] = 0: the address is a multiple of 4 (R70, R71). -/
def aligned (a : Word) : Bool := a.extractLsb' 0 2 == 0#2

/-- A byte address whose region is storage that rules read and write (10_state R52). -/
def isStorage (a : Nat) : Bool :=
  decide (a < 2 ^ 32) &&
    (regionOf a == .ivt || regionOf a == .prog || regionOf a == .rom)

/-- The byte written at an address, if one has been written since reset. -/
def Memory.lookup : Memory → Nat → Option Byte
  | [], _ => none
  | (k, v) :: m, a => if a = k then some v else Memory.lookup m a

/-- Writes one byte, keeping the addresses in order. -/
def Memory.write : Memory → Nat → Byte → Memory
  | [], a, b => [(a, b)]
  | (k, v) :: m, a, b =>
    if a < k then (a, b) :: (k, v) :: m
    else if a = k then (a, b) :: m
    else (k, v) :: Memory.write m a b

/-- Writes the four bytes of a word, least significant byte at the lowest address (20_memory R60). -/
def Memory.writeWord (m : Memory) (a : Nat) (v : Word) : Memory :=
  Memory.write (Memory.write (Memory.write (Memory.write m
    a (wordByte v 0)) (a + 1) (wordByte v 1)) (a + 2) (wordByte v 2)) (a + 3) (wordByte v 3)

/-- The addresses of a memory rise strictly, all above `lo`. -/
def Memory.risingFrom : Nat → Memory → Bool
  | _, [] => true
  | lo, (k, _) :: m => decide (lo ≤ k) && Memory.risingFrom (k + 1) m

/-- The canonical form: addresses strictly rising, and only bytes of storage listed (10_state R52). An
unlisted address has no value of its own, so no entry can repeat one. -/
def Memory.wf (m : Memory) : Bool := Memory.risingFrom 0 m && m.all (fun c => isStorage c.1)

/-- What an unlisted storage byte reads as: the ROM image in the ROM, an unspecified power-on byte
elsewhere (70_reset R322; log 6, log 7). -/
def unlistedByte (a : Nat) : Byte :=
  if romBase ≤ a then Config.romImage a else Config.powerOnByte a

/-- The storage byte at an address (20_memory R82: the last write, or the initial content). -/
def State.storageByte (s : State) (a : Nat) : Byte :=
  (Memory.lookup s.mem a).getD (unlistedByte a)

/-- The storage word at an address, little endian (20_memory R60, R61). -/
def State.storageWord (s : State) (a : Nat) : Word :=
  wordOfBytes (s.storageByte a) (s.storageByte (a + 1)) (s.storageByte (a + 2)) (s.storageByte (a + 3))

end Sys2Proof.Machine
end

