-- ==== Sys2Proof/Machine/Registers.lean ====
section
/-! DEFINITION. The registers of the core whose turn it is: every read and write of an X or E register,
PC, EXC, the mode and the other state of a core goes through here (00_scope R12). -/

namespace Sys2Proof.Machine

open Sys2Proof

/-- The state of core c. -/
def State.coreAt (s : State) (c : CoreId) : Core := s.cores[c]

/-- Replaces the state of core c. -/
def State.setCoreAt (s : State) (c : CoreId) (k : Core) : State :=
  { s with cores := s.cores.set c k }

/-- The core an instruction acts on. -/
def State.core (s : State) : Core := s.coreAt s.turn

/-- Replaces the state of the core an instruction acts on. -/
def State.setCore (s : State) (k : Core) : State := s.setCoreAt s.turn k

/-- x[i] (00_scope R12); no X register is hardwired (10_state R22). -/
def State.x (s : State) (i : XReg) : Word := s.core.x[i]

/-- e[i] (00_scope R12). -/
def State.e (s : State) (i : EReg) : Word := s.core.e[i]

/-- pc: the address of the instruction being executed (10_state R28). -/
def State.pc (s : State) : Word := s.core.pc

/-- The EXC register (10_state R31). -/
def State.exc (s : State) : Word := s.core.exc

/-- The privilege mode (10_state R34). -/
def State.mode (s : State) : Mode := s.core.mode

/-- The halt flag (10_state R36). -/
def State.halted (s : State) : Bool := s.core.halted

/-- Whether interrupt source q is pending on the core (10_state R37). -/
def State.pending (s : State) (q : IrqSource) : Bool := s.core.pending[q.index]

/-- run_state (10_state R38). -/
def State.runState (s : State) : RunState := s.core.runState

/-- This core's CORE_XCLK (10_state R42). -/
def State.coreXclk (s : State) : Byte := s.core.coreXclk

/-- This core's CORE_INTR (10_state R43). -/
def State.coreIntr (s : State) : Word := s.core.coreIntr

/-- x[i] <- v (00_scope R12). -/
def State.setX (s : State) (i : XReg) (v : Word) : State :=
  s.setCore { s.core with x := s.core.x.set i v }

/-- e[i] <- v (00_scope R12). -/
def State.setE (s : State) (i : EReg) (v : Word) : State :=
  s.setCore { s.core with e := s.core.e.set i v }

/-- pc <- v (00_scope R12). -/
def State.setPc (s : State) (v : Word) : State := s.setCore { s.core with pc := v }

/-- exc <- v (10_state R31). -/
def State.setExc (s : State) (v : Word) : State := s.setCore { s.core with exc := v }

/-- mode <- m (10_state R34). -/
def State.setMode (s : State) (m : Mode) : State := s.setCore { s.core with mode := m }

/-- halted <- b (10_state R36). -/
def State.setHalted (s : State) (b : Bool) : State := s.setCore { s.core with halted := b }

/-- pending[q] <- b (10_state R37). -/
def State.setPending (s : State) (q : IrqSource) (b : Bool) : State :=
  s.setCore { s.core with pending := s.core.pending.set q.index b }

/-- run_state <- r (10_state R38). -/
def State.setRunState (s : State) (r : RunState) : State := s.setCore { s.core with runState := r }

/-- This core's CORE_XCLK <- b (10_state R42). -/
def State.setCoreXclk (s : State) (b : Byte) : State := s.setCore { s.core with coreXclk := b }

/-- This core's CORE_INTR <- v (10_state R43). -/
def State.setCoreIntr (s : State) (v : Word) : State := s.setCore { s.core with coreIntr := v }

/-- Replaces the memory. -/
def State.setMem (s : State) (m : Memory) : State := { s with mem := m }

/-- SYS_DCLK <- b (10_state R41). -/
def State.setSysDclk (s : State) (b : Byte) : State := { s with sysDclk := b }

/-- The boot address of core n + 1 <- v (10_state R45). -/
def State.setBootAddr (s : State) (n : Fin 3) (v : Word) : State :=
  { s with bootAddr := s.bootAddr.set n v }

/-- Counts one more free value as drawn (log 8). -/
def State.countDraw (s : State) : State := { s with draws := s.draws + 1 }

/-- pc <- trunc32(pc + 4), the end of every instruction that does not write pc (00_scope R12, 10_state
R28). -/
def State.advance (s : State) : State := s.setPc (s.pc + 4#32)

end Sys2Proof.Machine
end

