-- ==== Sys2Proof/Machine/ControlRegs.lean ====
section
/-! DEFINITION. The memory-mapped control registers (10_state R40 to R51) and the power control of cores 1
to 3 through CORE_FLAGS (60_exceptions R316). -/

namespace Sys2Proof.Machine

open Sys2Proof

/-- What a defined byte of the control-register range is. -/
inductive CregByte where
  | sysDclk
  | coreXclk
  /-- byte k of CORE_INTR -/
  | coreIntr (k : Nat)
  /-- byte k of the boot address of core n + 1 -/
  | bootAddr (n : Fin 3) (k : Nat)
  | coreFlags
deriving DecidableEq, Repr

/-- The register byte at a byte address of the control-register range; none for a reserved or unlisted one
(10_state R41 to R46, R49). -/
def cregByteOf (cfg : Config) (a : Nat) : Option CregByte :=
  if a = crBase + 0x00 then some .sysDclk
  else if a = crBase + 0x01 then some .coreXclk
  else if crBase + 0x02 ≤ a ∧ a < crBase + 0x06 then some (.coreIntr (a - (crBase + 0x02)))
  else if crBase + 0x40 ≤ a ∧ a < crBase + 0x44 then some (.bootAddr 0 (a - (crBase + 0x40)))
  else if crBase + 0x44 ≤ a ∧ a < crBase + 0x48 then some (.bootAddr 1 (a - (crBase + 0x44)))
  else if crBase + 0x48 ≤ a ∧ a < crBase + 0x4C then some (.bootAddr 2 (a - (crBase + 0x48)))
  else if a = crBase + cfg.coreFlagsOffset then some .coreFlags
  else none

/-- The byte belongs to a register that only core 0 can reach (10_state R45, R46, 20_memory R75). -/
def core0Only (cfg : Config) (a : Nat) : Bool :=
  match cregByteOf cfg a with
  | some (.bootAddr _ _) | some .coreFlags => true
  | some .sysDclk | some .coreXclk | some (.coreIntr _) | none => false

/-- The answer of a layout's Boolean function for the register's bits v (00_scope R8). -/
def evalBits {n : Nat} (v : BitVec n) : BitFn n → Bool
  | .bit i => v.getLsbD i.val
  | .const b => b
  | .not f => !evalBits v f
  | .and f g => evalBits v f && evalBits v g
  | .or f g => evalBits v f || evalBits v g

/-- Which cores are powered on, core c in bit c: those that are not Off (10_state R38, R46; log 18). -/
def State.poweredCores (s : State) : BitVec 4 :=
  BitVec.ofFnLE fun c : CoreId => decide ((s.coreAt c).runState ≠ .off)

/-- CORE_FLAGS, a view of the cores' run states as CORE_FLAGS_LAYOUT gives it (10_state R46). -/
def State.coreFlags (s : State) : Byte :=
  BitVec.ofFnLE fun k : Fin 8 => evalBits s.poweredCores s.cfg.coreFlagsRead[k]

/-- Sets the power of core n + 1 (60_exceptions R316). From Off it starts at its boot address; its
CORE_XCLK is then a free value (log 8). Switched off, it loses its state. A TripleFaulted core stays as
it is until reset (10_state R38, 60_exceptions R287; log 18). A halted core is switched off and started
again like any other, though 46_system R246 names reset as its only other way out (DEDUCED, unsafe:
log 33). -/
def State.setPower (s : State) (n : Fin 3) (on : Bool) : State :=
  match (s.coreAt n.succ).runState, on with
  | .off, true =>
    s.countDraw.setCoreAt n.succ
      (Core.poweredOn s.bootAddr[n] (Config.drawByte s.draws (crBase + 1)))
  | .running, false => s.setCoreAt n.succ Core.off
  | .off, false | .running, true | .tripleFaulted, _ => s

/-- A byte written to CORE_FLAGS sets the power of cores 1 to 3 as CORE_FLAGS_LAYOUT reads it; core 0
stays on (10_state R46). -/
def State.writeCoreFlags (s : State) (v : Byte) : State :=
  ((s.setPower 0 (evalBits v s.cfg.coreFlagsPower[0])).setPower 1
    (evalBits v s.cfg.coreFlagsPower[1])).setPower 2 (evalBits v s.cfg.coreFlagsPower[2])

/-- Reads a defined register byte, as the core whose turn it is sees it (10_state R50, R51). -/
def State.readCregByte (s : State) : CregByte → Byte
  | .sysDclk => s.sysDclk
  | .coreXclk => s.coreXclk
  | .coreIntr k => wordByte s.coreIntr k
  | .bootAddr n k => wordByte s.bootAddr[n] k
  | .coreFlags => s.coreFlags

/-- Writes a defined register byte (10_state R50, R51). -/
def State.writeCregByte (s : State) (b : CregByte) (v : Byte) : State :=
  match b with
  | .sysDclk => s.setSysDclk v
  | .coreXclk => s.setCoreXclk v
  | .coreIntr k => s.setCoreIntr (insertByte s.coreIntr (8 * k) v)
  | .bootAddr n k => s.setBootAddr n (insertByte s.bootAddr[n] (8 * k) v)
  | .coreFlags => s.writeCoreFlags v

/-- The byte a read of the control-register range gives: the register's, or an unspecified one where
no register is (10_state R44, R49, R50; log 8). -/
def State.cregRead (s : State) (a : Nat) : Byte :=
  match cregByteOf s.cfg a with
  | some b => s.readCregByte b
  | none => Config.drawByte s.draws a

/-- A byte write of the control-register range; one to a reserved or unlisted byte is refused
(10_state R50). -/
def State.cregWrite (s : State) (a : Nat) (v : Byte) : Except Refusal State :=
  match cregByteOf s.cfg a with
  | some b => .ok (s.writeCregByte b v)
  | none => .error .reservedControlByte

end Sys2Proof.Machine
end

