-- ==== Sys2Proof/Machine/Ops.lean ====
section
/-! DEFINITION. The shared operations: the access check and the data accesses (20_memory R70 to R77), the
stack primitives (45_call_stack R222), taking a trap (60_exceptions R280 to R287) and the return from
one (R288). -/

namespace Sys2Proof.Machine

open Sys2Proof

/-- What a step inside an instruction gives: a value, a raised exception with the data address where
one applies (00_scope R14), or a refusal (R15). -/
inductive Res (α : Type) where
  | ok (a : α)
  | raise (e : Exc) (info : Option Word)
  | refuse (r : Refusal)
deriving DecidableEq, Repr

/-- Goes on with the value; an exception or a refusal stops the instruction at this point (00_scope
R14). -/
def Res.bind {α β : Type} (r : Res α) (f : α → Res β) : Res β :=
  match r with
  | .ok a => f a
  | .raise e info => .raise e info
  | .refuse q => .refuse q

/-! ## Data accesses -/

/-- A data access reads or writes (20_memory R76). -/
inductive AccessKind where
  | load
  | store
deriving DecidableEq, Repr

/-- The two access widths (20_memory R69). -/
inductive Width where
  | byte
  | word
deriving DecidableEq, Repr

/-- The addresses of the bytes an access covers, lowest first. -/
def bytesCovered (a : Word) : Width → List Nat
  | .byte => [a.toNat]
  | .word => [a.toNat, a.toNat + 1, a.toNat + 2, a.toNat + 3]

/-- F of R76: LoadFault for a load, StoreFault for a store. -/
def accessFault : AccessKind → Exc
  | .load => .loadFault
  | .store => .storeFault

/-- DataCheck of 20_memory R76, under the rights of mode m: the exception it raises, if any. -/
def State.dataCheck (s : State) (m : Mode) (k : AccessKind) (a : Word) (w : Width) : Option Exc :=
  if w = .word ∧ aligned a = false then some .loadStoreAlignmentFault
  else if region a = .nulltrap then some (accessFault k)
  else if m = .p1 ∧ region a ≠ .prog then some (accessFault k)
  else if k = .store ∧ region a = .rom then some .storeFault
  else if region a = .creg ∧ s.turn ≠ 0 ∧ (bytesCovered a w).any (core0Only s.cfg) = true then
    some (accessFault k)
  else none

/-- The byte a data read finds at an address: a control-register byte or a storage byte (R76). -/
def State.dataByte (s : State) (a : Nat) : Byte :=
  if regionOf a = .creg then s.cregRead a else s.storageByte a

/-- The value of a data read, zero-extended for a byte, little endian for a word (20_memory R60). -/
def State.dataValue (s : State) (a : Word) : Width → Word
  | .byte => (s.dataByte a.toNat).setWidth 32
  | .word =>
    wordOfBytes (s.dataByte a.toNat) (s.dataByte (a.toNat + 1)) (s.dataByte (a.toNat + 2))
      (s.dataByte (a.toNat + 3))

/-- The access covers a reserved or unlisted control-register byte (10_state R50). -/
def State.coversUnspecified (s : State) (a : Word) (w : Width) : Bool :=
  region a == .creg && (bytesCovered a w).any (fun b => (cregByteOf s.cfg b).isNone)

/-- The state after a data read: the same, but for the count of free values drawn when the read
covers an unspecified byte (10_state R50; log 8). -/
def State.afterRead (s : State) (a : Word) (w : Width) : State :=
  if s.coversUnspecified a w then s.countDraw else s

/-- MemRead under the rights of mode m (00_scope R13, 20_memory R60, R76). MMIO is refused (R77). -/
def State.memRead (s : State) (m : Mode) (a : Word) (w : Width) : Res (Word × State) :=
  match s.dataCheck m .load a w with
  | some e => .raise e (some a)
  | none =>
    if region a = .mmio then .refuse .mmioAccess else .ok (s.dataValue a w, s.afterRead a w)

/-- The writes of an access to the control registers, lowest byte first; refused as a whole if one is
(10_state R50). -/
def State.cregWriteAll (s : State) (a : Word) (v : Word) : Width → Except Refusal State
  | .byte => s.cregWrite a.toNat (wordByte v 0)
  | .word =>
    match s.cregWrite a.toNat (wordByte v 0) with
    | .error r => .error r
    | .ok s1 =>
      match s1.cregWrite (a.toNat + 1) (wordByte v 1) with
      | .error r => .error r
      | .ok s2 =>
        match s2.cregWrite (a.toNat + 2) (wordByte v 2) with
        | .error r => .error r
        | .ok s3 => s3.cregWrite (a.toNat + 3) (wordByte v 3)

/-- The memory after a storage write (20_memory R60). -/
def storageWrite (m : Memory) (a : Word) (v : Word) : Width → Memory
  | .byte => Memory.write m a.toNat (wordByte v 0)
  | .word => Memory.writeWord m a.toNat v

/-- A write that has passed its check, by region (20_memory R76, R77, 10_state R50). -/
def State.writeThrough (s : State) (a : Word) (v : Word) (w : Width) : Except Refusal State :=
  match region a with
  | .mmio => .error .mmioAccess
  | .creg => s.cregWriteAll a v w
  | .nulltrap | .ivt | .prog | .rom => .ok (s.setMem (storageWrite s.mem a v w))

/-- The write reaches an address from pc+4 to pc+15 (20_memory R87). -/
def State.reachesPrefetch (s : State) (a : Word) (w : Width) : Bool :=
  (bytesCovered a w).any (fun b =>
    decide (4 ≤ (BitVec.ofNat 32 b - s.pc).toNat) && decide ((BitVec.ofNat 32 b - s.pc).toNat ≤ 15))

/-- MemWrite of an instruction under the rights of mode m (00_scope R13, 20_memory R60, R76), refused
under SMC_POLICY = refuse where R87 says so. -/
def State.memWrite (s : State) (m : Mode) (a : Word) (v : Word) (w : Width) : Res State :=
  match s.dataCheck m .store a w with
  | some e => .raise e (some a)
  | none =>
    if s.cfg.smcRefuse && s.reachesPrefetch a w then .refuse .selfModifyingStore
    else
      match s.writeThrough a v w with
      | .ok t => .ok t
      | .error r => .refuse r

/-! ## The stack (45_call_stack R220, R222) -/

/-- Push(v): lowers XSP by 4 and stores at the new XSP, under the current mode. -/
def State.push (s : State) (v : Word) : Res State :=
  (s.memWrite s.mode (s.x xsp - 4#32) v .word).bind fun t => .ok (t.setX xsp (s.x xsp - 4#32))

/-- Pop(): loads at XSP and raises XSP by 4, under the current mode. -/
def State.pop (s : State) : Res (Word × State) :=
  (s.memRead s.mode (s.x xsp) .word).bind fun p => .ok (p.1, p.2.setX xsp (s.x xsp + 4#32))

/-! ## Fetch check -/

/-- FetchCheck of 20_memory R76, under the rights of mode m. -/
def fetchCheck (m : Mode) (a : Word) : Option Exc :=
  if aligned a = false then some .instrFetchAlignmentFault
  else if region a ≠ .prog ∧ region a ≠ .rom then some .instructionFetchFault
  else if m = .p1 ∧ region a = .rom then some .instructionFetchFault
  else none

/-! ## Taking a trap -/

/-- The vector number of an exception (60_exceptions R260, R271). -/
def excVector : Exc → Nat
  | .loadFault => 0
  | .storeFault => 1
  | .pageFault => 2
  | .invalidPageFault => 3
  | .loadStoreAlignmentFault => 4
  | .invalidOpcodeFault => 5
  | .instructionFetchFault => 6
  | .instrFetchAlignmentFault => 7
  | .zeroDivisionFault => 8
  | .doubleFault => 9

/-- The vector number of an interrupt source (60_exceptions R290): 10 to 19. -/
def irqVector (q : IrqSource) : Nat := 10 + q.index.val

/-- The handler address in a vector-table entry (60_exceptions R270, R272), read with kernel rights. -/
def State.handler (s : State) (v : Nat) : Word := s.storageWord (ivtBase + 4 * v)

/-- can_push of 60_exceptions R280: a kernel-mode word write at sp passes DataCheck. -/
def State.canPush (s : State) (sp : Word) : Bool := (s.dataCheck .p0 .store sp .word).isNone

/-- can_fetch of 60_exceptions R280: a kernel-mode fetch at the handler passes FetchCheck. -/
def canFetch (h : Word) : Bool := (fetchCheck .p0 h).isNone

/-- Vector v can be delivered: both conditions of 60_exceptions R280. -/
def State.deliverable (s : State) (v : Nat) : Bool :=
  s.canPush (s.x xsp - 4#32) && canFetch (s.handler v)

/-- Entry to a handler at h with the stack pointer at sp (60_exceptions R280). -/
def State.enterHandler (s : State) (sp h : Word) : State :=
  (((s.setX xsp sp).setMode .p0).setHalted false).setPc h

/-- The delivery of a vector that can be delivered: the return address is pushed with kernel rights and
the handler entered (60_exceptions R280). The push acts on its region as any kernel write does, so
into MMIO or a reserved control-register byte it is refused (log 20). -/
def State.deliverTo (s : State) (v : Nat) (ret : Word) : Result :=
  match s.writeThrough (s.x xsp - 4#32) ret .word with
  | .ok t => .next (t.enterHandler (s.x xsp - 4#32) (s.handler v))
  | .error r => .refused r

/-- Deliver of 60_exceptions R280: vector v, or DoubleFault if v cannot be delivered (R286), or
TripleFault if that cannot either (R287). -/
def State.deliver (s : State) (v : Nat) (ret : Word) : Result :=
  if s.deliverable v then s.deliverTo v ret
  else if v ≠ excVector .doubleFault ∧ s.deliverable (excVector .doubleFault) = true then
    s.deliverTo (excVector .doubleFault) ret
  else .next (s.setRunState .tripleFaulted)

/-- exc <- info where a data address is given (60_exceptions R283). -/
def State.recordInfo (s : State) : Option Word → State
  | some a => s.setExc a
  | none => s

/-- TrapEntry of 60_exceptions R280. -/
def State.trapEntry (s : State) (v : Nat) (ret : Word) (info : Option Word) : Result :=
  (s.recordInfo info).deliver v ret

/-- TAKING AN EXCEPTION: trap entry with the address of the faulting instruction as the return address
(60_exceptions R281), from the state the instruction started in (R284). -/
def State.takeException (s : State) (e : Exc) (info : Option Word) : Result :=
  s.trapEntry (excVector e) s.pc info

/-- The outcome of an instruction that started in s: its own next state, the exception it raised taken
in s (00_scope R14), or its refusal. -/
def State.finish (s : State) : Res State → Result
  | .ok t => .next t
  | .raise e info => s.takeException e info
  | .refuse r => .refused r

/-! ## The return from a trap (60_exceptions R288) -/

/-- Pops pc and leaves in mode m: SYSRET with P1, RET with the mode it is in. Nothing else is
restored. -/
def State.returnTo (s : State) (m : Mode) : Res State :=
  s.pop.bind fun p => .ok ((p.2.setMode m).setPc p.1)

end Sys2Proof.Machine
end

