-- ==== Sys2Proof/Machine/Arithmetic.lean ====
section
/-! DEFINITION. Integer arithmetic and the floating-point placeholders (40_arithmetic). -/

namespace Sys2Proof.Machine

open Sys2Proof

/-- The end of an instruction whose one effect is a value in an X register: x[d] <- v, pc <- pc + 4. -/
def State.writeX (s : State) (d : XReg) (v : Word) : Result := .next ((s.setX d v).advance)

/-- ADD (R141, R145). -/
def execAdd (a b : XReg) (s : State) : Result := s.writeX a (s.x a + s.x b)

/-- SUB (R142, R145). -/
def execSub (a b : XReg) (s : State) : Result := s.writeX a (s.x a - s.x b)

/-- MUL: the low 32 bits of the product (R143, R145). -/
def execMul (a b : XReg) (s : State) : Result := s.writeX a (s.x a * s.x b)

/-- DIV; a zero divisor raises ZeroDivisionFault before any write (R144, R146). -/
def execDiv (a b : XReg) (s : State) : Result :=
  if s.x b = 0#32 then s.takeException .zeroDivisionFault none
  else s.writeX a (divValue s.cfg (s.x a) (s.x b))

/-- ADD_FP, a placeholder: InvalidOpcodeFault (R148, R112). -/
def execAddFp (s : State) : Result := s.takeException .invalidOpcodeFault none

/-- SUB_FP, a placeholder: InvalidOpcodeFault (R148, R112). -/
def execSubFp (s : State) : Result := s.takeException .invalidOpcodeFault none

/-- MUL_FP, a placeholder: InvalidOpcodeFault (R148, R112). -/
def execMulFp (s : State) : Result := s.takeException .invalidOpcodeFault none

/-- DIV_FP, a placeholder: InvalidOpcodeFault (R148, R112). -/
def execDivFp (s : State) : Result := s.takeException .invalidOpcodeFault none

end Sys2Proof.Machine
end

