-- ==== Sys2Proof/Machine/Flags.lean ====
section
/-! DEFINITION. The CPU has no flags (10_state R33): a conditional jump compares register operands inside
itself. This file holds those comparisons (44_jump R205, R208; 30_encoding R109). -/

namespace Sys2Proof.Machine

open Sys2Proof

/-- a' < b' of 44_jump R205, unsigned or, under CMP_SIGNED, signed. -/
def lessThan (cfg : Config) (a b : Word) : Bool :=
  if cfg.cmpSigned then decide (a.toInt < b.toInt) else decide (a.toNat < b.toNat)

/-- cond(c, a, b) of 44_jump R205. -/
def condHolds (cfg : Config) (c : Cond) (a b : Word) : Bool :=
  match c with
  | .eq => a == b
  | .ne => !(a == b)
  | .lt => lessThan cfg a b
  | .ge => !lessThan cfg a b
  | .gt => lessThan cfg b a
  | .le => !lessThan cfg b a

/-- The condition of a JMPC code by CC_MAP; none for the codes 6 and 7 (30_encoding R109). -/
def condOfCode (cfg : Config) (c : BitVec 3) : Option Cond :=
  if h : c.toNat < 6 then some cfg.ccMap[c.toNat] else none

/-- The condition of a JMPC_Z code by CC_MAP (30_encoding R109). -/
def condZOfCode (cfg : Config) (c : BitVec 1) : CondZ := cfg.ccZMap[c.toFin]

/-- `taken` of 44_jump R208. -/
def condZHolds (c : CondZ) (a : Word) : Bool :=
  match c with
  | .nz => !(a == 0#32)
  | .zr => a == 0#32

end Sys2Proof.Machine
end

