-- ==== Sys2Proof/Machine/Jump.lean ====
section
/-! DEFINITION. Jumps (44_jump). A bad target faults at the next fetch, not here (R200). -/

namespace Sys2Proof.Machine

open Sys2Proof

/-- The target base + offset register (R202, R206, R208, 45_call_stack R224), modulo 2^32. -/
def State.regTarget (s : State) (a f : XReg) : Word := s.x a + s.x f

/-- The target base + immediate (R201, 45_call_stack R223), modulo 2^32. -/
def State.immTarget (s : State) (a : XReg) (i : BitVec 20) : Word := s.x a + zext20 i

/-- pc <- target if the condition holds, pc <- pc + 4 if not (R206, R208). -/
def State.branch (s : State) (taken : Bool) (target : Word) : Result :=
  .next (if taken then s.setPc target else s.advance)

/-- JMP_IMM (R201). -/
def execJmpImm (a : XReg) (i : BitVec 20) (s : State) : Result := .next (s.setPc (s.immTarget a i))

/-- JMP_REL (R202). -/
def execJmpRel (a f : XReg) (s : State) : Result := .next (s.setPc (s.regTarget a f))

/-- JMP (R203). -/
def execJmp (a : XReg) (s : State) : Result := .next (s.setPc (s.x a))

/-- JMPC (R206); the codes 6 and 7 raise InvalidOpcodeFault (R112). -/
def execJmpc (c : BitVec 3) (p1 p2 a f : XReg) (s : State) : Result :=
  match condOfCode s.cfg c with
  | none => s.takeException .invalidOpcodeFault none
  | some k => s.branch (condHolds s.cfg k (s.x p1) (s.x p2)) (s.regTarget a f)

/-- JMPC_Z (R208). -/
def execJmpcZ (c : BitVec 1) (p a f : XReg) (s : State) : Result :=
  s.branch (condZHolds (condZOfCode s.cfg c) (s.x p)) (s.regTarget a f)

end Sys2Proof.Machine
end

