-- ==== Sys2Proof/Machine/CallStack.lean ====
section
/-! DEFINITION. Calls, returns and the stack (45_call_stack). -/

namespace Sys2Proof.Machine

open Sys2Proof

/-- Pushes the address of the next instruction and goes to the target, which is computed before the
push (R223, R224). -/
def State.callTo (s : State) (target : Word) : Result :=
  s.finish ((s.push (s.pc + 4#32)).bind fun t => .ok (t.setPc target))

/-- CALL_IMM (R223). -/
def execCallImm (a : XReg) (i : BitVec 20) (s : State) : Result := s.callTo (s.immTarget a i)

/-- CALL (R224). -/
def execCall (a f : XReg) (s : State) : Result := s.callTo (s.regTarget a f)

/-- RET: pops pc, the mode unchanged (R225). -/
def execRet (s : State) : Result := s.finish (s.returnTo s.mode)

/-- PUSH: the source is read before XSP is lowered (R226, R230). -/
def execPush (r : XReg) (s : State) : Result :=
  s.finish ((s.push (s.x r)).bind fun t => .ok t.advance)

/-- POP: the destination is written after XSP is raised (R227, R230). -/
def execPop (d : XReg) (s : State) : Result :=
  s.finish (s.pop.bind fun p => .ok ((p.2.setX d p.1).advance))

/-- PUSH_EXT (R228). -/
def execPushExt (r : EReg) (s : State) : Result :=
  s.finish ((s.push (s.e r)).bind fun t => .ok t.advance)

/-- POP_EXT (R229). -/
def execPopExt (d : EReg) (s : State) : Result :=
  s.finish (s.pop.bind fun p => .ok ((p.2.setE d p.1).advance))

end Sys2Proof.Machine
end

