-- ==== Sys2Proof/Machine/LoadStore.lean ====
section
/-! DEFINITION. Loads and stores (42_load_store). -/

namespace Sys2Proof.Machine

open Sys2Proof

/-- The effective address of LD and ST: base plus offset, modulo 2^32 (R183, R184, R185). -/
def State.wordAddress (s : State) (a f : XReg) : Word := s.x a + s.x f

/-- The effective address of LDB and STB: the base register alone (R181, R182, R185). -/
def State.byteAddress (s : State) (a : XReg) : Word := s.x a

/-- LDB: the byte goes to the lane the offset register names; a lane offset other than 0, 8, 16 or 24
is refused (R181; log 13). -/
def execLdb (d a f : XReg) (s : State) : Result :=
  if laneAligned (s.x f) = false then .refused .ldbLaneOffset
  else
    s.finish ((s.memRead s.mode (s.byteAddress a) .byte).bind fun p =>
      .ok ((p.2.setX d (insertByte (s.x d) (s.x f).toNat (p.1.setWidth 8))).advance))

/-- STB: the low byte of the source shifted right as RSH shifts (R182, 43_shift R195). -/
def execStb (r a f : XReg) (s : State) : Result :=
  s.finish ((s.memWrite s.mode (s.byteAddress a) (rshValue s.cfg (s.x r) (s.x f).toNat) .byte).bind
    fun t => .ok t.advance)

/-- LD (R183). -/
def execLd (d a f : XReg) (s : State) : Result :=
  s.finish ((s.memRead s.mode (s.wordAddress a f) .word).bind fun p =>
    .ok ((p.2.setX d p.1).advance))

/-- ST (R184). -/
def execSt (r a f : XReg) (s : State) : Result :=
  s.finish ((s.memWrite s.mode (s.wordAddress a f) (s.x r) .word).bind fun t => .ok t.advance)

end Sys2Proof.Machine
end

