-- ==== Sys2Proof/Machine/LogicMove.lean ====
section
/-! DEFINITION. Bitwise logic and register moves (41_logic_move). -/

namespace Sys2Proof.Machine

open Sys2Proof

/-- The end of an instruction whose one effect is a value in an E register: e[d] <- v, pc <- pc + 4. -/
def State.writeE (s : State) (d : EReg) (v : Word) : Result := .next ((s.setE d v).advance)

/-- AND (R161). -/
def execAnd (a b : XReg) (s : State) : Result := s.writeX a (s.x a &&& s.x b)

/-- OR (R162). -/
def execOr (a b : XReg) (s : State) : Result := s.writeX a (s.x a ||| s.x b)

/-- XOR (R163). -/
def execXor (a b : XReg) (s : State) : Result := s.writeX a (s.x a ^^^ s.x b)

/-- NOT (R164). -/
def execNot (a : XReg) (s : State) : Result := s.writeX a (~~~ s.x a)

/-- MOV (R165). -/
def execMov (d r : XReg) (s : State) : Result := s.writeX d (s.x r)

/-- MOV_IMM: the whole register becomes the zero-extended immediate (R170). -/
def execMovImm (d : XReg) (i : BitVec 20) (s : State) : Result := s.writeX d (zext20 i)

/-- MOV_IMM_HIGH: bits 31:16 replaced, bits 15:0 kept (R172). -/
def execMovImmHigh (d : XReg) (i : BitVec 16) (s : State) : Result :=
  s.writeX d (withHighHalf (s.x d) i)

/-- MOV_EXT (R174). -/
def execMovExt (d : EReg) (r : XReg) (s : State) : Result := s.writeE d (s.x r)

/-- MOV_GP (R175). -/
def execMovGp (d : XReg) (r : EReg) (s : State) : Result := s.writeX d (s.e r)

/-- MOV_EXT2 (R176). -/
def execMovExt2 (d r : EReg) (s : State) : Result := s.writeE d (s.e r)

end Sys2Proof.Machine
end

