-- ==== Sys2Proof/Machine/Shift.lean ====
section
/-! DEFINITION. Shifts (43_shift). NOP is LSH_IMM X0 0 (R196). -/

namespace Sys2Proof.Machine

open Sys2Proof

/-- LSH (R191): the amount is the full value of the shift register. -/
def execLsh (p h : XReg) (s : State) : Result :=
  s.writeX p (lshValue s.cfg (s.x p) (s.x h).toNat)

/-- LSH_IMM (R192). -/
def execLshImm (p : XReg) (i : BitVec 20) (s : State) : Result :=
  s.writeX p (lshValue s.cfg (s.x p) i.toNat)

/-- RSH (R193): the amount is the full value of the shift register. -/
def execRsh (p h : XReg) (s : State) : Result :=
  s.writeX p (rshValue s.cfg (s.x p) (s.x h).toNat)

/-- RSH_IMM (R194). -/
def execRshImm (p : XReg) (i : BitVec 20) (s : State) : Result :=
  s.writeX p (rshValue s.cfg (s.x p) i.toNat)

end Sys2Proof.Machine
end

