-- ==== Sys2Proof/Machine/System.lean ====
section
/-! DEFINITION. System instructions (46_system). -/

namespace Sys2Proof.Machine

open Sys2Proof

/-- The parameter SYSCALL_HANDLER_SLOT can be used: a multiple of 4 in IVT or PROG (R242). -/
def slotUsable (a : Word) : Bool := aligned a && (region a == .ivt || region a == .prog)

/-- SYSCALL: reads the handler with kernel rights, pushes the next address under the caller's rights,
switches to P0 and goes to the handler (R241, R242). The hardware does nothing with the ID register
(R241). -/
def execSyscall (_i : XReg) (s : State) : Result :=
  if slotUsable s.cfg.syscallHandlerSlot = false then .refused .syscallHandlerSlot
  else
    s.finish ((s.push (s.pc + 4#32)).bind fun t =>
      .ok ((t.setMode .p0).setPc (s.storageWord s.cfg.syscallHandlerSlot.toNat)))

/-- SYSRET: P0 only; pops pc with kernel rights and switches to P1 (R243, R240). -/
def execSysret (s : State) : Result :=
  if s.mode = .p1 then s.takeException .invalidOpcodeFault none
  else s.finish (s.returnTo .p1)

/-- HLT: P0 only; sets the halt flag (R245, R240). -/
def execHlt (s : State) : Result :=
  if s.mode = .p1 then s.takeException .invalidOpcodeFault none
  else .next ((s.setHalted true).advance)

/-- CPUID: the identification value of this core, an open constant (R247; log 9). -/
def execCpuid (d : XReg) (s : State) : Result := s.writeX d (Config.cpuidValue s.turn)

end Sys2Proof.Machine
end

