-- ==== Sys2Proof/Machine/Dispatch.lean ====
section
/-! DEFINITION. One arm per constructor of Instr. -/

namespace Sys2Proof.Machine

open Sys2Proof

def exec (i : Instr) (s : State) : Host.Outcome State Fault Refusal :=
  match i with
  | .add a b => Sys2Proof.Machine.execAdd a b s
  | .sub a b => Sys2Proof.Machine.execSub a b s
  | .mul a b => Sys2Proof.Machine.execMul a b s
  | .div a b => Sys2Proof.Machine.execDiv a b s
  | .addFp => Sys2Proof.Machine.execAddFp s
  | .subFp => Sys2Proof.Machine.execSubFp s
  | .mulFp => Sys2Proof.Machine.execMulFp s
  | .divFp => Sys2Proof.Machine.execDivFp s
  | .and a b => Sys2Proof.Machine.execAnd a b s
  | .or a b => Sys2Proof.Machine.execOr a b s
  | .xor a b => Sys2Proof.Machine.execXor a b s
  | .not a => Sys2Proof.Machine.execNot a s
  | .mov d r => Sys2Proof.Machine.execMov d r s
  | .movImm d imm => Sys2Proof.Machine.execMovImm d imm s
  | .movImmHigh d imm => Sys2Proof.Machine.execMovImmHigh d imm s
  | .movExt d r => Sys2Proof.Machine.execMovExt d r s
  | .movGp d r => Sys2Proof.Machine.execMovGp d r s
  | .movExt2 d r => Sys2Proof.Machine.execMovExt2 d r s
  | .ldb d a f => Sys2Proof.Machine.execLdb d a f s
  | .stb r a f => Sys2Proof.Machine.execStb r a f s
  | .ld d a f => Sys2Proof.Machine.execLd d a f s
  | .st r a f => Sys2Proof.Machine.execSt r a f s
  | .lsh p h => Sys2Proof.Machine.execLsh p h s
  | .lshImm p imm => Sys2Proof.Machine.execLshImm p imm s
  | .rsh p h => Sys2Proof.Machine.execRsh p h s
  | .rshImm p imm => Sys2Proof.Machine.execRshImm p imm s
  | .jmpImm a imm => Sys2Proof.Machine.execJmpImm a imm s
  | .jmpRel a f => Sys2Proof.Machine.execJmpRel a f s
  | .jmp a => Sys2Proof.Machine.execJmp a s
  | .jmpc c p1 p2 a f => Sys2Proof.Machine.execJmpc c p1 p2 a f s
  | .jmpcZ c p a f => Sys2Proof.Machine.execJmpcZ c p a f s
  | .callImm a imm => Sys2Proof.Machine.execCallImm a imm s
  | .call a f => Sys2Proof.Machine.execCall a f s
  | .ret => Sys2Proof.Machine.execRet s
  | .push r => Sys2Proof.Machine.execPush r s
  | .pop d => Sys2Proof.Machine.execPop d s
  | .pushExt r => Sys2Proof.Machine.execPushExt r s
  | .popExt d => Sys2Proof.Machine.execPopExt d s
  | .syscall r => Sys2Proof.Machine.execSyscall r s
  | .sysret => Sys2Proof.Machine.execSysret s
  | .hlt => Sys2Proof.Machine.execHlt s
  | .cpuid d => Sys2Proof.Machine.execCpuid d s

end Sys2Proof.Machine
end

