-- ==== Sys2Proof/Machine/Interrupt.lean ====
section
/-! DEFINITION. Interrupts (60_exceptions R290 to R297): firing, enabling, priority and taking one; and
which core has a step at all (00_scope R16, 46_system R246). -/

namespace Sys2Proof.Machine

open Sys2Proof

/-- Source q is enabled on a core (60_exceptions R291): WDT_EXPIRED always, a maskable source when
CORE_INTR allows them globally and does not disable it, as CORE_INTR_LAYOUT reads it (10_state R43). -/
def irqEnabled (cfg : Config) (coreIntr : Word) (q : IrqSource) : Bool :=
  if h : 1 ≤ q.index.val then
    evalBits coreIntr cfg.intrAllow &&
      !evalBits coreIntr (cfg.intrDisable[q.index.val - 1]'(by omega))
  else true

/-- The interrupt a core takes next: the pending and enabled source with the lowest vector number
(60_exceptions R292, R293). -/
def nextIrq (cfg : Config) (c : Core) : Option IrqSource :=
  IrqSource.all.find? fun q => c.pending[q.index] && irqEnabled cfg c.coreIntr q

/-- The core has a step (00_scope R16): it is Running, and not halted unless an interrupt wakes it
(46_system R246). -/
def coreHasStep (cfg : Config) (c : Core) : Bool :=
  c.runState == .running && ((nextIrq cfg c).isSome || !c.halted)

/-- Taking an interrupt: its pending bit is cleared and the trap entered with the pc of the instruction
that has not started (60_exceptions R281, R292). -/
def State.takeInterrupt (s : State) (q : IrqSource) : Result :=
  (s.setPending q false).trapEntry (irqVector q) s.pc none

/-- Source q becomes pending on one core (60_exceptions R292). -/
def State.raiseOn (s : State) (q : IrqSource) (c : CoreId) : State :=
  s.setCoreAt c { s.coreAt c with pending := (s.coreAt c).pending.set q.index true }

/-- Source q fires: it becomes pending on every core of IRQ_TARGET(q) (60_exceptions R292, R296). -/
def State.fire (s : State) (q : IrqSource) : State :=
  s.cfg.irqTarget[q.index].foldl (fun t c => t.raiseOn q c) s

/-- The sources of a list fire, in order. -/
def State.fireAll (s : State) (qs : List IrqSource) : State := qs.foldl State.fire s

end Sys2Proof.Machine
end

