-- ==== Sys2Proof/Machine/CoreStep.lean ====
section
/-! DEFINITION. One step of one core (00_scope R16), which core moves (20_memory R82, 60_exceptions R306),
and placing an instruction where the next fetch finds it. -/

namespace Sys2Proof.Machine

open Sys2Proof

/-- Decoding and executing a fetched word (00_scope R16 items 5 and 6; 30_encoding R113, R115). -/
def State.runWord (s : State) (w : Word) : Result :=
  if s.cfg.unusedBitsRefuse && !(unusedBits w == 0#32) then .refused .unusedBitsSet
  else
    match decodeWord w with
    | .ok i => exec i s
    | .error _ => s.takeException .invalidOpcodeFault none

/-- Fetching at pc and running the word (00_scope R16 items 4 to 6; 20_memory R61, R71, R76, R79). -/
def State.fetchAndRun (s : State) : Result :=
  match fetchCheck s.mode s.pc with
  | some e => s.takeException e none
  | none => s.runWord (s.storageWord s.pc.toNat)

/-- The step of the core whose turn it is, when it has one: an enabled pending interrupt first, else
the instruction at pc (00_scope R16, 60_exceptions R265). -/
def State.coreStep (s : State) : Result :=
  match nextIrq s.cfg s.core with
  | some q => s.takeInterrupt q
  | none => s.fetchAndRun

/-- The cores that have a step. -/
def State.movers (s : State) : List CoreId :=
  [0, 1, 2, 3].filter fun c => coreHasStep s.cfg (s.coreAt c)

/-- Gives the turn to a core. -/
def State.withTurn (s : State) (c : CoreId) : State := { s with turn := c }

/-- Why the machine is stuck, by the core whose turn it is. -/
def State.stuckReason (s : State) : Fault :=
  match s.runState with
  | .off => .coreOff
  | .tripleFaulted => .tripleFaulted
  | .running => .haltedForever

/-- The step when nothing is scripted: no source fires; the one core that has a step moves; of several,
a free choice picks one (20_memory R82, 70_reset R344; log 15); with none the machine is stuck
(log 16). -/
def State.freeStep (s : State) : Result :=
  match s.movers with
  | [] => .fault s.stuckReason
  | [c] => (s.withTurn c).coreStep
  | c :: d :: cs =>
    (s.countDraw.withTurn
      ((c :: d :: cs).getD (Config.drawTurn s.draws % (cs.length + 2)) c)).coreStep

/-- A scripted step: the tick's sources fire and its core moves; if that core has no step, nothing
else happens (00_scope R16, 60_exceptions R306; log 14, log 16). -/
def State.scriptedStep (s : State) (k : Tick) : Result :=
  if coreHasStep (s.fireAll k.fires).cfg ((s.fireAll k.fires).coreAt k.core) then
    ((s.fireAll k.fires).withTurn k.core).coreStep
  else .next ((s.fireAll k.fires).withTurn k.core)

/-- Stores an instruction word in memory at the address a, as a loader does. -/
def State.placeWord (s : State) (a w : Word) : State := s.setMem (Memory.writeWord s.mem a.toNat w)

/-- The address the next fetch will use: pc where a fetch is permitted, else the start of program
memory. -/
def State.fetchPlace (s : State) : Word :=
  if fetchCheck s.mode s.pc = none then s.pc else 0x00008000#32

/-- The core whose turn it is ready to fetch: Running, not halted, nothing pending, pc at an address a
fetch is permitted at. -/
def State.readyToFetch (s : State) : State :=
  s.setCore { s.core with
    pc := s.fetchPlace
    runState := .running
    halted := false
    pending := Vector.replicate 10 false }

/-- Makes the core whose turn it is the next to move: nothing to do when nothing is scripted and it is
the only core with a step, else a tick for it is put first. -/
def State.scheduleTurn (s : State) : State :=
  if s.script = [] ∧ s.movers = [s.turn] then s
  else { s with script := { core := s.turn, fires := [] } :: s.script }

end Sys2Proof.Machine
end

