-- ==== Sys2Proof/Machine/Step.lean ====
section
/-! DEFINITION. One step of the machine: one instruction or one interrupt of one core (00_scope R16, 20_memory
R82). -/

namespace Sys2Proof.Machine

open Sys2Proof

/-- One step of the machine: the next scripted tick, or what the machine does with none (00_scope R16,
20_memory R82; log 14). DESIGN CHOICE, unsafe (log 32): all memory accesses of a step are indivisible,
so that no other core's access falls between them; R82 orders single accesses. -/
def step (s : State) : Host.Outcome State Fault Refusal :=
  match s.script with
  | k :: rest => State.scriptedStep { s with script := rest } k
  | [] => s.freeStep

/-- s with the instruction of the table's bits w (those above nbits 0) placed where the next step
fetches, and everything set that this takes (log 3): the core whose turn it is runs, is not halted,
has nothing pending, has its pc at a fetchable address, and moves next. -/
def State.withFetchWord (s : State) (nbits w : Nat) : State :=
  (s.readyToFetch.placeWord s.fetchPlace (BitVec.ofNat 32 (w % 2 ^ nbits))).scheduleTurn

end Sys2Proof.Machine
end

