-- ==== Sys2Proof/Safety.lean ====
section
/-! DEFINITION. What claims are stated in terms of: the frames of an instruction, where a store or a push
may go, the state a trap entry leaves, the invariant of the machine, and the runs the spec counts
as faulted. -/

namespace Sys2Proof.Machine

open Sys2Proof

/-! ## Frames -/

/-- Every X register outside the list is unchanged. -/
def sameX (xs : List XReg) (s t : State) : Prop := ∀ r, r ∉ xs → t.x r = s.x r

/-- Every E register outside the list is unchanged. -/
def sameE (es : List EReg) (s t : State) : Prop := ∀ r, r ∉ es → t.e r = s.e r

/-- EXC, the mode, the halt flag, the pending bits, run_state, CORE_XCLK and CORE_INTR of the core whose
turn it is are unchanged. -/
def sameControl (s t : State) : Prop :=
  t.exc = s.exc ∧ t.mode = s.mode ∧ t.halted = s.halted ∧ (∀ q, t.pending q = s.pending q) ∧
    t.runState = s.runState ∧ t.coreXclk = s.coreXclk ∧ t.coreIntr = s.coreIntr

/-- The shared control registers, the other cores, the parameters, the turn and the script are
unchanged. -/
def sameSystem (s t : State) : Prop :=
  t.sysDclk = s.sysDclk ∧ t.bootAddr = s.bootAddr ∧ t.cfg = s.cfg ∧ t.turn = s.turn ∧
    t.script = s.script ∧ ∀ c, c ≠ s.turn → t.coreAt c = s.coreAt c

/-- Everything but memory is unchanged, except the X registers and the E registers of the lists and
PC. -/
def changesRegisters (xs : List XReg) (es : List EReg) (s t : State) : Prop :=
  sameX xs s t ∧ sameE es s t ∧ sameControl s t ∧ sameSystem s t ∧ t.draws = s.draws

/-- Every byte of memory is unchanged. -/
def sameStorage (s t : State) : Prop := ∀ n, t.storageByte n = s.storageByte n

/-- Everything is unchanged, except the X registers and the E registers of the lists and PC. -/
def changesOnly (xs : List XReg) (es : List EReg) (s t : State) : Prop :=
  changesRegisters xs es s t ∧ sameStorage s t

/-- The word v is stored at the address a, little endian, and every other byte of memory is unchanged. -/
def storesWord (a v : Word) (s t : State) : Prop :=
  (∀ k, k < 4 → t.storageByte (a.toNat + k) = wordByte v k) ∧
    ∀ n, n < a.toNat ∨ a.toNat + 4 ≤ n → t.storageByte n = s.storageByte n

/-- The byte b is stored at the address a and every other byte of memory is unchanged. -/
def storesByte (a : Word) (b : Byte) (s t : State) : Prop :=
  t.storageByte a.toNat = b ∧ ∀ n, n ≠ a.toNat → t.storageByte n = s.storageByte n

/-! ## Where a data access reaches storage -/

/-- A data write at a reaches storage in the current mode: program memory, or in P0 the vector table
(20_memory R64, R67, R73). -/
def State.storable (s : State) (a : Word) : Prop :=
  (progBase ≤ a.toNat ∧ a.toNat < mmioBase) ∨
    (s.mode = .p0 ∧ ivtBase ≤ a.toNat ∧ a.toNat < progBase)

/-- A data read at a reaches storage in the current mode: as a write, and in P0 the ROM too
(20_memory R64, R73, R74). -/
def State.loadable (s : State) (a : Word) : Prop :=
  s.storable a ∨ (s.mode = .p0 ∧ romBase ≤ a.toNat)

/-- SMC_POLICY lets the store happen (20_memory R87). -/
def State.smcAllows (s : State) (a : Word) (w : Width) : Prop :=
  s.cfg.smcRefuse = false ∨ s.reachesPrefetch a w = false

/-- A push of the current mode reaches storage: XSP - 4 is a multiple of 4, in writable storage, and
SMC_POLICY lets it happen (45_call_stack R222). -/
def State.pushable (s : State) : Prop :=
  (s.x xsp - 4#32).toNat % 4 = 0 ∧ s.storable (s.x xsp - 4#32) ∧
    s.smcAllows (s.x xsp - 4#32) .word

/-- A pop of the current mode reaches storage: XSP is a multiple of 4 in readable storage
(45_call_stack R222). -/
def State.poppable (s : State) : Prop := (s.x xsp).toNat % 4 = 0 ∧ s.loadable (s.x xsp)

/-! ## The data access of an instruction -/

/-- The one data access an instruction makes (20_memory R63, R69): its kind, address and width. None for an
instruction that accesses no data, and for the forms that stop before their access: LDB with a lane
offset that is not 0, 8, 16 or 24, SYSCALL with a handler slot that cannot be used, SYSRET in P1. -/
def State.dataAccess (s : State) : Instr → Option (AccessKind × Word × Width)
  | .ldb _ a f => if laneAligned (s.x f) then some (.load, s.byteAddress a, .byte) else none
  | .stb _ a _ => some (.store, s.byteAddress a, .byte)
  | .ld _ a f => some (.load, s.wordAddress a f, .word)
  | .st _ a f => some (.store, s.wordAddress a f, .word)
  | .callImm _ _ | .call _ _ | .push _ | .pushExt _ => some (.store, s.x xsp - 4#32, .word)
  | .ret | .pop _ | .popExt _ => some (.load, s.x xsp, .word)
  | .syscall _ =>
    if slotUsable s.cfg.syscallHandlerSlot then some (.store, s.x xsp - 4#32, .word) else none
  | .sysret => if s.mode = .p0 then some (.load, s.x xsp, .word) else none
  | .add _ _ | .sub _ _ | .mul _ _ | .div _ _ | .addFp | .subFp | .mulFp | .divFp => none
  | .and _ _ | .or _ _ | .xor _ _ | .not _ | .mov _ _ | .movImm _ _ | .movImmHigh _ _ => none
  | .movExt _ _ | .movGp _ _ | .movExt2 _ _ => none
  | .lsh _ _ | .lshImm _ _ | .rsh _ _ | .rshImm _ _ => none
  | .jmpImm _ _ | .jmpRel _ _ | .jmp _ | .jmpc _ _ _ _ _ | .jmpcZ _ _ _ _ => none
  | .hlt | .cpuid _ => none

/-- The opcodes of the 38 implemented instructions (30_encoding R110). -/
def implementedOpcodes : List Nat :=
  [0x01, 0x02, 0x03, 0x04, 0x10, 0x11, 0x12, 0x13, 0x14, 0x15, 0x16, 0x17, 0x18, 0x19,
   0x20, 0x21, 0x22, 0x23, 0x28, 0x29, 0x2A, 0x2B, 0x30, 0x31, 0x32, 0x33, 0x34,
   0x38, 0x39, 0x3A, 0x3B, 0x3C, 0x3D, 0x3E, 0x40, 0x41, 0x42, 0x43]

/-! ## Trap entry -/

/-- An address a kernel-mode fetch may use: a multiple of 4 in program memory or ROM (20_memory R71, R79). -/
def kernelFetchable (h : Word) : Prop :=
  h.toNat % 4 = 0 ∧ ((progBase ≤ h.toNat ∧ h.toNat < mmioBase) ∨ romBase ≤ h.toNat)

/-- The word below XSP is aligned storage that the kernel may write: the vector table or program memory. -/
def State.stackReady (s : State) : Prop :=
  (s.x xsp - 4#32).toNat % 4 = 0 ∧ ivtBase ≤ (s.x xsp - 4#32).toNat ∧
    (s.x xsp - 4#32).toNat < mmioBase

/-- Vector v enters its handler with the return address pushed to storage. -/
def State.entersCleanly (s : State) (v : Nat) : Prop :=
  s.stackReady ∧ kernelFetchable (s.handler v)

/-- t is s after the entry to the handler of vector v with the return address ret, EXC holding `exc`
(60_exceptions R280): XSP lowered by 4, the return address stored there, P0, not halted, pc at the
handler; one pending bit cleared if an interrupt was taken (R292); all else unchanged. -/
def State.entered (s : State) (v : Nat) (ret exc : Word) (cleared : Option IrqSource) (t : State) :
    Prop :=
  t.x xsp = s.x xsp - 4#32 ∧ storesWord (s.x xsp - 4#32) ret s t ∧ t.mode = .p0 ∧ t.halted = false ∧
    t.pc = s.handler v ∧ t.exc = exc ∧
    (∀ q, t.pending q = if cleared = some q then false else s.pending q) ∧
    t.runState = s.runState ∧ t.coreXclk = s.coreXclk ∧ t.coreIntr = s.coreIntr ∧
    sameX [xsp] s t ∧ sameE [] s t ∧ sameSystem s t ∧ t.draws = s.draws

/-! ## The invariant and safe runs -/

/-- The invariant of the machine: memory is canonical and lists storage only (10_state R52), core 0 is
powered on (R46), and a halted core is in P0 (46_system R245, R248). -/
def State.Inv (s : State) : Prop :=
  Memory.wf s.mem = true ∧ (s.coreAt 0).runState ≠ .off ∧
    ∀ c, (s.coreAt c).halted = true → (s.coreAt c).mode = .p0

/-- No core has triple-faulted: a TripleFault is a fault of the run and never a final state
(60_exceptions R287; log 24). -/
def State.noTripleFault (s : State) : Prop := ∀ c : CoreId, (s.coreAt c).runState ≠ .tripleFaulted

/-- A run of k steps that neither stops nor triple-faults a core. -/
def State.safeFor : Nat → State → Prop
  | 0, s => s.noTripleFault
  | k + 1, s =>
    s.noTripleFault ∧
      match step s with
      | .next t => t.safeFor k
      | .fault _ | .refused _ => False

end Sys2Proof.Machine
end

