-- ==== Sys2Proof/Certificates/Slice0/Obligations.lean ====
section
/-! DEFINITION. The statements for the provers. Each docstring names the rules of spec/ it rests on. A rule that
spec/ marks [decision: Dn] or [derived] is the spec's own choice or inference where its source is silent;
the docstring then ends with those marks, and log 1 says that the model follows them. What is the model's
own is said as such, with its log entry. -/

section

open Sys2Proof Sys2Proof.Machine

/-! ## Encoding (30_encoding) -/

/-- R103, R105, R109, R110: decoding the bytes of an encoded well-formed instruction gives it back,
with every operand at every value, and leaves the bytes that follow. (D18; log 1) -/
def Obligations.DecodeOfEncode : Prop :=
  ∀ (i : Instr) (rest : List Byte), i.wellFormed = true →
    decodeBytes (bytesOfWord (encode i) ++ rest) = .ok (i, rest)

/-- R103, R110, R113, R115: a word that decodes gives a well-formed instruction, whose own word is
that word with the unused bits cleared (the four placeholders of R148 have no fields). (D4, D5,
inference R115; log 1) -/
def Obligations.EncodeOfDecode : Prop :=
  ∀ (w : Word) (i : Instr), decodeWord w = .ok i →
    i.wellFormed = true ∧
      ((opcode w).toNat ∉ [5, 6, 7, 8] → encode i = w &&& ~~~unusedMask (opcode w))

/-- R111, R115, R148: a word whose opcode is not one of the 38 implemented ones raises
InvalidOpcodeFault; among them the values the source marks empty and those it does not list. That
this is so for the placeholders 0x05 to 0x08 with other bits set under UNUSED_BITS_POLICY = refuse
too is the model's choice between readings (log 22). (D5, D6, inference R115; log 1) -/
def Obligations.IllegalOpcodesRaiseInvalidOpcode : Prop :=
  (∀ (s : State) (w : Word), (opcode w).toNat ∉ implementedOpcodes →
      s.runWord w = s.takeException .invalidOpcodeFault none) ∧
    ∀ n : Nat, n < 256 →
      (n ∉ implementedOpcodes ↔
        n = 0 ∨ (5 ≤ n ∧ n ≤ 8) ∨ (9 ≤ n ∧ n ≤ 0xF) ∨ (0x1A ≤ n ∧ n ≤ 0x1F) ∨
          (0x24 ≤ n ∧ n ≤ 0x27) ∨ (0x2C ≤ n ∧ n ≤ 0x2F) ∨ (0x35 ≤ n ∧ n ≤ 0x37) ∨ n = 0x3F ∨
          0x44 ≤ n)

/-- R112: the further encodings that raise InvalidOpcodeFault: (a) the opcodes 0x05 to 0x08, (b)
JMPC with code 6 or 7, (c) SYSRET or HLT in P1; their unused bits as UNUSED_BITS_POLICY allows. That
the low bits of (a) count as no unused bits is the model's choice (log 22). (D5, D18, D26; log 1) -/
def Obligations.ReservedEncodingsRaiseInvalidOpcode : Prop :=
  ∀ (s : State) (w : Word), s.cfg.unusedBitsRefuse = false ∨ unusedBits w = 0#32 →
    (5 ≤ (opcode w).toNat ∧ (opcode w).toNat ≤ 8) ∨
      (opcode w = 0x33#8 ∧ ((code3 w).toNat = 6 ∨ (code3 w).toNat = 7)) ∨
      (s.mode = .p1 ∧ (opcode w = 0x41#8 ∨ opcode w = 0x42#8)) →
    s.runWord w = s.takeException .invalidOpcodeFault none

/-- R113: under the policy `ignore` the unused bits of a word make no difference; under `refuse` a
word whose unused bits are not all 0 is refused. That the low bits of 0x05 to 0x08 count as no unused
bits, and that the refusal comes before every fault of decoding, is the model's choice (log 22). (D4;
log 1) -/
def Obligations.UnusedBitsFollowThePolicy : Prop :=
  (∀ (s : State) (w v : Word), s.cfg.unusedBitsRefuse = false →
      w &&& ~~~unusedMask (opcode w) = v &&& ~~~unusedMask (opcode w) →
      s.runWord w = s.runWord v) ∧
    ∀ (s : State) (w : Word), s.cfg.unusedBitsRefuse = true → unusedBits w ≠ 0#32 →
      s.runWord w = .refused .unusedBitsSet

/-- Words of the examples of 40_arithmetic to 46_system and of the vectors of 95_test_vectors decode to
the instructions they stand for. -/
def Obligations.SpecExampleWordsDecode : Prop :=
  decodeWord 0x01120000#32 = .ok (.add 1 2) ∧
  decodeWord 0x16301234#32 = .ok (.movImmHigh 3 0x1234#16) ∧
  decodeWord 0x18150000#32 = .ok (.movGp 1 5) ∧
  decodeWord 0x20123000#32 = .ok (.ldb 1 2 3) ∧
  decodeWord 0x2B100010#32 = .ok (.rshImm 1 16#20) ∧
  decodeWord 0x33112AB0#32 = .ok (.jmpc 1#3 1 2 10 11) ∧
  decodeWord 0x3411AB00#32 = .ok (.jmpcZ 1#1 1 10 11) ∧
  decodeWord 0x38A00100#32 = .ok (.callImm 10 0x100#20) ∧
  decodeWord 0x41000000#32 = .ok .sysret

/-! ## Fetching and the step (20_memory, 00_scope R16) -/

/-- R61, R71, R72, R73, R79, FetchCheck of R76: a misaligned fetch, then a fetch outside program
memory and the ROM, then one in the ROM in P1, raises its fault; every other fetch reads the word at
pc, little endian, its opcode from the byte at pc + 3. (D1, D23, D27, D28, D30; log 1) -/
def Obligations.FetchChecksAndReads : Prop :=
  ∀ s : State,
    (s.pc.toNat % 4 ≠ 0 → s.fetchAndRun = s.takeException .instrFetchAlignmentFault none) ∧
    (s.pc.toNat % 4 = 0 →
      ¬((0x8000 ≤ s.pc.toNat ∧ s.pc.toNat ≤ 0xFFFF5FFF) ∨
          (0xFFFFE000 ≤ s.pc.toNat ∧ s.mode = .p0)) →
      s.fetchAndRun = s.takeException .instructionFetchFault none) ∧
    (s.pc.toNat % 4 = 0 →
      (0x8000 ≤ s.pc.toNat ∧ s.pc.toNat ≤ 0xFFFF5FFF) ∨ (0xFFFFE000 ≤ s.pc.toNat ∧ s.mode = .p0) →
      ∃ w : Word, s.fetchAndRun = s.runWord w ∧
        w.toNat = (s.storageByte s.pc.toNat).toNat + (s.storageByte (s.pc.toNat + 1)).toNat * 2 ^ 8 +
          (s.storageByte (s.pc.toNat + 2)).toNat * 2 ^ 16 +
          (s.storageByte (s.pc.toNat + 3)).toNat * 2 ^ 24 ∧
        opcode w = s.storageByte (s.pc.toNat + 3))

/-- R16: when the word at pc decodes to the instruction i and no interrupt is due, the step is exec
of i. Which core that is, is the model's choice: the one a tick of the script names, after the
tick's sources have fired (log 14), and, when nothing is scripted, the one core that has a step
(log 15). (D34; log 1) -/
def Obligations.StepRunsDecodedInstruction : Prop :=
  ∀ (s u : State) (c : CoreId) (fires : List IrqSource) (rest : List Tick) (i : Instr),
    (s.script = { core := c, fires := fires } :: rest ∧
        u = (({ s with script := rest }).fireAll fires).withTurn c) ∨
      (s.script = [] ∧ s.movers = [c] ∧ u = s.withTurn c) →
    u.runState = .running → u.halted = false → nextIrq u.cfg u.core = none →
    fetchCheck u.mode u.pc = none →
    u.cfg.unusedBitsRefuse = false ∨ unusedBits (u.storageWord u.pc.toNat) = 0#32 →
    decodeWord (u.storageWord u.pc.toNat) = .ok i →
    i.wellFormed = true ∧ step s = exec i u

/-- R265, R292, R293: of the pending and enabled sources the one with the lowest vector number is
taken before the instruction at pc starts; its pending bit alone is cleared and the handler entered
with pc as the return address. (D24; log 1) -/
def Obligations.LowestPendingInterruptIsTakenFirst : Prop :=
  ∀ (s : State) (q : IrqSource), s.pending q = true → irqEnabled s.cfg s.coreIntr q = true →
    (∀ p : IrqSource, p.index < q.index →
      s.pending p = false ∨ irqEnabled s.cfg s.coreIntr p = false) →
    s.coreStep = s.takeInterrupt q ∧
      (s.entersCleanly (10 + q.index.val) →
        ∃ t, s.coreStep = .next t ∧ s.entered (10 + q.index.val) s.pc s.exc (some q) t)

/-- R43, R291: the sources a core has enabled: under every CORE_INTR_LAYOUT, WDT_EXPIRED always, and
maskable source k (vector 11 + k) when CORE_INTR allows globally and does not disable k; under the
default layout that is when bit 0 of CORE_INTR is 1 and bit 1 + k is 0. (D25; log 1) -/
def Obligations.EnablingFollowsCoreIntr : Prop :=
  ∀ (cfg : Config) (v : Word) (q : IrqSource),
    irqEnabled cfg v .wdtExpired = true ∧
    (∀ k : Fin 9, q.index = k.succ →
      (irqEnabled cfg v q = true ↔
        evalBits v cfg.intrAllow = true ∧ evalBits v cfg.intrDisable[k] = false)) ∧
    (cfg.intrAllow = .bit 0 →
      cfg.intrDisable =
        #v[.bit 1, .bit 2, .bit 3, .bit 4, .bit 5, .bit 6, .bit 7, .bit 8, .bit 9] →
      (irqEnabled cfg v q = true ↔
        q = .wdtExpired ∨ (v.getLsbD 0 = true ∧ v.getLsbD q.index.val = false)))

/-- R292, R296: a source that fires becomes pending on the cores of its IRQ_TARGET, and nothing else
changes. (D24, D46; log 1) -/
def Obligations.FiringSetsPendingOnTargets : Prop :=
  ∀ (s : State) (q : IrqSource) (c : CoreId),
    (∀ p : IrqSource, ((s.fire q).coreAt c).pending[p.index] =
      ((s.coreAt c).pending[p.index] || (decide (p = q) && decide (c ∈ s.cfg.irqTarget[q.index])))) ∧
    (s.fire q).coreAt c = { s.coreAt c with pending := ((s.fire q).coreAt c).pending } ∧
    s.fire q = { s with cores := (s.fire q).cores }

/-- R16 items 1 and 3, R246, R287: a core that is Off, TripleFaulted, or halted with no pending
enabled interrupt has no step: the tick that names it changes nothing of the machine (log 16: the
tick itself is used up). A halted core with a pending enabled interrupt takes it. (D34, D35, D47;
log 1) -/
def Obligations.CoreWithoutStepDoesNothing : Prop :=
  ∀ (s : State) (c : CoreId) (rest : List Tick), s.script = { core := c, fires := [] } :: rest →
    ((s.coreAt c).runState ≠ .running ∨
        ((s.coreAt c).halted = true ∧
          ∀ q : IrqSource, (s.coreAt c).pending[q.index] = false ∨
            irqEnabled s.cfg (s.coreAt c).coreIntr q = false) →
      step s = .next { s with script := rest, turn := c }) ∧
    ∀ q : IrqSource, (s.coreAt c).runState = .running → nextIrq s.cfg (s.coreAt c) = some q →
      step s = ({ s with script := rest, turn := c } : State).takeInterrupt q

/-! ## Data accesses (20_memory) -/

/-- R64: the six regions, by their first and last addresses, and an aligned word never spans two. -/
def Obligations.AddressMapHasSixRegions : Prop :=
  ∀ a : Word,
    (region a = .nulltrap ↔ a.toNat ≤ 0x3EFF) ∧
    (region a = .creg ↔ 0x3F00 ≤ a.toNat ∧ a.toNat ≤ 0x7EFF) ∧
    (region a = .ivt ↔ 0x7F00 ≤ a.toNat ∧ a.toNat ≤ 0x7FFF) ∧
    (region a = .prog ↔ 0x8000 ≤ a.toNat ∧ a.toNat ≤ 0xFFFF5FFF) ∧
    (region a = .mmio ↔ 0xFFFF6000 ≤ a.toNat ∧ a.toNat ≤ 0xFFFFDFFF) ∧
    (region a = .rom ↔ 0xFFFFE000 ≤ a.toNat ∧ a.toNat ≤ 0xFFFFFFFF) ∧
    ∀ k : Nat, a.toNat % 4 = 0 → k < 4 → regionOf (a.toNat + k) = region a

/-- DataCheck of R76 with R70, R72, R73, R74, R75: the exception a data access raises, the
misaligned word first, and when it raises none. (D23, D27, D28, D29, D55, inference R70; log 1) -/
def Obligations.DataCheckRaisesInOrder : Prop :=
  ∀ (s : State) (m : Mode) (k : AccessKind) (a : Word) (w : Width),
    (w = .word ∧ a.toNat % 4 ≠ 0 → s.dataCheck m k a w = some .loadStoreAlignmentFault) ∧
    (¬(w = .word ∧ a.toNat % 4 ≠ 0) →
      let denied : Prop :=
        a.toNat ≤ 0x3EFF ∨ (m = .p1 ∧ ¬(0x8000 ≤ a.toNat ∧ a.toNat ≤ 0xFFFF5FFF)) ∨
          (k = .store ∧ 0xFFFFE000 ≤ a.toNat) ∨
          (s.turn ≠ 0 ∧ 0x3F00 ≤ a.toNat ∧ a.toNat ≤ 0x7EFF ∧
            ∃ b, b ∈ bytesCovered a w ∧
              ((0x3F40 ≤ b ∧ b ≤ 0x3F4B) ∨ cregByteOf s.cfg b = some .coreFlags))
      (denied → s.dataCheck m k a w =
        some (match k with | .load => .loadFault | .store => .storeFault)) ∧
      (¬denied → s.dataCheck m k a w = none))

/-- R76, R283, R284: a data access that fails its check raises that exception with the address of
the access, and the trap is taken from the state the instruction started in. (D23, D40, D44; log 1)
-/
def Obligations.FailedDataAccessTakesItsException : Prop :=
  ∀ (s : State) (i : Instr) (k : AccessKind) (a : Word) (w : Width),
    s.dataAccess i = some (k, a, w) →
    ∀ e, s.dataCheck s.mode k a w = some e → exec i s = s.takeException e (some a)

/-- R77, R44, R49, R50, R87: the data accesses the model refuses after their check: any to MMIO (log
11), a write that covers a reserved or unlisted control-register byte (log 12), and under SMC_POLICY
= refuse a store that reaches pc + 4 to pc + 15 (log 21). (D33, D45, D56; log 1) -/
def Obligations.AccessesTheSpecRefuses : Prop :=
  ∀ (s : State) (i : Instr) (k : AccessKind) (a : Word) (w : Width),
    s.dataAccess i = some (k, a, w) → s.dataCheck s.mode k a w = none →
    ((k = .store → s.smcAllows a w) → region a = .mmio → exec i s = .refused .mmioAccess) ∧
    (k = .store → s.smcAllows a w → s.coversUnspecified a w = true →
      exec i s = .refused .reservedControlByte) ∧
    ∀ j, k = .store → s.cfg.smcRefuse = true → 4 ≤ j → j ≤ 15 →
      (s.pc + BitVec.ofNat 32 j).toNat ∈ bytesCovered a w →
      exec i s = .refused .selfModifyingStore

/-- R60, R62: a word write that reaches storage is read back byte by byte and as a word, little
endian, and leaves every other byte of memory and everything but memory as it was. (inference R62;
log 1) -/
def Obligations.StoredWordReadsBack : Prop :=
  ∀ (s : State) (m : Mode) (a v : Word),
    a.toNat % 4 = 0 → (0x8000 ≤ a.toNat ∧ a.toNat ≤ 0xFFFF5FFF) ∨
      (m = .p0 ∧ 0x7F00 ≤ a.toNat ∧ a.toNat ≤ 0x7FFF) →
    s.smcAllows a .word →
    ∃ t, s.memWrite m a v .word = .ok t ∧
      (∀ k, k < 4 → t.memRead m (a + BitVec.ofNat 32 k) .byte =
        .ok ((wordByte v k).setWidth 32, t)) ∧
      t.memRead m a .word = .ok (v, t) ∧
      (∀ n, n < a.toNat ∨ a.toNat + 4 ≤ n → t.storageByte n = s.storageByte n) ∧
      t = { s with mem := t.mem }

/-- R41 to R46, R49, R50: what the bytes of the control-register range read as, for the core whose
turn it is, CORE_FLAGS at its default place, by its layout and under the default one; a word read takes its four bytes little
endian; and a read that passes its check completes and has no effect, but for the count of free
values drawn when it covers an unspecified byte (log 8). That the bit of a TripleFaulted core reads
1 is the model's choice (log 18). (D25, D39, D45, D55; log 1) -/
def Obligations.ControlRegisterReads : Prop :=
  ∀ s : State, s.cfg.coreFlagsOffset = 0x4C →
    s.dataByte 0x3F00 = s.sysDclk ∧ s.dataByte 0x3F01 = s.coreXclk ∧
    (∀ k, k < 4 → s.dataByte (0x3F02 + k) = s.coreIntr.extractLsb' (8 * k) 8) ∧
    (∀ (n : Fin 3) (k : Nat), k < 4 →
      s.dataByte (0x3F40 + 4 * n.val + k) = s.bootAddr[n].extractLsb' (8 * k) 8) ∧
    (∀ k : Fin 8, (s.dataByte 0x3F4C).getLsbD k.val =
      evalBits s.poweredCores s.cfg.coreFlagsRead[k]) ∧
    (∀ c : CoreId, s.poweredCores.getLsbD c.val = true ↔ (s.coreAt c).runState ≠ .off) ∧
    (s.cfg.coreFlagsRead = #v[.const true, .bit 1, .bit 2, .bit 3,
        .const false, .const false, .const false, .const false] →
      (∀ c : CoreId, (s.dataByte 0x3F4C).getLsbD c.val = true ↔
        c = 0 ∨ (s.coreAt c).runState ≠ .off) ∧
      ∀ n, 4 ≤ n → (s.dataByte 0x3F4C).getLsbD n = false) ∧
    (∀ n, (0x3F06 ≤ n ∧ n ≤ 0x3F3F) ∨ (0x3F4D ≤ n ∧ n ≤ 0x7EFF) →
      s.dataByte n = Config.drawByte s.draws n) ∧
    (∀ a : Word, (s.dataValue a .byte).toNat = (s.dataByte a.toNat).toNat ∧
      (s.dataValue a .word).toNat =
        (s.dataByte a.toNat).toNat + (s.dataByte (a.toNat + 1)).toNat * 2 ^ 8 +
          (s.dataByte (a.toNat + 2)).toNat * 2 ^ 16 + (s.dataByte (a.toNat + 3)).toNat * 2 ^ 24) ∧
    ∀ (m : Mode) (a : Word) (w : Width), s.dataCheck m .load a w = none → region a = .creg →
      ∃ t, s.memRead m a w = .ok (s.dataValue a w, t) ∧
        (t = s ∨ (s.coversUnspecified a w = true ∧ t = { s with draws := s.draws + 1 }))

/-- R41, R42, R43, R45, R50, R51, R333: a word write of core 0 in P0 to CPUn_BOOT_ADDR, by whichever
instruction, sets that register and nothing else; a word write in P0 at 0x3F00 sets SYS_DCLK,
CORE_XCLK and the low half of CORE_INTR at once; and STB in P0 to a byte of SYS_DCLK, CORE_XCLK,
CORE_INTR or, on core 0, of CPUn_BOOT_ADDR replaces that byte and nothing else but PC. CORE_XCLK and
CORE_INTR are the executing core's own. (D25, D45, D54, D55; log 1) -/
def Obligations.ControlRegisterWrites : Prop :=
  (∀ (s : State) (n : Fin 3) (v a : Word), s.turn = 0 →
    a = BitVec.ofNat 32 (0x3F40 + 4 * n.val) → s.smcAllows a .word →
    s.memWrite .p0 a v .word = .ok (s.setBootAddr n v)) ∧
  (∀ (s : State) (v : Word), s.smcAllows 0x3F00#32 .word →
    ∃ u : Word, s.memWrite .p0 0x3F00#32 v .word =
        .ok (((s.setSysDclk (wordByte v 0)).setCoreXclk (wordByte v 1)).setCoreIntr u) ∧
      ∀ n, n < 32 → u.getLsbD n = if n < 16 then v.getLsbD (n + 16) else s.coreIntr.getLsbD n) ∧
  ∀ (s : State) (r a f : XReg), s.mode = .p0 → s.smcAllows (s.byteAddress a) .byte →
    let v : Byte := (rshValue s.cfg (s.x r) (s.x f).toNat).setWidth 8
    (s.byteAddress a = 0x3F00#32 → exec (.stb r a f) s = .next (s.setSysDclk v).advance) ∧
    (s.byteAddress a = 0x3F01#32 → exec (.stb r a f) s = .next (s.setCoreXclk v).advance) ∧
    (∀ k, k < 4 → s.byteAddress a = BitVec.ofNat 32 (0x3F02 + k) →
      ∃ u : Word, exec (.stb r a f) s = .next (s.setCoreIntr u).advance ∧
        ∀ j, j < 4 → wordByte u j = if j = k then v else wordByte s.coreIntr j) ∧
    ∀ (n : Fin 3) (k : Nat), s.turn = 0 → k < 4 →
      s.byteAddress a = BitVec.ofNat 32 (0x3F40 + 4 * n.val + k) →
      ∃ u : Word, exec (.stb r a f) s = .next (s.setBootAddr n u).advance ∧
        ∀ j, j < 4 → wordByte u j = if j = k then v else wordByte s.bootAddr[n] j

/-- R46, R316: core 0 writes CORE_FLAGS (default place) by STB a byte that asks, as the layout reads it,
under the default one in bit n, that core n be on or off: an Off core n asked on starts Running at its
boot address in P0 with zero registers, EXC 0, not halted, nothing pending and CORE_INTR 0; a Running
core n asked off becomes Off, at once (log 29), a halted one too, which is the model's choice (log 33); a
core whose power does not change, and everything else, stays as it was. A TripleFaulted core counts as powered on, so
asking it on changes nothing, which is the model's choice (log 18); of such a core asked off nothing is
said here. (D39, D48; log 1) -/
def Obligations.CoreFlagsPowersCoresOn : Prop :=
  ∀ (s : State) (r a f : XReg), s.mode = .p0 → s.turn = 0 → s.cfg.coreFlagsOffset = 0x4C →
    s.byteAddress a = 0x3F4C#32 → s.smcAllows (s.byteAddress a) .byte →
    let v : Byte := (rshValue s.cfg (s.x r) (s.x f).toNat).setWidth 8
    ∃ t, exec (.stb r a f) s = .next t ∧
      ∀ n : Fin 3,
        let on : Bool := evalBits v s.cfg.coreFlagsPower[n]
        (s.cfg.coreFlagsPower = #v[.bit 1, .bit 2, .bit 3] → on = v.getLsbD (n.val + 1)) ∧
        (on = true → (s.coreAt n.succ).runState = .off →
          (∀ j, (t.coreAt n.succ).x[(j : XReg)] = 0#32) ∧
          (∀ j, (t.coreAt n.succ).e[(j : EReg)] = 0#32) ∧
          (t.coreAt n.succ).pc = s.bootAddr[n] ∧ (t.coreAt n.succ).exc = 0#32 ∧
          (t.coreAt n.succ).mode = .p0 ∧ (t.coreAt n.succ).halted = false ∧
          (∀ q : IrqSource, (t.coreAt n.succ).pending[q.index] = false) ∧
          (t.coreAt n.succ).runState = .running ∧ (t.coreAt n.succ).coreIntr = 0#32) ∧
        (on = false → (s.coreAt n.succ).runState = .running → (t.coreAt n.succ).runState = .off) ∧
        (on = true ∧ (s.coreAt n.succ).runState ≠ .off ∨
            on = false ∧ (s.coreAt n.succ).runState = .off →
          t.coreAt n.succ = s.coreAt n.succ) ∧
        t.core = { s.core with pc := s.pc + 4#32 } ∧ t.mem = s.mem ∧ t.sysDclk = s.sysDclk ∧
        t.bootAddr = s.bootAddr ∧ t.cfg = s.cfg ∧ t.turn = s.turn ∧ t.script = s.script

/-! ## Arithmetic, logic and moves (40_arithmetic, 41_logic_move) -/

/-- R141, R142, R143, R145, R147: ADD, SUB and MUL give the sum, the difference and the product
modulo 2^32 in the first register, which is also the first source; they always complete and change
nothing else but PC. (D7, inference R147; log 1) -/
def Obligations.AddSubMulResult : Prop :=
  ∀ (a b : XReg) (s : State),
    (∃ t, exec (.add a b) s = .next t ∧
      (t.x a).toNat = ((s.x a).toNat + (s.x b).toNat) % 2 ^ 32 ∧ t.pc = s.pc + 4#32 ∧
      changesOnly [a] [] s t) ∧
    (∃ t, exec (.sub a b) s = .next t ∧
      ((t.x a).toNat : Int) = ((s.x a).toNat - (s.x b).toNat : Int) % 2 ^ 32 ∧
      t.pc = s.pc + 4#32 ∧ changesOnly [a] [] s t) ∧
    ∃ t, exec (.mul a b) s = .next t ∧
      (t.x a).toNat = (s.x a).toNat * (s.x b).toNat % 2 ^ 32 ∧ t.pc = s.pc + 4#32 ∧
      changesOnly [a] [] s t

/-- R144, R146, R281: DIV by a divisor that is not 0 completes with the unsigned quotient, or under
DIV_SIGNED with the signed quotient rounded toward zero and reduced modulo 2^32; by 0 it raises
ZeroDivisionFault, the address of the DIV being the return address. (D8, D21; log 1) -/
def Obligations.DivDividesOrTraps : Prop :=
  ∀ (a b : XReg) (s : State),
  (s.x b = 0#32 →
    exec (.div a b) s = s.takeException .zeroDivisionFault none ∧
      (s.entersCleanly 8 → ∃ t, exec (.div a b) s = .next t ∧ s.entered 8 s.pc s.exc none t)) ∧
  (s.x b ≠ 0#32 →
    ∃ t, exec (.div a b) s = .next t ∧ t.pc = s.pc + 4#32 ∧ changesOnly [a] [] s t ∧
      (s.cfg.divSigned = false →
        (s.x b).toNat * (t.x a).toNat ≤ (s.x a).toNat ∧
          (s.x a).toNat < (s.x b).toNat * ((t.x a).toNat + 1)) ∧
      (s.cfg.divSigned = true →
        t.x a = (s.x a).sdiv (s.x b) ∧
          (s.x a = 0x80000000#32 → s.x b = 0xFFFFFFFF#32 → t.x a = 0x80000000#32)))

/-- R148, R112: each of the four floating-point placeholders raises InvalidOpcodeFault, with the
address of the word as the return address. (D5, D18, D26; log 1) -/
def Obligations.PlaceholdersRaiseInvalidOpcode : Prop :=
  ∀ (i : Instr) (s : State), i = .addFp ∨ i = .subFp ∨ i = .mulFp ∨ i = .divFp →
    exec i s = s.takeException .invalidOpcodeFault none ∧
      (s.entersCleanly 5 → ∃ t, exec i s = .next t ∧ s.entered 5 s.pc s.exc none t)

/-- R161, R162, R163, R164: AND, OR, XOR and NOT act on every bit of the register, complete always and change
nothing else but PC. -/
def Obligations.LogicResult : Prop :=
  ∀ (a b : XReg) (s : State),
    (∃ t, exec (.and a b) s = .next t ∧ t.pc = s.pc + 4#32 ∧ changesOnly [a] [] s t ∧
      ∀ n, n < 32 → (t.x a).getLsbD n = ((s.x a).getLsbD n && (s.x b).getLsbD n)) ∧
    (∃ t, exec (.or a b) s = .next t ∧ t.pc = s.pc + 4#32 ∧ changesOnly [a] [] s t ∧
      ∀ n, n < 32 → (t.x a).getLsbD n = ((s.x a).getLsbD n || (s.x b).getLsbD n)) ∧
    (∃ t, exec (.xor a b) s = .next t ∧ t.pc = s.pc + 4#32 ∧ changesOnly [a] [] s t ∧
      ∀ n, n < 32 → (t.x a).getLsbD n = ((s.x a).getLsbD n ^^ (s.x b).getLsbD n)) ∧
    (∃ t, exec (.not a) s = .next t ∧ t.pc = s.pc + 4#32 ∧ changesOnly [a] [] s t ∧
      ∀ n, n < 32 → (t.x a).getLsbD n = !(s.x a).getLsbD n) ∧
    (encode (.and a b)).toNat = 0x10000000 + a.val * 2 ^ 20 + b.val * 2 ^ 16 ∧
    (encode (.or a b)).toNat = 0x11000000 + a.val * 2 ^ 20 + b.val * 2 ^ 16 ∧
    (encode (.xor a b)).toNat = 0x12000000 + a.val * 2 ^ 20 + b.val * 2 ^ 16 ∧
    (encode (.not a)).toNat = 0x13000000 + a.val * 2 ^ 20

/-- R165, R170, R172, R174, R175, R176: MOV, MOV_EXT, MOV_GP and MOV_EXT2 copy one register, MOV_IMM
writes the zero-extended immediate, MOV_IMM_HIGH replaces bits 31:16 and keeps bits 15:0; all
complete always and change nothing else but PC. (D3, D12; log 1) -/
def Obligations.MoveResult : Prop :=
  ∀ (d r : XReg) (k l : EReg) (i : BitVec 20) (j : BitVec 16) (s : State),
    (∃ t, exec (.mov d r) s = .next t ∧ t.x d = s.x r ∧ t.pc = s.pc + 4#32 ∧
      changesOnly [d] [] s t) ∧
    (∃ t, exec (.movExt k r) s = .next t ∧ t.e k = s.x r ∧ t.pc = s.pc + 4#32 ∧
      changesOnly [] [k] s t) ∧
    (∃ t, exec (.movGp d l) s = .next t ∧ t.x d = s.e l ∧ t.pc = s.pc + 4#32 ∧
      changesOnly [d] [] s t) ∧
    (∃ t, exec (.movExt2 k l) s = .next t ∧ t.e k = s.e l ∧ t.pc = s.pc + 4#32 ∧
      changesOnly [] [k] s t) ∧
    (∃ t, exec (.movImm d i) s = .next t ∧ (t.x d).toNat = i.toNat ∧ t.pc = s.pc + 4#32 ∧
      changesOnly [d] [] s t) ∧
    ∃ t, exec (.movImmHigh d j) s = .next t ∧
      (t.x d).toNat = j.toNat * 2 ^ 16 + (s.x d).toNat % 2 ^ 16 ∧ t.pc = s.pc + 4#32 ∧
      changesOnly [d] [] s t

/-- R171: MOV_IMM with the low half (bits 19:16 of its immediate may be anything) and then
MOV_IMM_HIGH with the high half leave any constant C in the register; in the other order the
register ends as the immediate of MOV_IMM. (inference R171; log 1) -/
def Obligations.TwoMovesBuildAConstant : Prop :=
  ∀ (d : XReg) (c : Word) (i : BitVec 20) (s : State), i.setWidth 16 = c.setWidth 16 →
    (∃ t u, exec (.movImm d i) s = .next t ∧
      exec (.movImmHigh d (c.extractLsb' 16 16)) t = .next u ∧ u.x d = c ∧
      u.pc = s.pc + 8#32 ∧ changesOnly [d] [] s u) ∧
    ∃ t u, exec (.movImmHigh d (c.extractLsb' 16 16)) s = .next t ∧
      exec (.movImm d i) t = .next u ∧ u.x d = i.setWidth 32

/-! ## Loads and stores (42_load_store) -/

/-- R181, R60: LDB with a lane offset of 0, 8, 16 or 24 reads the byte at the base register and puts
it into that lane of the destination, keeping the other 24 bits; with any other offset it is
refused. (D13, D14, D15; log 1) -/
def Obligations.LdbMergesOneByteLane : Prop :=
  ∀ (d a f : XReg) (s : State),
    ((s.x f).toNat ∈ [0, 8, 16, 24] → s.loadable (s.byteAddress a) →
      ∃ t, exec (.ldb d a f) s = .next t ∧ t.pc = s.pc + 4#32 ∧ changesOnly [d] [] s t ∧
        ∀ n, n < 32 → (t.x d).getLsbD n =
          if (s.x f).toNat ≤ n ∧ n < (s.x f).toNat + 8 then
            (s.storageByte (s.x a).toNat).getLsbD (n - (s.x f).toNat)
          else (s.x d).getLsbD n) ∧
    ((s.x f).toNat ∉ [0, 8, 16, 24] → exec (.ldb d a f) s = .refused .ldbLaneOffset)

/-- R182, R195: STB stores the low byte of the source shifted right by the offset register at the
address in the base register; no register but PC changes. (D10, D11, D13; log 1) -/
def Obligations.StbStoresOneByte : Prop :=
  ∀ (r a f : XReg) (s : State), s.storable (s.byteAddress a) →
    s.smcAllows (s.byteAddress a) .byte →
    ∃ t, exec (.stb r a f) s = .next t ∧ t.pc = s.pc + 4#32 ∧ changesRegisters [] [] s t ∧
      storesByte (s.byteAddress a) ((rshValue s.cfg (s.x r) (s.x f).toNat).setWidth 8) s t ∧
      ((s.x f).toNat ≤ 24 →
        ∀ n, n < 8 → (t.storageByte (s.x a).toNat).getLsbD n =
          (s.x r).getLsbD (n + (s.x f).toNat))

/-- R183, R60: LD from an aligned storage address gives the four bytes there, little endian, and
changes nothing else but PC; the address is base plus offset modulo 2^32. (D13; log 1) -/
def Obligations.LdLoadsAWord : Prop :=
  ∀ (d a f : XReg) (s : State), (s.wordAddress a f).toNat % 4 = 0 →
    s.loadable (s.wordAddress a f) →
    ∃ t, exec (.ld d a f) s = .next t ∧ t.pc = s.pc + 4#32 ∧ changesOnly [d] [] s t ∧
      ∃ n, n = ((s.x a).toNat + (s.x f).toNat) % 2 ^ 32 ∧
        (t.x d).toNat = (s.storageByte n).toNat + (s.storageByte (n + 1)).toNat * 2 ^ 8 +
          (s.storageByte (n + 2)).toNat * 2 ^ 16 + (s.storageByte (n + 3)).toNat * 2 ^ 24

/-- R184, R60: ST to an aligned storage address stores the source word there, little endian, and
changes no register but PC and no other byte of memory. (D13; log 1) -/
def Obligations.StStoresAWord : Prop :=
  ∀ (r a f : XReg) (s : State), (s.wordAddress a f).toNat % 4 = 0 →
    s.storable (s.wordAddress a f) → s.smcAllows (s.wordAddress a f) .word →
    ∃ t, exec (.st r a f) s = .next t ∧ t.pc = s.pc + 4#32 ∧ changesRegisters [] [] s t ∧
      storesWord (s.wordAddress a f) (s.x r) s t

/-- R181, R183, R225, R227, R229, R243, R50: every loading instruction in every form, the control
registers among them: from what its read gives, what it leaves. (D13, D14, D15, D16, D26, D43, D45,
D57; log 1) -/
def Obligations.LoadingFormsFollowTheirRead : Prop :=
  ∀ (s u : State) (v : Word) (d a f : XReg) (k : EReg),
    (laneAligned (s.x f) = true → s.memRead s.mode (s.byteAddress a) .byte = .ok (v, u) →
      exec (.ldb d a f) s =
        .next ((u.setX d (insertByte (s.x d) (s.x f).toNat (v.setWidth 8))).setPc (s.pc + 4#32))) ∧
    (s.memRead s.mode (s.wordAddress a f) .word = .ok (v, u) →
      exec (.ld d a f) s = .next ((u.setX d v).setPc (s.pc + 4#32))) ∧
    (s.memRead s.mode (s.x xsp) .word = .ok (v, u) →
      exec (.pop d) s = .next (((u.setX xsp (s.x xsp + 4#32)).setX d v).setPc (s.pc + 4#32)) ∧
      exec (.popExt k) s = .next (((u.setX xsp (s.x xsp + 4#32)).setE k v).setPc (s.pc + 4#32)) ∧
      exec .ret s = .next ((u.setX xsp (s.x xsp + 4#32)).setPc v) ∧
      (s.mode = .p0 → exec .sysret s = .next (((u.setX xsp (s.x xsp + 4#32)).setMode .p1).setPc v)))

/-- R182, R184, R223, R224, R226, R228, R241, R50: every storing instruction in every form, the
control registers among them: from what its write leaves, what it leaves. (D13, D16, D17, D37, D43,
D45, D50, D57; log 1) -/
def Obligations.StoringFormsFollowTheirWrite : Prop :=
  ∀ (s u : State) (r a f : XReg) (k : EReg) (i : BitVec 20),
    (s.memWrite s.mode (s.byteAddress a) (rshValue s.cfg (s.x r) (s.x f).toNat) .byte = .ok u →
      exec (.stb r a f) s = .next (u.setPc (s.pc + 4#32))) ∧
    (s.memWrite s.mode (s.wordAddress a f) (s.x r) .word = .ok u →
      exec (.st r a f) s = .next (u.setPc (s.pc + 4#32))) ∧
    (s.memWrite s.mode (s.x xsp - 4#32) (s.x r) .word = .ok u →
      exec (.push r) s = .next ((u.setX xsp (s.x xsp - 4#32)).setPc (s.pc + 4#32))) ∧
    (s.memWrite s.mode (s.x xsp - 4#32) (s.e k) .word = .ok u →
      exec (.pushExt k) s = .next ((u.setX xsp (s.x xsp - 4#32)).setPc (s.pc + 4#32))) ∧
    (s.memWrite s.mode (s.x xsp - 4#32) (s.pc + 4#32) .word = .ok u →
      exec (.callImm a i) s = .next ((u.setX xsp (s.x xsp - 4#32)).setPc (s.x a + i.setWidth 32)) ∧
      exec (.call a f) s = .next ((u.setX xsp (s.x xsp - 4#32)).setPc (s.x a + s.x f)) ∧
      (slotUsable s.cfg.syscallHandlerSlot = true →
        exec (.syscall r) s =
          .next (((u.setX xsp (s.x xsp - 4#32)).setMode .p0).setPc
            (s.storageWord s.cfg.syscallHandlerSlot.toNat))))

/-! ## Shifts (43_shift) -/

/-- R195: the two shift functions under every setting of SHIFT_AMOUNT_MOD32 and RSH_ARITH. (D10,
D11; log 1) -/
def Obligations.ShiftFunctions : Prop :=
  ∀ (cfg : Config) (v : Word) (n k : Nat),
    k = (if cfg.shiftAmountMod32 = true then n % 32 else n) →
    (lshValue cfg v n).toNat = (if 32 ≤ k then 0 else v.toNat * 2 ^ k % 2 ^ 32) ∧
    (cfg.rshArith = false →
      (rshValue cfg v n).toNat = if 32 ≤ k then 0 else v.toNat / 2 ^ k) ∧
    (cfg.rshArith = true →
      (rshValue cfg v n).toInt = v.toInt / 2 ^ (if 32 ≤ k then 31 else k) ∧
        ∀ j, j < 32 → (rshValue cfg v n).getLsbD j =
          if j + k < 32 then v.getLsbD (j + k) else v.getLsbD 31)

/-- R191, R192, R193, R194: the four shifts replace their operand register by the value of R195, the
amount the full shift register or the zero-extended immediate; they always complete and change
nothing else but PC. (D10, D11; log 1) -/
def Obligations.ShiftResult : Prop :=
  ∀ (p h : XReg) (i : BitVec 20) (s : State),
    (∃ t, exec (.lsh p h) s = .next t ∧ t.x p = lshValue s.cfg (s.x p) (s.x h).toNat ∧
      t.pc = s.pc + 4#32 ∧ changesOnly [p] [] s t) ∧
    (∃ t, exec (.lshImm p i) s = .next t ∧ t.x p = lshValue s.cfg (s.x p) i.toNat ∧
      t.pc = s.pc + 4#32 ∧ changesOnly [p] [] s t) ∧
    (∃ t, exec (.rsh p h) s = .next t ∧ t.x p = rshValue s.cfg (s.x p) (s.x h).toNat ∧
      t.pc = s.pc + 4#32 ∧ changesOnly [p] [] s t) ∧
    ∃ t, exec (.rshImm p i) s = .next t ∧ t.x p = rshValue s.cfg (s.x p) i.toNat ∧
      t.pc = s.pc + 4#32 ∧ changesOnly [p] [] s t

/-- R196: NOP is LSH_IMM X0 0, the word 0x29000000, in memory 00 00 00 29; it changes nothing but PC, under
every setting, and the word of all zeros is not a NOP but no instruction at all. -/
def Obligations.NopChangesOnlyPc : Prop :=
  decodeWord 0x29000000#32 = .ok (.lshImm 0 0#20) ∧
    decodeBytes [0x00#8, 0x00#8, 0x00#8, 0x29#8] = .ok (.lshImm 0 0#20, []) ∧
    (∀ s : State, exec (.lshImm 0 0#20) s = .next (s.setPc (s.pc + 4#32))) ∧
    decodeWord 0#32 = .error (.unassignedOpcode 0#8)

/-! ## Jumps (44_jump) -/

/-- R200, R201, R202, R203: JMP_IMM, JMP_REL and JMP write their target to PC, whatever it is, and
nothing else. (D34, D41; log 1) -/
def Obligations.JumpsWriteOnlyPc : Prop :=
  ∀ (a f : XReg) (i : BitVec 20) (s : State),
    (∃ t, exec (.jmpImm a i) s = .next t ∧
      t.pc.toNat = ((s.x a).toNat + i.toNat) % 2 ^ 32 ∧ changesOnly [] [] s t) ∧
    (∃ t, exec (.jmpRel a f) s = .next t ∧
      t.pc.toNat = ((s.x a).toNat + (s.x f).toNat) % 2 ^ 32 ∧ changesOnly [] [] s t) ∧
    ∃ t, exec (.jmp a) s = .next t ∧ t.pc = s.x a ∧ changesOnly [] [] s t

/-- R205: the six conditions, unsigned, or under CMP_SIGNED the four ordered ones signed. (D9; log
1) -/
def Obligations.ConditionsCompareOperands : Prop :=
  ∀ (cfg : Config) (a b : Word) (u v : Int),
    (cfg.cmpSigned = false → u = a.toNat ∧ v = b.toNat) →
    (cfg.cmpSigned = true → u = a.toInt ∧ v = b.toInt) →
    (condHolds cfg .eq a b = true ↔ a.toNat = b.toNat) ∧
    (condHolds cfg .ne a b = true ↔ a.toNat ≠ b.toNat) ∧
    (condHolds cfg .lt a b = true ↔ u < v) ∧ (condHolds cfg .ge a b = true ↔ u ≥ v) ∧
    (condHolds cfg .gt a b = true ↔ u > v) ∧ (condHolds cfg .le a b = true ↔ u ≤ v)

/-- R206, R109, R112: JMPC with a code below 6 goes to base plus offset when the condition the code
names holds and to the next instruction when it does not; the codes 6 and 7 raise
InvalidOpcodeFault; under the default CC_MAP the codes name EQ, LT, GT, LE, GE, NE in this order.
(D5, D9, D18, D19, D26; log 1) -/
def Obligations.JmpcResult : Prop :=
  ∀ (c : BitVec 3) (p1 p2 a f : XReg) (s : State),
    (∀ h : c.toNat < 6, ∃ t, exec (.jmpc c p1 p2 a f) s = .next t ∧ changesOnly [] [] s t ∧
      t.pc = if condHolds s.cfg s.cfg.ccMap[c.toNat] (s.x p1) (s.x p2) = true
        then s.x a + s.x f else s.pc + 4#32) ∧
    (6 ≤ c.toNat → exec (.jmpc c p1 p2 a f) s = s.takeException .invalidOpcodeFault none) ∧
    Config.default.ccMap.toList = [.eq, .lt, .gt, .le, .ge, .ne]

/-- R208, R109: JMPC_Z goes to base plus offset when its operand is not 0 (NZ, code 0 by default) or
is 0 (ZR, code 1 by default), else to the next instruction. (D18, D19; log 1) -/
def Obligations.JmpcZResult : Prop :=
  ∀ (c : BitVec 1) (p a f : XReg) (s : State),
    (∃ t, exec (.jmpcZ c p a f) s = .next t ∧ changesOnly [] [] s t ∧
      t.pc = if (s.cfg.ccZMap[c.toFin] = .nz ↔ s.x p ≠ 0#32)
        then s.x a + s.x f else s.pc + 4#32) ∧
    Config.default.ccZMap.toList = [.nz, .zr]

/-! ## Calls and the stack (45_call_stack) -/

/-- R223, R224, R220: CALL_IMM and CALL push the address of the next instruction and go to the
target, which is computed from the registers before XSP is lowered. (D16, D17; log 1) -/
def Obligations.CallResult : Prop :=
  ∀ (a f : XReg) (i : BitVec 20) (s : State), s.pushable →
    (∃ t, exec (.callImm a i) s = .next t ∧
      t.pc.toNat = ((s.x a).toNat + i.toNat) % 2 ^ 32 ∧ t.x xsp = s.x xsp - 4#32 ∧
      storesWord (s.x xsp - 4#32) (s.pc + 4#32) s t ∧ changesRegisters [xsp] [] s t) ∧
    ∃ t, exec (.call a f) s = .next t ∧
      t.pc.toNat = ((s.x a).toNat + (s.x f).toNat) % 2 ^ 32 ∧ t.x xsp = s.x xsp - 4#32 ∧
      storesWord (s.x xsp - 4#32) (s.pc + 4#32) s t ∧ changesRegisters [xsp] [] s t

/-- R226, R228, R230: PUSH and PUSH_EXT lower XSP by 4 and store the source there; PUSH X15 stores
the XSP it started with. (D16, D43; log 1) -/
def Obligations.PushResult : Prop :=
  ∀ (r : XReg) (k : EReg) (s : State), s.pushable →
    (∃ t, exec (.push r) s = .next t ∧ t.pc = s.pc + 4#32 ∧ t.x xsp = s.x xsp - 4#32 ∧
      storesWord (s.x xsp - 4#32) (s.x r) s t ∧ changesRegisters [xsp] [] s t) ∧
    ∃ t, exec (.pushExt k) s = .next t ∧ t.pc = s.pc + 4#32 ∧ t.x xsp = s.x xsp - 4#32 ∧
      storesWord (s.x xsp - 4#32) (s.e k) s t ∧ changesRegisters [xsp] [] s t

/-- R225, R227, R229, R230: POP, POP_EXT and RET load the word at XSP and raise XSP by 4; POP X15
leaves the loaded word in XSP; RET writes it to PC and keeps the mode. (D16, D43; log 1) -/
def Obligations.PopAndRetResult : Prop :=
  ∀ (d : XReg) (k : EReg) (s : State), s.poppable →
    (∃ t, exec .ret s = .next t ∧ t.pc = s.storageWord (s.x xsp).toNat ∧
      t.x xsp = s.x xsp + 4#32 ∧ changesOnly [xsp] [] s t) ∧
    (∃ t, exec (.pop d) s = .next t ∧ t.pc = s.pc + 4#32 ∧
      t.x d = s.storageWord (s.x xsp).toNat ∧ (d ≠ xsp → t.x xsp = s.x xsp + 4#32) ∧
      changesOnly [xsp, d] [] s t) ∧
    ∃ t, exec (.popExt k) s = .next t ∧ t.pc = s.pc + 4#32 ∧
      t.e k = s.storageWord (s.x xsp).toNat ∧ t.x xsp = s.x xsp + 4#32 ∧
      changesOnly [xsp] [k] s t

/-- R231: CALL_IMM to the instruction after itself, which is POP Xd, leaves that instruction's
address in Xd and XSP as before (Xd another register than XSP). (inference R231; log 1) -/
def Obligations.CallThenPopReadsPc : Prop :=
  ∀ (a d : XReg) (k : BitVec 20) (s : State), s.pushable → s.x a + k.setWidth 32 = s.pc + 4#32 →
    d ≠ xsp →
    ∃ t u, exec (.callImm a k) s = .next t ∧ t.pc = s.pc + 4#32 ∧ exec (.pop d) t = .next u ∧
      u.x d = s.pc + 4#32 ∧ u.x xsp = s.x xsp

/-! ## System instructions (46_system) -/

/-- R241, R242: SYSCALL pushes the address of the next instruction under the caller's rights, enters
P0 and goes to the address in the handler slot; the ID register is not looked at; a slot that is
misaligned or outside the vector table and program memory makes it refused. (D17, D37, D50, D57; log
1) -/
def Obligations.SyscallResult : Prop :=
  ∀ (r : XReg) (s : State),
    let slot : Nat := s.cfg.syscallHandlerSlot.toNat
    (slot % 4 = 0 → 0x7F00 ≤ slot → slot ≤ 0xFFFF5FFF → s.pushable →
      ∃ t, exec (.syscall r) s = .next t ∧ t.mode = .p0 ∧ t.pc = s.storageWord slot ∧
        t.x xsp = s.x xsp - 4#32 ∧ storesWord (s.x xsp - 4#32) (s.pc + 4#32) s t ∧
        sameX [xsp] s t ∧ sameE [] s t ∧ sameControl (s.setMode .p0) t ∧ sameSystem s t ∧
        t.draws = s.draws) ∧
    (slot % 4 ≠ 0 ∨ slot < 0x7F00 ∨ 0xFFFF5FFF < slot →
      exec (.syscall r) s = .refused .syscallHandlerSlot)

/-- R240, R243, R245: SYSRET in P0 pops PC with kernel rights and enters P1; HLT in P0 sets the halt
flag and advances PC; in P1 both raise InvalidOpcodeFault. (D26, D47, D57; log 1) -/
def Obligations.PrivilegedInstructionResult : Prop :=
  ∀ s : State,
    (s.mode = .p0 → s.poppable →
      ∃ t, exec .sysret s = .next t ∧ t.mode = .p1 ∧ t.pc = s.storageWord (s.x xsp).toNat ∧
        t.x xsp = s.x xsp + 4#32 ∧ sameX [xsp] s t ∧ sameE [] s t ∧
        sameControl (s.setMode .p1) t ∧ sameSystem s t ∧ sameStorage s t ∧ t.draws = s.draws) ∧
    (s.mode = .p1 → exec .sysret s = s.takeException .invalidOpcodeFault none) ∧
    (s.mode = .p0 → ∃ t, exec .hlt s = .next t ∧ t.halted = true ∧ t.pc = s.pc + 4#32 ∧
      changesOnly [] [] (s.setHalted true) t) ∧
    (s.mode = .p1 → exec .hlt s = s.takeException .invalidOpcodeFault none)

/-- R247: CPUID completes in either mode with a value that depends on the core alone. (D38; log 1)
-/
def Obligations.CpuidResult : Prop :=
  ∃ value : CoreId → Word, ∀ (d : XReg) (s : State),
    ∃ t, exec (.cpuid d) s = .next t ∧ t.x d = value s.turn ∧ t.pc = s.pc + 4#32 ∧
      changesOnly [d] [] s t

/-! ## Trap entry (60_exceptions) -/

/-- R280, R281, R283: when the word below XSP can be written by the kernel and the handler fetched,
trap entry pushes the return address, enters P0 and the handler, clears the halt flag, records the
data address in EXC if there is one, and changes nothing else. What the push does outside storage is
read from R50 and R77 by the model (log 20): on a control register it writes that register, on MMIO
and on a reserved control-register byte it is refused. (D20, D21, D22, D40, D45, D56; log 1) -/
def Obligations.TrapEntryEntersTheHandler : Prop :=
  ∀ (s : State) (v : Nat) (ret : Word) (info : Option Word),
    let sp : Word := s.x xsp - 4#32
    let u : State := s.setExc (info.getD s.exc)
    let inHandler : State → State := fun t =>
      (((t.setX xsp sp).setMode .p0).setHalted false).setPc (s.handler v)
    (s.entersCleanly v →
      ∃ t, s.trapEntry v ret info = .next t ∧ s.entered v ret (info.getD s.exc) none t) ∧
    (kernelFetchable (s.handler v) →
      (sp = 0x3F00#32 →
        ∃ i : Word, s.trapEntry v ret info = .next (inHandler
            (((u.setSysDclk (wordByte ret 0)).setCoreXclk (wordByte ret 1)).setCoreIntr i)) ∧
          ∀ n, n < 32 →
            i.getLsbD n = if n < 16 then ret.getLsbD (n + 16) else s.coreIntr.getLsbD n) ∧
      (∀ n : Fin 3, s.turn = 0 → sp = BitVec.ofNat 32 (0x3F40 + 4 * n.val) →
        s.trapEntry v ret info = .next (inHandler (u.setBootAddr n ret))) ∧
      (sp.toNat % 4 = 0 → 0xFFFF6000 ≤ sp.toNat → sp.toNat ≤ 0xFFFFDFFF →
        s.trapEntry v ret info = .refused .mmioAccess) ∧
      (s.dataCheck .p0 .store sp .word = none → s.coversUnspecified sp .word = true →
        s.trapEntry v ret info = .refused .reservedControlByte))

/-- R280, R286, R287: when the handler of a vector other than 9 cannot be fetched, vector 9 is
delivered with the same return address. When the return address cannot be pushed (the word below XSP
is misaligned, in the trapping region or in the ROM, or covers a register that only core 0 reaches,
CPUn_BOOT_ADDR or CORE_FLAGS, on another core), or neither the vector's handler nor DoubleFault's can
be fetched, the core triple-faults: nothing else of it changes but EXC, and it has no further step.
That this is a next state and not a fault of the run is the model's choice (log 24). (D20, D21, D22,
D35, D55; log 1) -/
def Obligations.FailedDeliveryEscalates : Prop :=
  ∀ (s : State) (v : Nat) (ret : Word) (info : Option Word),
    (v ≠ 9 → ¬kernelFetchable (s.handler v) → s.entersCleanly 9 →
      ∃ t, s.trapEntry v ret info = .next t ∧ s.entered 9 ret (info.getD s.exc) none t) ∧
    ((s.x xsp - 4#32).toNat % 4 ≠ 0 ∨ (s.x xsp - 4#32).toNat < 0x3F00 ∨
        0xFFFFE000 ≤ (s.x xsp - 4#32).toNat ∨
        (s.turn ≠ 0 ∧ 0x3F00 ≤ (s.x xsp - 4#32).toNat ∧ (s.x xsp - 4#32).toNat ≤ 0x7EFF ∧
          ∃ b, b ∈ bytesCovered (s.x xsp - 4#32) .word ∧
            ((0x3F40 ≤ b ∧ b ≤ 0x3F4B) ∨ cregByteOf s.cfg b = some .coreFlags)) ∨
        (¬kernelFetchable (s.handler v) ∧ ¬kernelFetchable (s.handler 9)) →
      ∃ t, s.trapEntry v ret info = .next t ∧ t.runState = .tripleFaulted ∧
        t.core = { s.core with exc := info.getD s.exc, runState := .tripleFaulted } ∧
        (∀ c, c ≠ s.turn → t.coreAt c = s.coreAt c) ∧ t.mem = s.mem ∧
        coreHasStep t.cfg t.core = false)

/-- R260, R270, R271, R290: the vector of each exception and interrupt and the address of its entry.
(D20, D26, D27, D28, D29, D30; log 1) -/
def Obligations.VectorTableLayout : Prop :=
  (∀ (s : State) (v : Nat), v < 20 → (s.handler v).toNat =
      (s.storageByte (0x7F00 + 4 * v)).toNat + (s.storageByte (0x7F01 + 4 * v)).toNat * 2 ^ 8 +
        (s.storageByte (0x7F02 + 4 * v)).toNat * 2 ^ 16 +
        (s.storageByte (0x7F03 + 4 * v)).toNat * 2 ^ 24) ∧
    [Exc.loadFault, .storeFault, .pageFault, .invalidPageFault, .loadStoreAlignmentFault,
      .invalidOpcodeFault, .instructionFetchFault, .instrFetchAlignmentFault, .zeroDivisionFault,
      .doubleFault].map excVector = [0, 1, 2, 3, 4, 5, 6, 7, 8, 9] ∧
    [IrqSource.wdtExpired, .irql0, .irql1, .irql2, .irql3, .osTimerTrigger, .tim0Comp, .tim1Comp,
      .tim2Comp, .tim3Comp].map irqVector = [10, 11, 12, 13, 14, 15, 16, 17, 18, 19]

/-! ## The whole machine -/

/-- R53, R54, R55, R321: what reset leaves under every setting of the parameters, for every piece of
state the spec gives a value; CORE_FLAGS under its default layout. The model's own: State.reset takes
for RESET_PC the source's literal (log 3), nothing is listed in memory (log 6), the turn is core 0's
(log 14). (D31, D48, inference R55; log 1) -/
def Obligations.ResetValues : Prop :=
  (∀ cfg : Config,
    let r := State.resetWith cfg
    (∀ j : Fin 16, r.x j = 0#32 ∧ r.e j = 0#32) ∧ r.exc = 0#32 ∧ r.turn = 0 ∧ r.pc = cfg.resetPc ∧
      r.mode = .p0 ∧ r.halted = false ∧ (∀ q, r.pending q = false) ∧ r.runState = .running ∧
      r.coreIntr = 0#32 ∧
      (cfg.coreFlagsRead = #v[.const true, .bit 1, .bit 2, .bit 3,
          .const false, .const false, .const false, .const false] → r.coreFlags = 0x01#8) ∧
      (∀ c : CoreId, c ≠ 0 → (r.coreAt c).runState = .off) ∧ r.mem = [] ∧ r.cfg = cfg) ∧
    State.reset = State.resetWith Config.default ∧ State.reset.pc = 0xFFFFFFFB#32 ∧
    State.reset.coreFlags = 0x01#8

/-- R46, R52, R53: the invariant of EveryStepKeepsTheInvariant holds after reset, under every setting of
the parameters. (D31, D39; log 1) -/
def Obligations.InvariantHoldsAtReset : Prop :=
  State.reset.Inv ∧ ∀ cfg : Config, (State.resetWith cfg).Inv

/-- R52, R46, R245, R248, R280: every step keeps the invariant: memory canonical and only storage
listed, core 0 powered on, a halted core in P0; the form of memory is the model's own (log 6). (D20, D21, D22, D26, D39, D47, inference R248; log
1) -/
def Obligations.EveryStepKeepsTheInvariant : Prop :=
  ∀ s t : State, s.Inv → step s = .next t → t.Inv

/-- R74, R324, R76: no step changes a byte of the ROM, whatever a program or a trap entry stores;
and no step changes a parameter of R8 (log 2). (D23, D29; log 1) -/
def Obligations.NoStepChangesTheRom : Prop :=
  ∀ s t : State, step s = .next t →
    (∀ n, 0xFFFFE000 ≤ n → n < 2 ^ 32 → t.storageByte n = s.storageByte n) ∧ t.cfg = s.cfg

/-- R312: the mode of a core goes from P0 to P1 in a step only when that core moved and the instruction it ran
is SYSRET. -/
def Obligations.OnlySysretLeavesKernelMode : Prop :=
  ∀ (s t : State) (c : CoreId), step s = .next t → (s.coreAt c).mode = .p0 →
    (t.coreAt c).mode = .p1 →
    t.turn = c ∧ ∃ w : Word, decodeWord w = .ok .sysret ∧
      w = s.storageWord (s.coreAt c).pc.toNat

/-- R313, R73: a step that a core begins and ends in P1 changes no byte outside program memory, no
control register, and no state of another core but pending bits. (A step that begins in P1 and takes
a trap ends in P0 and pushes with kernel rights; reads are not spoken of, so the name's 'reaches' is
'changes'.) (D26, D27, D36; log 1) -/
def Obligations.UserModeReachesOnlyProgramMemory : Prop :=
  ∀ s t : State, step s = .next t → (s.coreAt t.turn).mode = .p1 → (t.coreAt t.turn).mode = .p1 →
    (∀ n, ¬(0x8000 ≤ n ∧ n ≤ 0xFFFF5FFF) → t.storageByte n = s.storageByte n) ∧
      t.sysDclk = s.sysDclk ∧ t.bootAddr = s.bootAddr ∧
      (∀ c, (t.coreAt c).coreXclk = (s.coreAt c).coreXclk ∧
        (t.coreAt c).coreIntr = (s.coreAt c).coreIntr) ∧
      (∀ c, c ≠ t.turn → t.coreAt c = { s.coreAt c with pending := (t.coreAt c).pending })

/-- R35, R46, R75, R316: an instruction changes no other core's state, except STB of core 0 in P0 to
the byte of CORE_FLAGS, which starts an Off core that it asks on (as the layout reads it, by default in
the core's bit), with the state R316 gives it (its boot address as pc; CORE_XCLK is unspecified), and
switches off a Running core that it asks off (at once: log 29; a halted one too, the model's choice:
log 33). That a TripleFaulted core asked off
stays as it is, where R316's words would make it Off, is the model's choice (log 18). (D39, D48, D54,
D55; log 1) -/
def Obligations.InstructionsLeaveOtherCoresAlone : Prop :=
  ∀ (i : Instr) (s t : State) (c : CoreId), exec i s = .next t → c ≠ s.turn →
    t.coreAt c = s.coreAt c ∨
      ∃ r a f, i = .stb r a f ∧ s.turn = 0 ∧ s.mode = .p0 ∧ region (s.byteAddress a) = .creg ∧
        cregByteOf s.cfg (s.byteAddress a).toNat = some .coreFlags ∧
        ∃ n : Fin 3, c = n.succ ∧
          let on : Bool := evalBits ((rshValue s.cfg (s.x r) (s.x f).toNat).setWidth 8)
            s.cfg.coreFlagsPower[n]
          (on = true ∧ (s.coreAt c).runState = .off ∧
              ∃ xclk : Byte, t.coreAt c = Core.poweredOn s.bootAddr[n] xclk) ∨
            (on = false ∧ (s.coreAt c).runState = .running ∧ (t.coreAt c).runState = .off)

/-- R26: the E registers are written by MOV_EXT, MOV_EXT2 and POP_EXT alone, each its own destination. -/
def Obligations.OnlyExtInstructionsWriteERegisters : Prop :=
  ∀ (i : Instr) (s t : State) (k : EReg), exec i s = .next t → t.e k ≠ s.e k →
    (∃ r, i = .movExt k r) ∨ (∃ l, i = .movExt2 k l) ∨ i = .popExt k

/-- R24: the X registers an instruction can change: its destination, and X15 when it is a stack
instruction or takes an exception. -/
def Obligations.XRegisterWriters : Prop :=
  ∀ (i : Instr) (s t : State) (d : XReg), exec i s = .next t → t.x d ≠ s.x d →
    (d = xsp ∧ ((∃ r, i = .push r ∨ i = .pop r ∨ i = .syscall r) ∨
          (∃ k, i = .pushExt k ∨ i = .popExt k) ∨ (∃ a n, i = .callImm a n) ∨
          (∃ a f, i = .call a f) ∨ i = .ret ∨ i = .sysret ∨
          ∃ e info, exec i s = s.takeException e info)) ∨
      (∃ b, i = .add d b ∨ i = .sub d b ∨ i = .mul d b ∨ i = .div d b ∨ i = .and d b ∨
        i = .or d b ∨ i = .xor d b ∨ i = .mov d b ∨ i = .lsh d b ∨ i = .rsh d b ∨
        i = .movGp d b) ∨
      i = .not d ∨ (∃ n, i = .movImm d n ∨ i = .lshImm d n ∨ i = .rshImm d n) ∨
      (∃ n, i = .movImmHigh d n) ∨ (∃ a f, i = .ldb d a f ∨ i = .ld d a f) ∨ i = .pop d ∨
      i = .cpuid d

/-- R31, R283: EXC changes only when the instruction's data access fails its check, and then holds
the address of that access. (D40; log 1) -/
def Obligations.ExcHoldsTheFailedDataAddress : Prop :=
  ∀ (i : Instr) (s t : State), exec i s = .next t →
    (∀ k a w e, s.dataAccess i = some (k, a, w) → s.dataCheck s.mode k a w = some e → t.exc = a) ∧
      ((∀ k a w, s.dataAccess i = some (k, a, w) → s.dataCheck s.mode k a w = none) →
        t.exc = s.exc)

/-- R63, R280, R284: the bytes of memory an instruction can change: those its store covers, or, when
it takes an exception, the four at XSP - 4 that trap entry writes. (D20, D21, D22, D44; log 1) -/
def Obligations.MemoryChangesOnlyWhereStored : Prop :=
  ∀ (i : Instr) (s t : State) (n : Nat), exec i s = .next t → t.storageByte n ≠ s.storageByte n →
    (∃ a w, s.dataAccess i = some (.store, a, w) ∧ s.dataCheck s.mode .store a w = none ∧
        n ∈ bytesCovered a w) ∨
      (n ∈ bytesCovered (s.x xsp - 4#32) .word ∧ t.mode = .p0 ∧
        ∃ e info, exec i s = s.takeException e info)

end
end

