-- ==== Sys2Proof/Laws/Decode.lean ====
section
/-! SUPPORT. The fields of packed words, and the bytes of a word (30_encoding R103, 20_memory R60). -/

namespace Sys2Proof

/-- Two nibbles are equal when their bits are. -/
theorem nibble_ext {a b : Fin 16} (h : BitVec.ofFin (w := 4) a = BitVec.ofFin (w := 4) b) : a = b :=
  congrArg BitVec.toFin h

@[simp] theorem opcode_pack (op : Byte) (a b c d e f : Fin 16) : opcode (pack op a b c d e f) = op := by
  apply BitVec.eq_of_getLsbD_eq
  intro i hi
  have h : i = 0 ∨ i = 1 ∨ i = 2 ∨ i = 3 ∨ i = 4 ∨ i = 5 ∨ i = 6 ∨ i = 7 := by omega
  rcases h with rfl | rfl | rfl | rfl | rfl | rfl | rfl | rfl <;>
    (simp only [opcode, pack, BitVec.getLsbD_extractLsb', BitVec.getLsbD_append]; simp)

@[simp] theorem n1_pack (op : Byte) (a b c d e f : Fin 16) : n1 (pack op a b c d e f) = a := by
  apply nibble_ext
  change (pack op a b c d e f).extractLsb' 20 4 = BitVec.ofFin (w := 4) a
  apply BitVec.eq_of_getLsbD_eq
  intro i hi
  have h : i = 0 ∨ i = 1 ∨ i = 2 ∨ i = 3 := by omega
  rcases h with rfl | rfl | rfl | rfl <;>
    (simp only [pack, BitVec.getLsbD_extractLsb', BitVec.getLsbD_append]; simp)

@[simp] theorem n2_pack (op : Byte) (a b c d e f : Fin 16) : n2 (pack op a b c d e f) = b := by
  apply nibble_ext
  change (pack op a b c d e f).extractLsb' 16 4 = BitVec.ofFin (w := 4) b
  apply BitVec.eq_of_getLsbD_eq
  intro i hi
  have h : i = 0 ∨ i = 1 ∨ i = 2 ∨ i = 3 := by omega
  rcases h with rfl | rfl | rfl | rfl <;>
    (simp only [pack, BitVec.getLsbD_extractLsb', BitVec.getLsbD_append]; simp)

@[simp] theorem n3_pack (op : Byte) (a b c d e f : Fin 16) : n3 (pack op a b c d e f) = c := by
  apply nibble_ext
  change (pack op a b c d e f).extractLsb' 12 4 = BitVec.ofFin (w := 4) c
  apply BitVec.eq_of_getLsbD_eq
  intro i hi
  have h : i = 0 ∨ i = 1 ∨ i = 2 ∨ i = 3 := by omega
  rcases h with rfl | rfl | rfl | rfl <;>
    (simp only [pack, BitVec.getLsbD_extractLsb', BitVec.getLsbD_append]; simp)

@[simp] theorem n4_pack (op : Byte) (a b c d e f : Fin 16) : n4 (pack op a b c d e f) = d := by
  apply nibble_ext
  change (pack op a b c d e f).extractLsb' 8 4 = BitVec.ofFin (w := 4) d
  apply BitVec.eq_of_getLsbD_eq
  intro i hi
  have h : i = 0 ∨ i = 1 ∨ i = 2 ∨ i = 3 := by omega
  rcases h with rfl | rfl | rfl | rfl <;>
    (simp only [pack, BitVec.getLsbD_extractLsb', BitVec.getLsbD_append]; simp)

@[simp] theorem n5_pack (op : Byte) (a b c d e f : Fin 16) : n5 (pack op a b c d e f) = e := by
  apply nibble_ext
  change (pack op a b c d e f).extractLsb' 4 4 = BitVec.ofFin (w := 4) e
  apply BitVec.eq_of_getLsbD_eq
  intro i hi
  have h : i = 0 ∨ i = 1 ∨ i = 2 ∨ i = 3 := by omega
  rcases h with rfl | rfl | rfl | rfl <;>
    (simp only [pack, BitVec.getLsbD_extractLsb', BitVec.getLsbD_append]; simp)

@[simp] theorem code3_pack (op : Byte) (k : BitVec 3) (b c d e f : Fin 16) :
    code3 (pack op (nibbleOfCode3 k) b c d e f) = k := by
  apply BitVec.eq_of_getLsbD_eq
  intro i hi
  have h : i = 0 ∨ i = 1 ∨ i = 2 := by omega
  rcases h with rfl | rfl | rfl <;>
    (simp only [code3, nibbleOfCode3, pack, BitVec.getLsbD_extractLsb', BitVec.getLsbD_append]; simp
     revert k; decide)

@[simp] theorem code1_pack (op : Byte) (k : BitVec 1) (b c d e f : Fin 16) :
    code1 (pack op (nibbleOfCode1 k) b c d e f) = k := by
  apply BitVec.eq_of_getLsbD_eq
  intro i hi
  have h : i = 0 := by omega
  subst h
  simp only [code1, nibbleOfCode1, pack, BitVec.getLsbD_extractLsb', BitVec.getLsbD_append]
  simp
  revert k
  decide

@[simp] theorem opcode_packImm20 (op : Byte) (a : Fin 16) (v : BitVec 20) : opcode (packImm20 op a v) = op := by
  apply BitVec.eq_of_getLsbD_eq
  intro i hi
  have h : i = 0 ∨ i = 1 ∨ i = 2 ∨ i = 3 ∨ i = 4 ∨ i = 5 ∨ i = 6 ∨ i = 7 := by omega
  rcases h with rfl | rfl | rfl | rfl | rfl | rfl | rfl | rfl <;>
    (simp only [opcode, packImm20, BitVec.getLsbD_extractLsb', BitVec.getLsbD_append]; simp)

@[simp] theorem n1_packImm20 (op : Byte) (a : Fin 16) (v : BitVec 20) : n1 (packImm20 op a v) = a := by
  apply nibble_ext
  change (packImm20 op a v).extractLsb' 20 4 = BitVec.ofFin (w := 4) a
  apply BitVec.eq_of_getLsbD_eq
  intro i hi
  have h : i = 0 ∨ i = 1 ∨ i = 2 ∨ i = 3 := by omega
  rcases h with rfl | rfl | rfl | rfl <;>
    (simp only [packImm20, BitVec.getLsbD_extractLsb', BitVec.getLsbD_append]; simp)

@[simp] theorem imm20_packImm20 (op : Byte) (a : Fin 16) (v : BitVec 20) : imm20 (packImm20 op a v) = v := by
  apply BitVec.eq_of_getLsbD_eq
  intro i hi
  have h : i = 0 ∨ i = 1 ∨ i = 2 ∨ i = 3 ∨ i = 4 ∨ i = 5 ∨ i = 6 ∨ i = 7 ∨ i = 8 ∨ i = 9 ∨ i = 10 ∨ i = 11 ∨ i = 12 ∨ i = 13 ∨ i = 14 ∨ i = 15 ∨ i = 16 ∨ i = 17 ∨ i = 18 ∨ i = 19 := by omega
  rcases h with rfl | rfl | rfl | rfl | rfl | rfl | rfl | rfl | rfl | rfl | rfl | rfl | rfl | rfl | rfl | rfl | rfl | rfl | rfl | rfl <;>
    (simp only [imm20, packImm20, BitVec.getLsbD_extractLsb', BitVec.getLsbD_append]; simp)

@[simp] theorem opcode_packImm16 (op : Byte) (a b : Fin 16) (v : BitVec 16) : opcode (packImm16 op a b v) = op := by
  apply BitVec.eq_of_getLsbD_eq
  intro i hi
  have h : i = 0 ∨ i = 1 ∨ i = 2 ∨ i = 3 ∨ i = 4 ∨ i = 5 ∨ i = 6 ∨ i = 7 := by omega
  rcases h with rfl | rfl | rfl | rfl | rfl | rfl | rfl | rfl <;>
    (simp only [opcode, packImm16, BitVec.getLsbD_extractLsb', BitVec.getLsbD_append]; simp)

@[simp] theorem n1_packImm16 (op : Byte) (a b : Fin 16) (v : BitVec 16) : n1 (packImm16 op a b v) = a := by
  apply nibble_ext
  change (packImm16 op a b v).extractLsb' 20 4 = BitVec.ofFin (w := 4) a
  apply BitVec.eq_of_getLsbD_eq
  intro i hi
  have h : i = 0 ∨ i = 1 ∨ i = 2 ∨ i = 3 := by omega
  rcases h with rfl | rfl | rfl | rfl <;>
    (simp only [packImm16, BitVec.getLsbD_extractLsb', BitVec.getLsbD_append]; simp)

@[simp] theorem imm16_packImm16 (op : Byte) (a b : Fin 16) (v : BitVec 16) : imm16 (packImm16 op a b v) = v := by
  apply BitVec.eq_of_getLsbD_eq
  intro i hi
  have h : i = 0 ∨ i = 1 ∨ i = 2 ∨ i = 3 ∨ i = 4 ∨ i = 5 ∨ i = 6 ∨ i = 7 ∨ i = 8 ∨ i = 9 ∨ i = 10 ∨ i = 11 ∨ i = 12 ∨ i = 13 ∨ i = 14 ∨ i = 15 := by omega
  rcases h with rfl | rfl | rfl | rfl | rfl | rfl | rfl | rfl | rfl | rfl | rfl | rfl | rfl | rfl | rfl | rfl <;>
    (simp only [imm16, packImm16, BitVec.getLsbD_extractLsb', BitVec.getLsbD_append]; simp)

/-! ## Bytes and words -/

/-- The number of two bit vectors put together. -/
theorem toNat_append_eq {v w : Nat} (x : BitVec v) (y : BitVec w) :
    (x ++ y).toNat = x.toNat * 2 ^ w + y.toNat := by
  rw [BitVec.toNat_append, ← Nat.shiftLeft_add_eq_or_of_lt y.isLt, Nat.shiftLeft_eq]

/-- The number of a word is the little-endian sum of its bytes. -/
theorem toNat_wordOfBytes (b0 b1 b2 b3 : Byte) :
    (wordOfBytes b0 b1 b2 b3).toNat =
      b0.toNat + b1.toNat * 2 ^ 8 + b2.toNat * 2 ^ 16 + b3.toNat * 2 ^ 24 := by
  unfold wordOfBytes
  rw [toNat_append_eq, toNat_append_eq, toNat_append_eq]
  omega

/-- The number of byte k of a word. -/
theorem toNat_wordByte (w : Word) (k : Nat) : (wordByte w k).toNat = w.toNat / 2 ^ (8 * k) % 256 := by
  simp [wordByte, BitVec.extractLsb'_toNat, Nat.shiftRight_eq_div_pow]

/-- A word is put together again from its four bytes. -/
@[simp] theorem wordOfBytes_wordByte (w : Word) :
    wordOfBytes (wordByte w 0) (wordByte w 1) (wordByte w 2) (wordByte w 3) = w := by
  apply BitVec.eq_of_toNat_eq
  have h := w.isLt
  rw [toNat_wordOfBytes]
  simp only [toNat_wordByte]
  omega

/-- The opcode is the highest byte (20_memory R61, 30_encoding R101). -/
@[simp] theorem opcode_wordOfBytes (b0 b1 b2 b3 : Byte) : opcode (wordOfBytes b0 b1 b2 b3) = b3 := by
  apply BitVec.eq_of_toNat_eq
  have h0 := b0.isLt
  have h1 := b1.isLt
  have h2 := b2.isLt
  have h3 := b3.isLt
  simp only [opcode, BitVec.extractLsb'_toNat, toNat_wordOfBytes, Nat.shiftRight_eq_div_pow]
  omega

end Sys2Proof
end

