-- ==== Sys2Proof/Laws/Memory.lean ====
section
/-! SUPPORT. The laws of memory: a read after a write, and the canonical form that every write keeps. -/

namespace Sys2Proof.Machine

open Sys2Proof

/-- A write gives its byte back and leaves every other address alone. -/
@[simp] theorem lookup_write (m : Memory) (a : Nat) (b : Byte) (n : Nat) :
    Memory.lookup (Memory.write m a b) n = if n = a then some b else Memory.lookup m n := by
  induction m with
  | nil => simp [Memory.write, Memory.lookup]
  | cons c m ih =>
    obtain ⟨k, v⟩ := c
    by_cases h1 : a < k
    · simp [Memory.write, Memory.lookup, h1]
    · by_cases h2 : a = k
      · subst h2
        by_cases h3 : n = a <;> simp [Memory.write, Memory.lookup, h3]
      · by_cases h3 : n = k
        · subst h3
          simp [Memory.write, Memory.lookup, h1, h2, Ne.symm h2]
        · simp [Memory.write, Memory.lookup, h1, h2, h3, ih]

/-- A word write stores the word's byte n - a at each of its four addresses (20_memory R60). -/
theorem lookup_writeWord (m : Memory) (a : Nat) (v : Word) (n : Nat) :
    Memory.lookup (Memory.writeWord m a v) n =
      if a ≤ n ∧ n < a + 4 then some (wordByte v (n - a)) else Memory.lookup m n := by
  simp only [Memory.writeWord, lookup_write]
  split <;> rename_i h3
  · subst h3; simp
  split <;> rename_i h2
  · subst h2; simp
  split <;> rename_i h1
  · subst h1; simp
  split <;> rename_i h0
  · subst h0; simp
  · rw [if_neg (by omega)]

theorem risingFrom_mono {lo lo' : Nat} (h : lo' ≤ lo) :
    ∀ m : Memory, Memory.risingFrom lo m = true → Memory.risingFrom lo' m = true
  | [], _ => rfl
  | (k, _) :: _, hm => by
    simp only [Memory.risingFrom, Bool.and_eq_true, decide_eq_true_eq] at hm ⊢
    exact ⟨le_trans h hm.1, hm.2⟩

theorem risingFrom_write {lo a : Nat} {b : Byte} (h : lo ≤ a) :
    ∀ m : Memory, Memory.risingFrom lo m = true → Memory.risingFrom lo (Memory.write m a b) = true := by
  intro m
  induction m generalizing lo with
  | nil => intro _; simp [Memory.write, Memory.risingFrom, h]
  | cons c m ih =>
    obtain ⟨k, v⟩ := c
    intro hm
    simp only [Memory.risingFrom, Bool.and_eq_true, decide_eq_true_eq] at hm
    by_cases h1 : a < k
    · simp only [Memory.write, h1, if_true, Memory.risingFrom, Bool.and_eq_true, decide_eq_true_eq]
      exact ⟨h, h1, hm.2⟩
    · by_cases h2 : a = k
      · subst h2
        simp only [Memory.write, h1, if_false, if_true, Memory.risingFrom, Bool.and_eq_true,
          decide_eq_true_eq]
        exact hm
      · simp only [Memory.write, h1, h2, if_false, Memory.risingFrom, Bool.and_eq_true,
          decide_eq_true_eq]
        exact ⟨hm.1, ih (by omega) hm.2⟩

theorem mem_write {m : Memory} {a : Nat} {b : Byte} {c : Host.Cell} :
    c ∈ Memory.write m a b → c = (a, b) ∨ c ∈ m := by
  induction m with
  | nil => simp [Memory.write]
  | cons d m ih =>
    obtain ⟨k, v⟩ := d
    simp only [Memory.write]
    split
    · simp
    · split
      · simp only [List.mem_cons]; tauto
      · simp only [List.mem_cons]
        intro h
        rcases h with h | h
        · exact Or.inr (Or.inl h)
        · exact (ih h).imp id Or.inr

/-- Every byte write of storage keeps the canonical form. -/
theorem wf_write {m : Memory} {a : Nat} {b : Byte} (ha : isStorage a = true)
    (h : Memory.wf m = true) : Memory.wf (Memory.write m a b) = true := by
  simp only [Memory.wf, Bool.and_eq_true, List.all_eq_true] at h ⊢
  refine ⟨risingFrom_write (Nat.zero_le a) m h.1, fun c hc => ?_⟩
  rcases mem_write hc with rfl | hc
  · exact ha
  · exact h.2 c hc

/-- Every word write of storage keeps the canonical form. -/
theorem wf_writeWord {m : Memory} {a : Nat} {v : Word} (h0 : isStorage a = true)
    (h1 : isStorage (a + 1) = true) (h2 : isStorage (a + 2) = true) (h3 : isStorage (a + 3) = true)
    (h : Memory.wf m = true) : Memory.wf (Memory.writeWord m a v) = true :=
  wf_write h3 (wf_write h2 (wf_write h1 (wf_write h0 h)))

/-- The storage byte after a byte write. -/
theorem storageByte_write (s : State) (a : Nat) (b : Byte) (n : Nat) :
    State.storageByte { s with mem := Memory.write s.mem a b } n =
      if n = a then b else s.storageByte n := by
  simp only [State.storageByte, lookup_write]
  split <;> rfl

/-- The storage byte after a word write (20_memory R60). -/
theorem storageByte_writeWord (s : State) (a : Nat) (v : Word) (n : Nat) :
    State.storageByte { s with mem := Memory.writeWord s.mem a v } n =
      if a ≤ n ∧ n < a + 4 then wordByte v (n - a) else s.storageByte n := by
  simp only [State.storageByte, lookup_writeWord]
  split <;> rfl

/-- The memory of a reset state is canonical, under every setting. -/
theorem wf_resetWith (cfg : Config) : Memory.wf (State.resetWith cfg).mem = true := rfl

theorem wf_reset : Memory.wf State.reset.mem = true := wf_resetWith _

/-! ## The regions by number -/

/-- The five boundaries of the address map, as numbers. -/
theorem bases : crBase = 0x3F00 ∧ ivtBase = 0x7F00 ∧ progBase = 0x8000 ∧ mmioBase = 0xFFFF6000 ∧
    romBase = 0xFFFFE000 := ⟨rfl, rfl, rfl, rfl, rfl⟩

theorem regionOf_eq_nulltrap (n : Nat) : regionOf n = .nulltrap ↔ n < 0x3F00 := by
  have h := bases
  unfold regionOf
  split_ifs <;> simp <;> omega

theorem regionOf_eq_creg (n : Nat) : regionOf n = .creg ↔ 0x3F00 ≤ n ∧ n < 0x7F00 := by
  have h := bases
  unfold regionOf
  split_ifs <;> simp <;> omega

theorem regionOf_eq_ivt (n : Nat) : regionOf n = .ivt ↔ 0x7F00 ≤ n ∧ n < 0x8000 := by
  have h := bases
  unfold regionOf
  split_ifs <;> simp <;> omega

theorem regionOf_eq_prog (n : Nat) : regionOf n = .prog ↔ 0x8000 ≤ n ∧ n < 0xFFFF6000 := by
  have h := bases
  unfold regionOf
  split_ifs <;> simp <;> omega

theorem regionOf_eq_mmio (n : Nat) : regionOf n = .mmio ↔ 0xFFFF6000 ≤ n ∧ n < 0xFFFFE000 := by
  have h := bases
  unfold regionOf
  split_ifs <;> simp <;> omega

theorem regionOf_eq_rom (n : Nat) : regionOf n = .rom ↔ 0xFFFFE000 ≤ n := by
  have h := bases
  unfold regionOf
  split_ifs <;> simp <;> omega

/-- The region of an address value is that of its number. -/
theorem region_eq (a : Word) : region a = regionOf a.toNat := rfl

/-- Aligned means a multiple of 4. -/
theorem aligned_iff (a : Word) : aligned a = true ↔ a.toNat % 4 = 0 := by
  unfold aligned
  rw [beq_iff_eq, ← BitVec.toNat_inj]
  simp [BitVec.extractLsb'_toNat]

theorem aligned_eq_false_iff (a : Word) : aligned a = false ↔ a.toNat % 4 ≠ 0 := by
  rw [← Bool.not_eq_true, aligned_iff]

/-- A byte of storage lies in the vector table, program memory or the ROM. -/
theorem isStorage_iff (n : Nat) :
    isStorage n = true ↔ n < 2 ^ 32 ∧ ((0x7F00 ≤ n ∧ n < 0xFFFF6000) ∨ 0xFFFFE000 ≤ n) := by
  simp only [isStorage, Bool.and_eq_true, Bool.or_eq_true, decide_eq_true_eq, beq_iff_eq,
    regionOf_eq_ivt, regionOf_eq_prog, regionOf_eq_rom]
  omega

end Sys2Proof.Machine
end

