-- ==== Sys2Proof/Laws/State.lean ====
section
/-! SUPPORT. One lemma per field per update of the state. -/

namespace Sys2Proof.Machine

open Sys2Proof

/-! ## The core in its vector -/

@[simp] theorem coreAt_setCoreAt (s : State) (c d : CoreId) (k : Core) :
    (s.setCoreAt c k).coreAt d = if d = c then k else s.coreAt d := by
  simp only [State.coreAt, State.setCoreAt, Fin.getElem_fin, Vector.getElem_set]
  by_cases h : d = c
  · simp [h]
  · rw [if_neg h, if_neg fun hv => h (Fin.ext hv.symm)]

@[simp] theorem core_setCore (s : State) (k : Core) : (s.setCore k).core = k := by
  simp only [State.core, State.setCore, coreAt_setCoreAt]
  exact if_pos rfl

@[simp] theorem coreAt_setCore (s : State) (k : Core) (d : CoreId) :
    (s.setCore k).coreAt d = if d = s.turn then k else s.coreAt d :=
  coreAt_setCoreAt s s.turn d k

@[simp] theorem setCore_setCore (s : State) (k l : Core) : (s.setCore k).setCore l = s.setCore l := by
  simp [State.setCore, State.setCoreAt]

@[simp] theorem setCore_core (s : State) : s.setCore s.core = s := by
  simp [State.core, State.setCore, State.setCoreAt, State.coreAt]

@[simp] theorem mem_setCoreAt (s : State) (d : CoreId) (l : Core) : (s.setCoreAt d l).mem = s.mem := rfl
@[simp] theorem mem_setCore (s : State) (l : Core) : (s.setCore l).mem = s.mem := rfl
@[simp] theorem sysDclk_setCoreAt (s : State) (d : CoreId) (l : Core) : (s.setCoreAt d l).sysDclk = s.sysDclk := rfl
@[simp] theorem sysDclk_setCore (s : State) (l : Core) : (s.setCore l).sysDclk = s.sysDclk := rfl
@[simp] theorem bootAddr_setCoreAt (s : State) (d : CoreId) (l : Core) : (s.setCoreAt d l).bootAddr = s.bootAddr := rfl
@[simp] theorem bootAddr_setCore (s : State) (l : Core) : (s.setCore l).bootAddr = s.bootAddr := rfl
@[simp] theorem cfg_setCoreAt (s : State) (d : CoreId) (l : Core) : (s.setCoreAt d l).cfg = s.cfg := rfl
@[simp] theorem cfg_setCore (s : State) (l : Core) : (s.setCore l).cfg = s.cfg := rfl
@[simp] theorem turn_setCoreAt (s : State) (d : CoreId) (l : Core) : (s.setCoreAt d l).turn = s.turn := rfl
@[simp] theorem turn_setCore (s : State) (l : Core) : (s.setCore l).turn = s.turn := rfl
@[simp] theorem script_setCoreAt (s : State) (d : CoreId) (l : Core) : (s.setCoreAt d l).script = s.script := rfl
@[simp] theorem script_setCore (s : State) (l : Core) : (s.setCore l).script = s.script := rfl
@[simp] theorem draws_setCoreAt (s : State) (d : CoreId) (l : Core) : (s.setCoreAt d l).draws = s.draws := rfl
@[simp] theorem draws_setCore (s : State) (l : Core) : (s.setCore l).draws = s.draws := rfl
@[simp] theorem storageByte_setCoreAt (s : State) (d : CoreId) (l : Core) (n : Nat) : (s.setCoreAt d l).storageByte n = s.storageByte n := rfl
@[simp] theorem storageByte_setCore (s : State) (l : Core) (n : Nat) : (s.setCore l).storageByte n = s.storageByte n := rfl
@[simp] theorem storageWord_setCoreAt (s : State) (d : CoreId) (l : Core) (n : Nat) : (s.setCoreAt d l).storageWord n = s.storageWord n := rfl
@[simp] theorem storageWord_setCore (s : State) (l : Core) (n : Nat) : (s.setCore l).storageWord n = s.storageWord n := rfl
@[simp] theorem handler_setCoreAt (s : State) (d : CoreId) (l : Core) (n : Nat) : (s.setCoreAt d l).handler n = s.handler n := rfl
@[simp] theorem handler_setCore (s : State) (l : Core) (n : Nat) : (s.setCore l).handler n = s.handler n := rfl
@[simp] theorem dataCheck_setCoreAt (s : State) (d : CoreId) (l : Core) (m : Mode) (k : AccessKind) (w : Word) (z : Width) : (s.setCoreAt d l).dataCheck m k w z = s.dataCheck m k w z := rfl
@[simp] theorem dataCheck_setCore (s : State) (l : Core) (m : Mode) (k : AccessKind) (w : Word) (z : Width) : (s.setCore l).dataCheck m k w z = s.dataCheck m k w z := rfl

/-! ## setX -/

@[simp] theorem mem_setX (s : State) (i : XReg) (v : Word) : (s.setX i v).mem = s.mem := rfl
@[simp] theorem sysDclk_setX (s : State) (i : XReg) (v : Word) : (s.setX i v).sysDclk = s.sysDclk := rfl
@[simp] theorem bootAddr_setX (s : State) (i : XReg) (v : Word) : (s.setX i v).bootAddr = s.bootAddr := rfl
@[simp] theorem cfg_setX (s : State) (i : XReg) (v : Word) : (s.setX i v).cfg = s.cfg := rfl
@[simp] theorem turn_setX (s : State) (i : XReg) (v : Word) : (s.setX i v).turn = s.turn := rfl
@[simp] theorem script_setX (s : State) (i : XReg) (v : Word) : (s.setX i v).script = s.script := rfl
@[simp] theorem draws_setX (s : State) (i : XReg) (v : Word) : (s.setX i v).draws = s.draws := rfl
@[simp] theorem storageByte_setX (s : State) (i : XReg) (v : Word) (n : Nat) : (s.setX i v).storageByte n = s.storageByte n := rfl
@[simp] theorem storageWord_setX (s : State) (i : XReg) (v : Word) (n : Nat) : (s.setX i v).storageWord n = s.storageWord n := rfl
@[simp] theorem handler_setX (s : State) (i : XReg) (v : Word) (n : Nat) : (s.setX i v).handler n = s.handler n := rfl
@[simp] theorem dataCheck_setX (s : State) (i : XReg) (v : Word) (m : Mode) (k : AccessKind) (w : Word) (l : Width) : (s.setX i v).dataCheck m k w l = s.dataCheck m k w l := rfl
theorem coreAt_setX_of_ne (s : State) (i : XReg) (v : Word) (d : CoreId) (h : d ≠ s.turn) : (s.setX i v).coreAt d = s.coreAt d := by
  simp [State.setX, h]
@[simp] theorem x_setX (s : State) (i : XReg) (v : Word) (j : XReg) :
    (s.setX i v).x j = if j = i then v else s.x j := by
  simp only [State.x, State.setX, core_setCore, Fin.getElem_fin, Vector.getElem_set]
  by_cases h : j = i
  · simp [h]
  · rw [if_neg h, if_neg fun hv => h (Fin.ext hv.symm)]
@[simp] theorem e_setX (s : State) (i : XReg) (v : Word) (j : EReg) : (s.setX i v).e j = s.e j := by
  simp [State.e, State.setX]
@[simp] theorem pc_setX (s : State) (i : XReg) (v : Word) : (s.setX i v).pc = s.pc := by
  simp [State.pc, State.setX]
@[simp] theorem exc_setX (s : State) (i : XReg) (v : Word) : (s.setX i v).exc = s.exc := by
  simp [State.exc, State.setX]
@[simp] theorem mode_setX (s : State) (i : XReg) (v : Word) : (s.setX i v).mode = s.mode := by
  simp [State.mode, State.setX]
@[simp] theorem halted_setX (s : State) (i : XReg) (v : Word) : (s.setX i v).halted = s.halted := by
  simp [State.halted, State.setX]
@[simp] theorem pending_setX (s : State) (i : XReg) (v : Word) (p : IrqSource) : (s.setX i v).pending p = s.pending p := by
  simp [State.pending, State.setX]
@[simp] theorem runState_setX (s : State) (i : XReg) (v : Word) : (s.setX i v).runState = s.runState := by
  simp [State.runState, State.setX]
@[simp] theorem coreXclk_setX (s : State) (i : XReg) (v : Word) : (s.setX i v).coreXclk = s.coreXclk := by
  simp [State.coreXclk, State.setX]
@[simp] theorem coreIntr_setX (s : State) (i : XReg) (v : Word) : (s.setX i v).coreIntr = s.coreIntr := by
  simp [State.coreIntr, State.setX]

/-! ## setE -/

@[simp] theorem mem_setE (s : State) (i : EReg) (v : Word) : (s.setE i v).mem = s.mem := rfl
@[simp] theorem sysDclk_setE (s : State) (i : EReg) (v : Word) : (s.setE i v).sysDclk = s.sysDclk := rfl
@[simp] theorem bootAddr_setE (s : State) (i : EReg) (v : Word) : (s.setE i v).bootAddr = s.bootAddr := rfl
@[simp] theorem cfg_setE (s : State) (i : EReg) (v : Word) : (s.setE i v).cfg = s.cfg := rfl
@[simp] theorem turn_setE (s : State) (i : EReg) (v : Word) : (s.setE i v).turn = s.turn := rfl
@[simp] theorem script_setE (s : State) (i : EReg) (v : Word) : (s.setE i v).script = s.script := rfl
@[simp] theorem draws_setE (s : State) (i : EReg) (v : Word) : (s.setE i v).draws = s.draws := rfl
@[simp] theorem storageByte_setE (s : State) (i : EReg) (v : Word) (n : Nat) : (s.setE i v).storageByte n = s.storageByte n := rfl
@[simp] theorem storageWord_setE (s : State) (i : EReg) (v : Word) (n : Nat) : (s.setE i v).storageWord n = s.storageWord n := rfl
@[simp] theorem handler_setE (s : State) (i : EReg) (v : Word) (n : Nat) : (s.setE i v).handler n = s.handler n := rfl
@[simp] theorem dataCheck_setE (s : State) (i : EReg) (v : Word) (m : Mode) (k : AccessKind) (w : Word) (l : Width) : (s.setE i v).dataCheck m k w l = s.dataCheck m k w l := rfl
theorem coreAt_setE_of_ne (s : State) (i : EReg) (v : Word) (d : CoreId) (h : d ≠ s.turn) : (s.setE i v).coreAt d = s.coreAt d := by
  simp [State.setE, h]
@[simp] theorem x_setE (s : State) (i : EReg) (v : Word) (j : XReg) : (s.setE i v).x j = s.x j := by
  simp [State.x, State.setE]
@[simp] theorem e_setE (s : State) (i : EReg) (v : Word) (j : EReg) :
    (s.setE i v).e j = if j = i then v else s.e j := by
  simp only [State.e, State.setE, core_setCore, Fin.getElem_fin, Vector.getElem_set]
  by_cases h : j = i
  · simp [h]
  · rw [if_neg h, if_neg fun hv => h (Fin.ext hv.symm)]
@[simp] theorem pc_setE (s : State) (i : EReg) (v : Word) : (s.setE i v).pc = s.pc := by
  simp [State.pc, State.setE]
@[simp] theorem exc_setE (s : State) (i : EReg) (v : Word) : (s.setE i v).exc = s.exc := by
  simp [State.exc, State.setE]
@[simp] theorem mode_setE (s : State) (i : EReg) (v : Word) : (s.setE i v).mode = s.mode := by
  simp [State.mode, State.setE]
@[simp] theorem halted_setE (s : State) (i : EReg) (v : Word) : (s.setE i v).halted = s.halted := by
  simp [State.halted, State.setE]
@[simp] theorem pending_setE (s : State) (i : EReg) (v : Word) (p : IrqSource) : (s.setE i v).pending p = s.pending p := by
  simp [State.pending, State.setE]
@[simp] theorem runState_setE (s : State) (i : EReg) (v : Word) : (s.setE i v).runState = s.runState := by
  simp [State.runState, State.setE]
@[simp] theorem coreXclk_setE (s : State) (i : EReg) (v : Word) : (s.setE i v).coreXclk = s.coreXclk := by
  simp [State.coreXclk, State.setE]
@[simp] theorem coreIntr_setE (s : State) (i : EReg) (v : Word) : (s.setE i v).coreIntr = s.coreIntr := by
  simp [State.coreIntr, State.setE]

/-! ## setPc -/

@[simp] theorem mem_setPc (s : State) (v : Word) : (s.setPc v).mem = s.mem := rfl
@[simp] theorem sysDclk_setPc (s : State) (v : Word) : (s.setPc v).sysDclk = s.sysDclk := rfl
@[simp] theorem bootAddr_setPc (s : State) (v : Word) : (s.setPc v).bootAddr = s.bootAddr := rfl
@[simp] theorem cfg_setPc (s : State) (v : Word) : (s.setPc v).cfg = s.cfg := rfl
@[simp] theorem turn_setPc (s : State) (v : Word) : (s.setPc v).turn = s.turn := rfl
@[simp] theorem script_setPc (s : State) (v : Word) : (s.setPc v).script = s.script := rfl
@[simp] theorem draws_setPc (s : State) (v : Word) : (s.setPc v).draws = s.draws := rfl
@[simp] theorem storageByte_setPc (s : State) (v : Word) (n : Nat) : (s.setPc v).storageByte n = s.storageByte n := rfl
@[simp] theorem storageWord_setPc (s : State) (v : Word) (n : Nat) : (s.setPc v).storageWord n = s.storageWord n := rfl
@[simp] theorem handler_setPc (s : State) (v : Word) (n : Nat) : (s.setPc v).handler n = s.handler n := rfl
@[simp] theorem dataCheck_setPc (s : State) (v : Word) (m : Mode) (k : AccessKind) (w : Word) (l : Width) : (s.setPc v).dataCheck m k w l = s.dataCheck m k w l := rfl
theorem coreAt_setPc_of_ne (s : State) (v : Word) (d : CoreId) (h : d ≠ s.turn) : (s.setPc v).coreAt d = s.coreAt d := by
  simp [State.setPc, h]
@[simp] theorem x_setPc (s : State) (v : Word) (j : XReg) : (s.setPc v).x j = s.x j := by
  simp [State.x, State.setPc]
@[simp] theorem e_setPc (s : State) (v : Word) (j : EReg) : (s.setPc v).e j = s.e j := by
  simp [State.e, State.setPc]
@[simp] theorem pc_setPc (s : State) (v : Word) : (s.setPc v).pc = v := by
  simp [State.pc, State.setPc]
@[simp] theorem exc_setPc (s : State) (v : Word) : (s.setPc v).exc = s.exc := by
  simp [State.exc, State.setPc]
@[simp] theorem mode_setPc (s : State) (v : Word) : (s.setPc v).mode = s.mode := by
  simp [State.mode, State.setPc]
@[simp] theorem halted_setPc (s : State) (v : Word) : (s.setPc v).halted = s.halted := by
  simp [State.halted, State.setPc]
@[simp] theorem pending_setPc (s : State) (v : Word) (p : IrqSource) : (s.setPc v).pending p = s.pending p := by
  simp [State.pending, State.setPc]
@[simp] theorem runState_setPc (s : State) (v : Word) : (s.setPc v).runState = s.runState := by
  simp [State.runState, State.setPc]
@[simp] theorem coreXclk_setPc (s : State) (v : Word) : (s.setPc v).coreXclk = s.coreXclk := by
  simp [State.coreXclk, State.setPc]
@[simp] theorem coreIntr_setPc (s : State) (v : Word) : (s.setPc v).coreIntr = s.coreIntr := by
  simp [State.coreIntr, State.setPc]

/-! ## setExc -/

@[simp] theorem mem_setExc (s : State) (v : Word) : (s.setExc v).mem = s.mem := rfl
@[simp] theorem sysDclk_setExc (s : State) (v : Word) : (s.setExc v).sysDclk = s.sysDclk := rfl
@[simp] theorem bootAddr_setExc (s : State) (v : Word) : (s.setExc v).bootAddr = s.bootAddr := rfl
@[simp] theorem cfg_setExc (s : State) (v : Word) : (s.setExc v).cfg = s.cfg := rfl
@[simp] theorem turn_setExc (s : State) (v : Word) : (s.setExc v).turn = s.turn := rfl
@[simp] theorem script_setExc (s : State) (v : Word) : (s.setExc v).script = s.script := rfl
@[simp] theorem draws_setExc (s : State) (v : Word) : (s.setExc v).draws = s.draws := rfl
@[simp] theorem storageByte_setExc (s : State) (v : Word) (n : Nat) : (s.setExc v).storageByte n = s.storageByte n := rfl
@[simp] theorem storageWord_setExc (s : State) (v : Word) (n : Nat) : (s.setExc v).storageWord n = s.storageWord n := rfl
@[simp] theorem handler_setExc (s : State) (v : Word) (n : Nat) : (s.setExc v).handler n = s.handler n := rfl
@[simp] theorem dataCheck_setExc (s : State) (v : Word) (m : Mode) (k : AccessKind) (w : Word) (l : Width) : (s.setExc v).dataCheck m k w l = s.dataCheck m k w l := rfl
theorem coreAt_setExc_of_ne (s : State) (v : Word) (d : CoreId) (h : d ≠ s.turn) : (s.setExc v).coreAt d = s.coreAt d := by
  simp [State.setExc, h]
@[simp] theorem x_setExc (s : State) (v : Word) (j : XReg) : (s.setExc v).x j = s.x j := by
  simp [State.x, State.setExc]
@[simp] theorem e_setExc (s : State) (v : Word) (j : EReg) : (s.setExc v).e j = s.e j := by
  simp [State.e, State.setExc]
@[simp] theorem pc_setExc (s : State) (v : Word) : (s.setExc v).pc = s.pc := by
  simp [State.pc, State.setExc]
@[simp] theorem exc_setExc (s : State) (v : Word) : (s.setExc v).exc = v := by
  simp [State.exc, State.setExc]
@[simp] theorem mode_setExc (s : State) (v : Word) : (s.setExc v).mode = s.mode := by
  simp [State.mode, State.setExc]
@[simp] theorem halted_setExc (s : State) (v : Word) : (s.setExc v).halted = s.halted := by
  simp [State.halted, State.setExc]
@[simp] theorem pending_setExc (s : State) (v : Word) (p : IrqSource) : (s.setExc v).pending p = s.pending p := by
  simp [State.pending, State.setExc]
@[simp] theorem runState_setExc (s : State) (v : Word) : (s.setExc v).runState = s.runState := by
  simp [State.runState, State.setExc]
@[simp] theorem coreXclk_setExc (s : State) (v : Word) : (s.setExc v).coreXclk = s.coreXclk := by
  simp [State.coreXclk, State.setExc]
@[simp] theorem coreIntr_setExc (s : State) (v : Word) : (s.setExc v).coreIntr = s.coreIntr := by
  simp [State.coreIntr, State.setExc]

/-! ## setMode -/

@[simp] theorem mem_setMode (s : State) (u : Mode) : (s.setMode u).mem = s.mem := rfl
@[simp] theorem sysDclk_setMode (s : State) (u : Mode) : (s.setMode u).sysDclk = s.sysDclk := rfl
@[simp] theorem bootAddr_setMode (s : State) (u : Mode) : (s.setMode u).bootAddr = s.bootAddr := rfl
@[simp] theorem cfg_setMode (s : State) (u : Mode) : (s.setMode u).cfg = s.cfg := rfl
@[simp] theorem turn_setMode (s : State) (u : Mode) : (s.setMode u).turn = s.turn := rfl
@[simp] theorem script_setMode (s : State) (u : Mode) : (s.setMode u).script = s.script := rfl
@[simp] theorem draws_setMode (s : State) (u : Mode) : (s.setMode u).draws = s.draws := rfl
@[simp] theorem storageByte_setMode (s : State) (u : Mode) (n : Nat) : (s.setMode u).storageByte n = s.storageByte n := rfl
@[simp] theorem storageWord_setMode (s : State) (u : Mode) (n : Nat) : (s.setMode u).storageWord n = s.storageWord n := rfl
@[simp] theorem handler_setMode (s : State) (u : Mode) (n : Nat) : (s.setMode u).handler n = s.handler n := rfl
@[simp] theorem dataCheck_setMode (s : State) (u : Mode) (m : Mode) (k : AccessKind) (w : Word) (l : Width) : (s.setMode u).dataCheck m k w l = s.dataCheck m k w l := rfl
theorem coreAt_setMode_of_ne (s : State) (u : Mode) (d : CoreId) (h : d ≠ s.turn) : (s.setMode u).coreAt d = s.coreAt d := by
  simp [State.setMode, h]
@[simp] theorem x_setMode (s : State) (u : Mode) (j : XReg) : (s.setMode u).x j = s.x j := by
  simp [State.x, State.setMode]
@[simp] theorem e_setMode (s : State) (u : Mode) (j : EReg) : (s.setMode u).e j = s.e j := by
  simp [State.e, State.setMode]
@[simp] theorem pc_setMode (s : State) (u : Mode) : (s.setMode u).pc = s.pc := by
  simp [State.pc, State.setMode]
@[simp] theorem exc_setMode (s : State) (u : Mode) : (s.setMode u).exc = s.exc := by
  simp [State.exc, State.setMode]
@[simp] theorem mode_setMode (s : State) (u : Mode) : (s.setMode u).mode = u := by
  simp [State.mode, State.setMode]
@[simp] theorem halted_setMode (s : State) (u : Mode) : (s.setMode u).halted = s.halted := by
  simp [State.halted, State.setMode]
@[simp] theorem pending_setMode (s : State) (u : Mode) (p : IrqSource) : (s.setMode u).pending p = s.pending p := by
  simp [State.pending, State.setMode]
@[simp] theorem runState_setMode (s : State) (u : Mode) : (s.setMode u).runState = s.runState := by
  simp [State.runState, State.setMode]
@[simp] theorem coreXclk_setMode (s : State) (u : Mode) : (s.setMode u).coreXclk = s.coreXclk := by
  simp [State.coreXclk, State.setMode]
@[simp] theorem coreIntr_setMode (s : State) (u : Mode) : (s.setMode u).coreIntr = s.coreIntr := by
  simp [State.coreIntr, State.setMode]

/-! ## setHalted -/

@[simp] theorem mem_setHalted (s : State) (b : Bool) : (s.setHalted b).mem = s.mem := rfl
@[simp] theorem sysDclk_setHalted (s : State) (b : Bool) : (s.setHalted b).sysDclk = s.sysDclk := rfl
@[simp] theorem bootAddr_setHalted (s : State) (b : Bool) : (s.setHalted b).bootAddr = s.bootAddr := rfl
@[simp] theorem cfg_setHalted (s : State) (b : Bool) : (s.setHalted b).cfg = s.cfg := rfl
@[simp] theorem turn_setHalted (s : State) (b : Bool) : (s.setHalted b).turn = s.turn := rfl
@[simp] theorem script_setHalted (s : State) (b : Bool) : (s.setHalted b).script = s.script := rfl
@[simp] theorem draws_setHalted (s : State) (b : Bool) : (s.setHalted b).draws = s.draws := rfl
@[simp] theorem storageByte_setHalted (s : State) (b : Bool) (n : Nat) : (s.setHalted b).storageByte n = s.storageByte n := rfl
@[simp] theorem storageWord_setHalted (s : State) (b : Bool) (n : Nat) : (s.setHalted b).storageWord n = s.storageWord n := rfl
@[simp] theorem handler_setHalted (s : State) (b : Bool) (n : Nat) : (s.setHalted b).handler n = s.handler n := rfl
@[simp] theorem dataCheck_setHalted (s : State) (b : Bool) (m : Mode) (k : AccessKind) (w : Word) (l : Width) : (s.setHalted b).dataCheck m k w l = s.dataCheck m k w l := rfl
theorem coreAt_setHalted_of_ne (s : State) (b : Bool) (d : CoreId) (h : d ≠ s.turn) : (s.setHalted b).coreAt d = s.coreAt d := by
  simp [State.setHalted, h]
@[simp] theorem x_setHalted (s : State) (b : Bool) (j : XReg) : (s.setHalted b).x j = s.x j := by
  simp [State.x, State.setHalted]
@[simp] theorem e_setHalted (s : State) (b : Bool) (j : EReg) : (s.setHalted b).e j = s.e j := by
  simp [State.e, State.setHalted]
@[simp] theorem pc_setHalted (s : State) (b : Bool) : (s.setHalted b).pc = s.pc := by
  simp [State.pc, State.setHalted]
@[simp] theorem exc_setHalted (s : State) (b : Bool) : (s.setHalted b).exc = s.exc := by
  simp [State.exc, State.setHalted]
@[simp] theorem mode_setHalted (s : State) (b : Bool) : (s.setHalted b).mode = s.mode := by
  simp [State.mode, State.setHalted]
@[simp] theorem halted_setHalted (s : State) (b : Bool) : (s.setHalted b).halted = b := by
  simp [State.halted, State.setHalted]
@[simp] theorem pending_setHalted (s : State) (b : Bool) (p : IrqSource) : (s.setHalted b).pending p = s.pending p := by
  simp [State.pending, State.setHalted]
@[simp] theorem runState_setHalted (s : State) (b : Bool) : (s.setHalted b).runState = s.runState := by
  simp [State.runState, State.setHalted]
@[simp] theorem coreXclk_setHalted (s : State) (b : Bool) : (s.setHalted b).coreXclk = s.coreXclk := by
  simp [State.coreXclk, State.setHalted]
@[simp] theorem coreIntr_setHalted (s : State) (b : Bool) : (s.setHalted b).coreIntr = s.coreIntr := by
  simp [State.coreIntr, State.setHalted]

/-! ## setPending -/

@[simp] theorem mem_setPending (s : State) (q : IrqSource) (b : Bool) : (s.setPending q b).mem = s.mem := rfl
@[simp] theorem sysDclk_setPending (s : State) (q : IrqSource) (b : Bool) : (s.setPending q b).sysDclk = s.sysDclk := rfl
@[simp] theorem bootAddr_setPending (s : State) (q : IrqSource) (b : Bool) : (s.setPending q b).bootAddr = s.bootAddr := rfl
@[simp] theorem cfg_setPending (s : State) (q : IrqSource) (b : Bool) : (s.setPending q b).cfg = s.cfg := rfl
@[simp] theorem turn_setPending (s : State) (q : IrqSource) (b : Bool) : (s.setPending q b).turn = s.turn := rfl
@[simp] theorem script_setPending (s : State) (q : IrqSource) (b : Bool) : (s.setPending q b).script = s.script := rfl
@[simp] theorem draws_setPending (s : State) (q : IrqSource) (b : Bool) : (s.setPending q b).draws = s.draws := rfl
@[simp] theorem storageByte_setPending (s : State) (q : IrqSource) (b : Bool) (n : Nat) : (s.setPending q b).storageByte n = s.storageByte n := rfl
@[simp] theorem storageWord_setPending (s : State) (q : IrqSource) (b : Bool) (n : Nat) : (s.setPending q b).storageWord n = s.storageWord n := rfl
@[simp] theorem handler_setPending (s : State) (q : IrqSource) (b : Bool) (n : Nat) : (s.setPending q b).handler n = s.handler n := rfl
@[simp] theorem dataCheck_setPending (s : State) (q : IrqSource) (b : Bool) (m : Mode) (k : AccessKind) (w : Word) (l : Width) : (s.setPending q b).dataCheck m k w l = s.dataCheck m k w l := rfl
theorem coreAt_setPending_of_ne (s : State) (q : IrqSource) (b : Bool) (d : CoreId) (h : d ≠ s.turn) : (s.setPending q b).coreAt d = s.coreAt d := by
  simp [State.setPending, h]
@[simp] theorem x_setPending (s : State) (q : IrqSource) (b : Bool) (j : XReg) : (s.setPending q b).x j = s.x j := by
  simp [State.x, State.setPending]
@[simp] theorem e_setPending (s : State) (q : IrqSource) (b : Bool) (j : EReg) : (s.setPending q b).e j = s.e j := by
  simp [State.e, State.setPending]
@[simp] theorem pc_setPending (s : State) (q : IrqSource) (b : Bool) : (s.setPending q b).pc = s.pc := by
  simp [State.pc, State.setPending]
@[simp] theorem exc_setPending (s : State) (q : IrqSource) (b : Bool) : (s.setPending q b).exc = s.exc := by
  simp [State.exc, State.setPending]
@[simp] theorem mode_setPending (s : State) (q : IrqSource) (b : Bool) : (s.setPending q b).mode = s.mode := by
  simp [State.mode, State.setPending]
@[simp] theorem halted_setPending (s : State) (q : IrqSource) (b : Bool) : (s.setPending q b).halted = s.halted := by
  simp [State.halted, State.setPending]
@[simp] theorem index_inj (p q : IrqSource) : p.index = q.index ↔ p = q := by
  cases p <;> cases q <;> decide

@[simp] theorem pending_setPending (s : State) (q : IrqSource) (b : Bool) (p : IrqSource) :
    (s.setPending q b).pending p = if p = q then b else s.pending p := by
  simp only [State.pending, State.setPending, core_setCore, Fin.getElem_fin, Vector.getElem_set]
  by_cases h : p = q
  · simp [h]
  · rw [if_neg h, if_neg fun hv => h ((index_inj p q).mp (Fin.ext hv.symm))]
@[simp] theorem runState_setPending (s : State) (q : IrqSource) (b : Bool) : (s.setPending q b).runState = s.runState := by
  simp [State.runState, State.setPending]
@[simp] theorem coreXclk_setPending (s : State) (q : IrqSource) (b : Bool) : (s.setPending q b).coreXclk = s.coreXclk := by
  simp [State.coreXclk, State.setPending]
@[simp] theorem coreIntr_setPending (s : State) (q : IrqSource) (b : Bool) : (s.setPending q b).coreIntr = s.coreIntr := by
  simp [State.coreIntr, State.setPending]

/-! ## setRunState -/

@[simp] theorem mem_setRunState (s : State) (r : RunState) : (s.setRunState r).mem = s.mem := rfl
@[simp] theorem sysDclk_setRunState (s : State) (r : RunState) : (s.setRunState r).sysDclk = s.sysDclk := rfl
@[simp] theorem bootAddr_setRunState (s : State) (r : RunState) : (s.setRunState r).bootAddr = s.bootAddr := rfl
@[simp] theorem cfg_setRunState (s : State) (r : RunState) : (s.setRunState r).cfg = s.cfg := rfl
@[simp] theorem turn_setRunState (s : State) (r : RunState) : (s.setRunState r).turn = s.turn := rfl
@[simp] theorem script_setRunState (s : State) (r : RunState) : (s.setRunState r).script = s.script := rfl
@[simp] theorem draws_setRunState (s : State) (r : RunState) : (s.setRunState r).draws = s.draws := rfl
@[simp] theorem storageByte_setRunState (s : State) (r : RunState) (n : Nat) : (s.setRunState r).storageByte n = s.storageByte n := rfl
@[simp] theorem storageWord_setRunState (s : State) (r : RunState) (n : Nat) : (s.setRunState r).storageWord n = s.storageWord n := rfl
@[simp] theorem handler_setRunState (s : State) (r : RunState) (n : Nat) : (s.setRunState r).handler n = s.handler n := rfl
@[simp] theorem dataCheck_setRunState (s : State) (r : RunState) (m : Mode) (k : AccessKind) (w : Word) (l : Width) : (s.setRunState r).dataCheck m k w l = s.dataCheck m k w l := rfl
theorem coreAt_setRunState_of_ne (s : State) (r : RunState) (d : CoreId) (h : d ≠ s.turn) : (s.setRunState r).coreAt d = s.coreAt d := by
  simp [State.setRunState, h]
@[simp] theorem x_setRunState (s : State) (r : RunState) (j : XReg) : (s.setRunState r).x j = s.x j := by
  simp [State.x, State.setRunState]
@[simp] theorem e_setRunState (s : State) (r : RunState) (j : EReg) : (s.setRunState r).e j = s.e j := by
  simp [State.e, State.setRunState]
@[simp] theorem pc_setRunState (s : State) (r : RunState) : (s.setRunState r).pc = s.pc := by
  simp [State.pc, State.setRunState]
@[simp] theorem exc_setRunState (s : State) (r : RunState) : (s.setRunState r).exc = s.exc := by
  simp [State.exc, State.setRunState]
@[simp] theorem mode_setRunState (s : State) (r : RunState) : (s.setRunState r).mode = s.mode := by
  simp [State.mode, State.setRunState]
@[simp] theorem halted_setRunState (s : State) (r : RunState) : (s.setRunState r).halted = s.halted := by
  simp [State.halted, State.setRunState]
@[simp] theorem pending_setRunState (s : State) (r : RunState) (p : IrqSource) : (s.setRunState r).pending p = s.pending p := by
  simp [State.pending, State.setRunState]
@[simp] theorem runState_setRunState (s : State) (r : RunState) : (s.setRunState r).runState = r := by
  simp [State.runState, State.setRunState]
@[simp] theorem coreXclk_setRunState (s : State) (r : RunState) : (s.setRunState r).coreXclk = s.coreXclk := by
  simp [State.coreXclk, State.setRunState]
@[simp] theorem coreIntr_setRunState (s : State) (r : RunState) : (s.setRunState r).coreIntr = s.coreIntr := by
  simp [State.coreIntr, State.setRunState]

/-! ## setCoreXclk -/

@[simp] theorem mem_setCoreXclk (s : State) (b : Byte) : (s.setCoreXclk b).mem = s.mem := rfl
@[simp] theorem sysDclk_setCoreXclk (s : State) (b : Byte) : (s.setCoreXclk b).sysDclk = s.sysDclk := rfl
@[simp] theorem bootAddr_setCoreXclk (s : State) (b : Byte) : (s.setCoreXclk b).bootAddr = s.bootAddr := rfl
@[simp] theorem cfg_setCoreXclk (s : State) (b : Byte) : (s.setCoreXclk b).cfg = s.cfg := rfl
@[simp] theorem turn_setCoreXclk (s : State) (b : Byte) : (s.setCoreXclk b).turn = s.turn := rfl
@[simp] theorem script_setCoreXclk (s : State) (b : Byte) : (s.setCoreXclk b).script = s.script := rfl
@[simp] theorem draws_setCoreXclk (s : State) (b : Byte) : (s.setCoreXclk b).draws = s.draws := rfl
@[simp] theorem storageByte_setCoreXclk (s : State) (b : Byte) (n : Nat) : (s.setCoreXclk b).storageByte n = s.storageByte n := rfl
@[simp] theorem storageWord_setCoreXclk (s : State) (b : Byte) (n : Nat) : (s.setCoreXclk b).storageWord n = s.storageWord n := rfl
@[simp] theorem handler_setCoreXclk (s : State) (b : Byte) (n : Nat) : (s.setCoreXclk b).handler n = s.handler n := rfl
@[simp] theorem dataCheck_setCoreXclk (s : State) (b : Byte) (m : Mode) (k : AccessKind) (w : Word) (l : Width) : (s.setCoreXclk b).dataCheck m k w l = s.dataCheck m k w l := rfl
theorem coreAt_setCoreXclk_of_ne (s : State) (b : Byte) (d : CoreId) (h : d ≠ s.turn) : (s.setCoreXclk b).coreAt d = s.coreAt d := by
  simp [State.setCoreXclk, h]
@[simp] theorem x_setCoreXclk (s : State) (b : Byte) (j : XReg) : (s.setCoreXclk b).x j = s.x j := by
  simp [State.x, State.setCoreXclk]
@[simp] theorem e_setCoreXclk (s : State) (b : Byte) (j : EReg) : (s.setCoreXclk b).e j = s.e j := by
  simp [State.e, State.setCoreXclk]
@[simp] theorem pc_setCoreXclk (s : State) (b : Byte) : (s.setCoreXclk b).pc = s.pc := by
  simp [State.pc, State.setCoreXclk]
@[simp] theorem exc_setCoreXclk (s : State) (b : Byte) : (s.setCoreXclk b).exc = s.exc := by
  simp [State.exc, State.setCoreXclk]
@[simp] theorem mode_setCoreXclk (s : State) (b : Byte) : (s.setCoreXclk b).mode = s.mode := by
  simp [State.mode, State.setCoreXclk]
@[simp] theorem halted_setCoreXclk (s : State) (b : Byte) : (s.setCoreXclk b).halted = s.halted := by
  simp [State.halted, State.setCoreXclk]
@[simp] theorem pending_setCoreXclk (s : State) (b : Byte) (p : IrqSource) : (s.setCoreXclk b).pending p = s.pending p := by
  simp [State.pending, State.setCoreXclk]
@[simp] theorem runState_setCoreXclk (s : State) (b : Byte) : (s.setCoreXclk b).runState = s.runState := by
  simp [State.runState, State.setCoreXclk]
@[simp] theorem coreXclk_setCoreXclk (s : State) (b : Byte) : (s.setCoreXclk b).coreXclk = b := by
  simp [State.coreXclk, State.setCoreXclk]
@[simp] theorem coreIntr_setCoreXclk (s : State) (b : Byte) : (s.setCoreXclk b).coreIntr = s.coreIntr := by
  simp [State.coreIntr, State.setCoreXclk]

/-! ## setCoreIntr -/

@[simp] theorem mem_setCoreIntr (s : State) (v : Word) : (s.setCoreIntr v).mem = s.mem := rfl
@[simp] theorem sysDclk_setCoreIntr (s : State) (v : Word) : (s.setCoreIntr v).sysDclk = s.sysDclk := rfl
@[simp] theorem bootAddr_setCoreIntr (s : State) (v : Word) : (s.setCoreIntr v).bootAddr = s.bootAddr := rfl
@[simp] theorem cfg_setCoreIntr (s : State) (v : Word) : (s.setCoreIntr v).cfg = s.cfg := rfl
@[simp] theorem turn_setCoreIntr (s : State) (v : Word) : (s.setCoreIntr v).turn = s.turn := rfl
@[simp] theorem script_setCoreIntr (s : State) (v : Word) : (s.setCoreIntr v).script = s.script := rfl
@[simp] theorem draws_setCoreIntr (s : State) (v : Word) : (s.setCoreIntr v).draws = s.draws := rfl
@[simp] theorem storageByte_setCoreIntr (s : State) (v : Word) (n : Nat) : (s.setCoreIntr v).storageByte n = s.storageByte n := rfl
@[simp] theorem storageWord_setCoreIntr (s : State) (v : Word) (n : Nat) : (s.setCoreIntr v).storageWord n = s.storageWord n := rfl
@[simp] theorem handler_setCoreIntr (s : State) (v : Word) (n : Nat) : (s.setCoreIntr v).handler n = s.handler n := rfl
@[simp] theorem dataCheck_setCoreIntr (s : State) (v : Word) (m : Mode) (k : AccessKind) (w : Word) (l : Width) : (s.setCoreIntr v).dataCheck m k w l = s.dataCheck m k w l := rfl
theorem coreAt_setCoreIntr_of_ne (s : State) (v : Word) (d : CoreId) (h : d ≠ s.turn) : (s.setCoreIntr v).coreAt d = s.coreAt d := by
  simp [State.setCoreIntr, h]
@[simp] theorem x_setCoreIntr (s : State) (v : Word) (j : XReg) : (s.setCoreIntr v).x j = s.x j := by
  simp [State.x, State.setCoreIntr]
@[simp] theorem e_setCoreIntr (s : State) (v : Word) (j : EReg) : (s.setCoreIntr v).e j = s.e j := by
  simp [State.e, State.setCoreIntr]
@[simp] theorem pc_setCoreIntr (s : State) (v : Word) : (s.setCoreIntr v).pc = s.pc := by
  simp [State.pc, State.setCoreIntr]
@[simp] theorem exc_setCoreIntr (s : State) (v : Word) : (s.setCoreIntr v).exc = s.exc := by
  simp [State.exc, State.setCoreIntr]
@[simp] theorem mode_setCoreIntr (s : State) (v : Word) : (s.setCoreIntr v).mode = s.mode := by
  simp [State.mode, State.setCoreIntr]
@[simp] theorem halted_setCoreIntr (s : State) (v : Word) : (s.setCoreIntr v).halted = s.halted := by
  simp [State.halted, State.setCoreIntr]
@[simp] theorem pending_setCoreIntr (s : State) (v : Word) (p : IrqSource) : (s.setCoreIntr v).pending p = s.pending p := by
  simp [State.pending, State.setCoreIntr]
@[simp] theorem runState_setCoreIntr (s : State) (v : Word) : (s.setCoreIntr v).runState = s.runState := by
  simp [State.runState, State.setCoreIntr]
@[simp] theorem coreXclk_setCoreIntr (s : State) (v : Word) : (s.setCoreIntr v).coreXclk = s.coreXclk := by
  simp [State.coreXclk, State.setCoreIntr]
@[simp] theorem coreIntr_setCoreIntr (s : State) (v : Word) : (s.setCoreIntr v).coreIntr = v := by
  simp [State.coreIntr, State.setCoreIntr]

/-! ## advance -/

@[simp] theorem pc_advance (s : State) : s.advance.pc = s.pc + 4#32 := by
  simp [State.advance]
@[simp] theorem x_advance (s : State) (j : XReg) : s.advance.x j = s.x j := by
  simp [State.advance]
@[simp] theorem e_advance (s : State) (j : EReg) : s.advance.e j = s.e j := by
  simp [State.advance]
@[simp] theorem exc_advance (s : State) : s.advance.exc = s.exc := by
  simp [State.advance]
@[simp] theorem mode_advance (s : State) : s.advance.mode = s.mode := by
  simp [State.advance]
@[simp] theorem halted_advance (s : State) : s.advance.halted = s.halted := by
  simp [State.advance]
@[simp] theorem pending_advance (s : State) (p : IrqSource) : s.advance.pending p = s.pending p := by
  simp [State.advance]
@[simp] theorem runState_advance (s : State) : s.advance.runState = s.runState := by
  simp [State.advance]
@[simp] theorem coreXclk_advance (s : State) : s.advance.coreXclk = s.coreXclk := by
  simp [State.advance]
@[simp] theorem coreIntr_advance (s : State) : s.advance.coreIntr = s.coreIntr := by
  simp [State.advance]
@[simp] theorem mem_advance (s : State) : s.advance.mem = s.mem := by
  simp [State.advance]
@[simp] theorem sysDclk_advance (s : State) : s.advance.sysDclk = s.sysDclk := by
  simp [State.advance]
@[simp] theorem bootAddr_advance (s : State) : s.advance.bootAddr = s.bootAddr := by
  simp [State.advance]
@[simp] theorem cfg_advance (s : State) : s.advance.cfg = s.cfg := by
  simp [State.advance]
@[simp] theorem turn_advance (s : State) : s.advance.turn = s.turn := by
  simp [State.advance]
@[simp] theorem script_advance (s : State) : s.advance.script = s.script := by
  simp [State.advance]
@[simp] theorem draws_advance (s : State) : s.advance.draws = s.draws := by
  simp [State.advance]
@[simp] theorem storageByte_advance (s : State) (n : Nat) : s.advance.storageByte n = s.storageByte n := by
  simp [State.advance]
@[simp] theorem storageWord_advance (s : State) (n : Nat) : s.advance.storageWord n = s.storageWord n := by
  simp [State.advance]
@[simp] theorem handler_advance (s : State) (n : Nat) : s.advance.handler n = s.handler n := by
  simp [State.advance]
@[simp] theorem dataCheck_advance (s : State) (m : Mode) (k : AccessKind) (w : Word) (l : Width) : s.advance.dataCheck m k w l = s.dataCheck m k w l := by
  simp [State.advance]
theorem coreAt_advance_of_ne (s : State) (d : CoreId) (h : d ≠ s.turn) : s.advance.coreAt d = s.coreAt d := by
  simp [State.advance, coreAt_setPc_of_ne, h]

/-! ## setMem -/

@[simp] theorem x_setMem (s : State) (c : Memory) (j : XReg) : (s.setMem c).x j = s.x j := rfl
@[simp] theorem e_setMem (s : State) (c : Memory) (j : EReg) : (s.setMem c).e j = s.e j := rfl
@[simp] theorem pc_setMem (s : State) (c : Memory) : (s.setMem c).pc = s.pc := rfl
@[simp] theorem exc_setMem (s : State) (c : Memory) : (s.setMem c).exc = s.exc := rfl
@[simp] theorem mode_setMem (s : State) (c : Memory) : (s.setMem c).mode = s.mode := rfl
@[simp] theorem halted_setMem (s : State) (c : Memory) : (s.setMem c).halted = s.halted := rfl
@[simp] theorem pending_setMem (s : State) (c : Memory) (p : IrqSource) : (s.setMem c).pending p = s.pending p := rfl
@[simp] theorem runState_setMem (s : State) (c : Memory) : (s.setMem c).runState = s.runState := rfl
@[simp] theorem coreXclk_setMem (s : State) (c : Memory) : (s.setMem c).coreXclk = s.coreXclk := rfl
@[simp] theorem coreIntr_setMem (s : State) (c : Memory) : (s.setMem c).coreIntr = s.coreIntr := rfl
@[simp] theorem sysDclk_setMem (s : State) (c : Memory) : (s.setMem c).sysDclk = s.sysDclk := rfl
@[simp] theorem bootAddr_setMem (s : State) (c : Memory) : (s.setMem c).bootAddr = s.bootAddr := rfl
@[simp] theorem cfg_setMem (s : State) (c : Memory) : (s.setMem c).cfg = s.cfg := rfl
@[simp] theorem turn_setMem (s : State) (c : Memory) : (s.setMem c).turn = s.turn := rfl
@[simp] theorem script_setMem (s : State) (c : Memory) : (s.setMem c).script = s.script := rfl
@[simp] theorem draws_setMem (s : State) (c : Memory) : (s.setMem c).draws = s.draws := rfl
@[simp] theorem dataCheck_setMem (s : State) (c : Memory) (m : Mode) (k : AccessKind) (w : Word) (l : Width) : (s.setMem c).dataCheck m k w l = s.dataCheck m k w l := rfl
@[simp] theorem coreAt_setMem (s : State) (c : Memory) (d : CoreId) : (s.setMem c).coreAt d = s.coreAt d := rfl
@[simp] theorem mem_setMem (s : State) (c : Memory) : (s.setMem c).mem = c := rfl

/-! ## setSysDclk -/

@[simp] theorem x_setSysDclk (s : State) (b : Byte) (j : XReg) : (s.setSysDclk b).x j = s.x j := rfl
@[simp] theorem e_setSysDclk (s : State) (b : Byte) (j : EReg) : (s.setSysDclk b).e j = s.e j := rfl
@[simp] theorem pc_setSysDclk (s : State) (b : Byte) : (s.setSysDclk b).pc = s.pc := rfl
@[simp] theorem exc_setSysDclk (s : State) (b : Byte) : (s.setSysDclk b).exc = s.exc := rfl
@[simp] theorem mode_setSysDclk (s : State) (b : Byte) : (s.setSysDclk b).mode = s.mode := rfl
@[simp] theorem halted_setSysDclk (s : State) (b : Byte) : (s.setSysDclk b).halted = s.halted := rfl
@[simp] theorem pending_setSysDclk (s : State) (b : Byte) (p : IrqSource) : (s.setSysDclk b).pending p = s.pending p := rfl
@[simp] theorem runState_setSysDclk (s : State) (b : Byte) : (s.setSysDclk b).runState = s.runState := rfl
@[simp] theorem coreXclk_setSysDclk (s : State) (b : Byte) : (s.setSysDclk b).coreXclk = s.coreXclk := rfl
@[simp] theorem coreIntr_setSysDclk (s : State) (b : Byte) : (s.setSysDclk b).coreIntr = s.coreIntr := rfl
@[simp] theorem mem_setSysDclk (s : State) (b : Byte) : (s.setSysDclk b).mem = s.mem := rfl
@[simp] theorem bootAddr_setSysDclk (s : State) (b : Byte) : (s.setSysDclk b).bootAddr = s.bootAddr := rfl
@[simp] theorem cfg_setSysDclk (s : State) (b : Byte) : (s.setSysDclk b).cfg = s.cfg := rfl
@[simp] theorem turn_setSysDclk (s : State) (b : Byte) : (s.setSysDclk b).turn = s.turn := rfl
@[simp] theorem script_setSysDclk (s : State) (b : Byte) : (s.setSysDclk b).script = s.script := rfl
@[simp] theorem draws_setSysDclk (s : State) (b : Byte) : (s.setSysDclk b).draws = s.draws := rfl
@[simp] theorem storageByte_setSysDclk (s : State) (b : Byte) (n : Nat) : (s.setSysDclk b).storageByte n = s.storageByte n := rfl
@[simp] theorem storageWord_setSysDclk (s : State) (b : Byte) (n : Nat) : (s.setSysDclk b).storageWord n = s.storageWord n := rfl
@[simp] theorem handler_setSysDclk (s : State) (b : Byte) (n : Nat) : (s.setSysDclk b).handler n = s.handler n := rfl
@[simp] theorem dataCheck_setSysDclk (s : State) (b : Byte) (m : Mode) (k : AccessKind) (w : Word) (l : Width) : (s.setSysDclk b).dataCheck m k w l = s.dataCheck m k w l := rfl
@[simp] theorem coreAt_setSysDclk (s : State) (b : Byte) (d : CoreId) : (s.setSysDclk b).coreAt d = s.coreAt d := rfl
@[simp] theorem sysDclk_setSysDclk (s : State) (b : Byte) : (s.setSysDclk b).sysDclk = b := rfl

/-! ## setBootAddr -/

@[simp] theorem x_setBootAddr (s : State) (i : Fin 3) (v : Word) (j : XReg) : (s.setBootAddr i v).x j = s.x j := rfl
@[simp] theorem e_setBootAddr (s : State) (i : Fin 3) (v : Word) (j : EReg) : (s.setBootAddr i v).e j = s.e j := rfl
@[simp] theorem pc_setBootAddr (s : State) (i : Fin 3) (v : Word) : (s.setBootAddr i v).pc = s.pc := rfl
@[simp] theorem exc_setBootAddr (s : State) (i : Fin 3) (v : Word) : (s.setBootAddr i v).exc = s.exc := rfl
@[simp] theorem mode_setBootAddr (s : State) (i : Fin 3) (v : Word) : (s.setBootAddr i v).mode = s.mode := rfl
@[simp] theorem halted_setBootAddr (s : State) (i : Fin 3) (v : Word) : (s.setBootAddr i v).halted = s.halted := rfl
@[simp] theorem pending_setBootAddr (s : State) (i : Fin 3) (v : Word) (p : IrqSource) : (s.setBootAddr i v).pending p = s.pending p := rfl
@[simp] theorem runState_setBootAddr (s : State) (i : Fin 3) (v : Word) : (s.setBootAddr i v).runState = s.runState := rfl
@[simp] theorem coreXclk_setBootAddr (s : State) (i : Fin 3) (v : Word) : (s.setBootAddr i v).coreXclk = s.coreXclk := rfl
@[simp] theorem coreIntr_setBootAddr (s : State) (i : Fin 3) (v : Word) : (s.setBootAddr i v).coreIntr = s.coreIntr := rfl
@[simp] theorem mem_setBootAddr (s : State) (i : Fin 3) (v : Word) : (s.setBootAddr i v).mem = s.mem := rfl
@[simp] theorem sysDclk_setBootAddr (s : State) (i : Fin 3) (v : Word) : (s.setBootAddr i v).sysDclk = s.sysDclk := rfl
@[simp] theorem cfg_setBootAddr (s : State) (i : Fin 3) (v : Word) : (s.setBootAddr i v).cfg = s.cfg := rfl
@[simp] theorem turn_setBootAddr (s : State) (i : Fin 3) (v : Word) : (s.setBootAddr i v).turn = s.turn := rfl
@[simp] theorem script_setBootAddr (s : State) (i : Fin 3) (v : Word) : (s.setBootAddr i v).script = s.script := rfl
@[simp] theorem draws_setBootAddr (s : State) (i : Fin 3) (v : Word) : (s.setBootAddr i v).draws = s.draws := rfl
@[simp] theorem storageByte_setBootAddr (s : State) (i : Fin 3) (v : Word) (n : Nat) : (s.setBootAddr i v).storageByte n = s.storageByte n := rfl
@[simp] theorem storageWord_setBootAddr (s : State) (i : Fin 3) (v : Word) (n : Nat) : (s.setBootAddr i v).storageWord n = s.storageWord n := rfl
@[simp] theorem handler_setBootAddr (s : State) (i : Fin 3) (v : Word) (n : Nat) : (s.setBootAddr i v).handler n = s.handler n := rfl
@[simp] theorem dataCheck_setBootAddr (s : State) (i : Fin 3) (v : Word) (m : Mode) (k : AccessKind) (w : Word) (l : Width) : (s.setBootAddr i v).dataCheck m k w l = s.dataCheck m k w l := rfl
@[simp] theorem coreAt_setBootAddr (s : State) (i : Fin 3) (v : Word) (d : CoreId) : (s.setBootAddr i v).coreAt d = s.coreAt d := rfl
@[simp] theorem bootAddr_setBootAddr (s : State) (i : Fin 3) (v : Word) (j : Fin 3) :
    (s.setBootAddr i v).bootAddr[j] = if j = i then v else s.bootAddr[j] := by
  simp only [State.setBootAddr, Fin.getElem_fin, Vector.getElem_set]
  by_cases h : j = i
  · simp [h]
  · rw [if_neg h, if_neg fun hv => h (Fin.ext hv.symm)]

/-! ## countDraw -/

@[simp] theorem x_countDraw (s : State) (j : XReg) : s.countDraw.x j = s.x j := rfl
@[simp] theorem e_countDraw (s : State) (j : EReg) : s.countDraw.e j = s.e j := rfl
@[simp] theorem pc_countDraw (s : State) : s.countDraw.pc = s.pc := rfl
@[simp] theorem exc_countDraw (s : State) : s.countDraw.exc = s.exc := rfl
@[simp] theorem mode_countDraw (s : State) : s.countDraw.mode = s.mode := rfl
@[simp] theorem halted_countDraw (s : State) : s.countDraw.halted = s.halted := rfl
@[simp] theorem pending_countDraw (s : State) (p : IrqSource) : s.countDraw.pending p = s.pending p := rfl
@[simp] theorem runState_countDraw (s : State) : s.countDraw.runState = s.runState := rfl
@[simp] theorem coreXclk_countDraw (s : State) : s.countDraw.coreXclk = s.coreXclk := rfl
@[simp] theorem coreIntr_countDraw (s : State) : s.countDraw.coreIntr = s.coreIntr := rfl
@[simp] theorem mem_countDraw (s : State) : s.countDraw.mem = s.mem := rfl
@[simp] theorem sysDclk_countDraw (s : State) : s.countDraw.sysDclk = s.sysDclk := rfl
@[simp] theorem bootAddr_countDraw (s : State) : s.countDraw.bootAddr = s.bootAddr := rfl
@[simp] theorem cfg_countDraw (s : State) : s.countDraw.cfg = s.cfg := rfl
@[simp] theorem turn_countDraw (s : State) : s.countDraw.turn = s.turn := rfl
@[simp] theorem script_countDraw (s : State) : s.countDraw.script = s.script := rfl
@[simp] theorem storageByte_countDraw (s : State) (n : Nat) : s.countDraw.storageByte n = s.storageByte n := rfl
@[simp] theorem storageWord_countDraw (s : State) (n : Nat) : s.countDraw.storageWord n = s.storageWord n := rfl
@[simp] theorem handler_countDraw (s : State) (n : Nat) : s.countDraw.handler n = s.handler n := rfl
@[simp] theorem dataCheck_countDraw (s : State) (m : Mode) (k : AccessKind) (w : Word) (l : Width) : s.countDraw.dataCheck m k w l = s.dataCheck m k w l := rfl
@[simp] theorem coreAt_countDraw (s : State) (d : CoreId) : s.countDraw.coreAt d = s.coreAt d := rfl
@[simp] theorem draws_countDraw (s : State) : s.countDraw.draws = s.draws + 1 := rfl

end Sys2Proof.Machine
end

