-- ==== Sys2Proof/Laws/Ops.lean ====
section
/-! SUPPORT. For each shared operation, what it can do, said once: the control-register accesses, the data
accesses, the stack, trap entry and the end of an instruction. -/

namespace Sys2Proof.Machine

open Sys2Proof

/-! ## Power control and the control-register bytes -/

theorem cregByteOf_sysDclk (cfg : Config) : cregByteOf cfg 0x3F00 = some .sysDclk := by
  simp [cregByteOf, crBase]

theorem cregByteOf_coreXclk (cfg : Config) : cregByteOf cfg 0x3F01 = some .coreXclk := by
  simp [cregByteOf, crBase]

theorem cregByteOf_coreIntr (cfg : Config) {k : Nat} (hk : k < 4) :
    cregByteOf cfg (0x3F02 + k) = some (.coreIntr k) := by
  have h := bases
  unfold cregByteOf
  rw [if_neg (by omega), if_neg (by omega), if_pos (by omega),
    show 0x3F02 + k - (crBase + 0x02) = k by omega]

theorem cregByteOf_bootAddr (cfg : Config) (n : Fin 3) {k : Nat} (hk : k < 4) :
    cregByteOf cfg (0x3F40 + 4 * n.val + k) = some (.bootAddr n k) := by
  have h := bases
  have hn := n.isLt
  have e : n = 0 ∨ n = 1 ∨ n = 2 := by omega
  unfold cregByteOf
  rw [if_neg (by omega), if_neg (by omega), if_neg (by omega)]
  obtain rfl | rfl | rfl := e
  · rw [if_pos (by simp; omega),
      show 0x3F40 + 4 * (0 : Fin 3).val + k - (crBase + 0x40) = k by simp; omega]
  · rw [if_neg (by simp; omega), if_pos (by simp; omega),
      show 0x3F40 + 4 * (1 : Fin 3).val + k - (crBase + 0x44) = k by simp; omega]
  · rw [if_neg (by simp; omega), if_neg (by simp; omega), if_pos (by simp; omega),
      show 0x3F40 + 4 * (2 : Fin 3).val + k - (crBase + 0x48) = k by simp; omega]

theorem cregByteOf_coreFlags (cfg : Config) (h : cfg.coreFlagsOffset = 0x4C) :
    cregByteOf cfg 0x3F4C = some .coreFlags := by simp [cregByteOf, crBase, h]

/-- The reserved and unlisted bytes of the control-register range, CORE_FLAGS being at its default place. -/
theorem cregByteOf_reserved (cfg : Config) (h : cfg.coreFlagsOffset = 0x4C) {n : Nat}
    (hn : (0x3F06 ≤ n ∧ n ≤ 0x3F3F) ∨ 0x3F4D ≤ n) : cregByteOf cfg n = none := by
  have hb := bases
  unfold cregByteOf
  split_ifs <;> first | rfl | omega

/-- What setting a core's power can do: start it, switch it off, or nothing. -/
theorem setPower_cases (s : State) (n : Fin 3) (on : Bool) :
    ((s.coreAt n.succ).runState = .off ∧ on = true ∧
        s.setPower n on = s.countDraw.setCoreAt n.succ
          (Core.poweredOn s.bootAddr[n] (Config.drawByte s.draws (crBase + 1)))) ∨
      ((s.coreAt n.succ).runState = .running ∧ on = false ∧
        s.setPower n on = s.setCoreAt n.succ Core.off) ∨
      (((s.coreAt n.succ).runState = .off → on = false) ∧
        ((s.coreAt n.succ).runState = .running → on = true) ∧ s.setPower n on = s) := by
  unfold State.setPower
  cases h : (s.coreAt n.succ).runState <;> cases on <;> simp

theorem coreAt_setPower_of_ne (s : State) (n : Fin 3) (on : Bool) (c : CoreId) (h : c ≠ n.succ) :
    (s.setPower n on).coreAt c = s.coreAt c := by
  obtain ⟨-, -, e⟩ | ⟨-, -, e⟩ | ⟨-, -, e⟩ := setPower_cases s n on <;> rw [e] <;>
    simp [State.countDraw, State.coreAt, State.setCoreAt]
  · exact Vector.getElem_set_ne _ _ fun hv => h (Fin.ext hv.symm)
  · exact Vector.getElem_set_ne _ _ fun hv => h (Fin.ext hv.symm)

/-- A property that both power switches keep is kept by setting the power. -/
theorem setPower_induct {P : State → Prop} {s : State} {n : Fin 3} {on : Bool} (h0 : P s)
    (hon : (s.coreAt n.succ).runState = .off →
      P (s.countDraw.setCoreAt n.succ
          (Core.poweredOn s.bootAddr[n] (Config.drawByte s.draws (crBase + 1)))))
    (hoff : (s.coreAt n.succ).runState = .running → P (s.setCoreAt n.succ Core.off)) :
    P (s.setPower n on) := by
  obtain ⟨h, -, e⟩ | ⟨h, -, e⟩ | ⟨-, -, e⟩ := setPower_cases s n on <;> rw [e]
  exacts [hon h, hoff h, h0]

@[simp] theorem mem_setPower (s : State) (n : Fin 3) (on : Bool) : (s.setPower n on).mem = s.mem :=
  setPower_induct (P := fun t => t.mem = s.mem) rfl (fun _ => rfl) (fun _ => rfl)

@[simp] theorem sysDclk_setPower (s : State) (n : Fin 3) (on : Bool) :
    (s.setPower n on).sysDclk = s.sysDclk :=
  setPower_induct (P := fun t => t.sysDclk = s.sysDclk) rfl (fun _ => rfl) (fun _ => rfl)

@[simp] theorem bootAddr_setPower (s : State) (n : Fin 3) (on : Bool) :
    (s.setPower n on).bootAddr = s.bootAddr :=
  setPower_induct (P := fun t => t.bootAddr = s.bootAddr) rfl (fun _ => rfl) (fun _ => rfl)

@[simp] theorem cfg_setPower (s : State) (n : Fin 3) (on : Bool) : (s.setPower n on).cfg = s.cfg :=
  setPower_induct (P := fun t => t.cfg = s.cfg) rfl (fun _ => rfl) (fun _ => rfl)

@[simp] theorem turn_setPower (s : State) (n : Fin 3) (on : Bool) : (s.setPower n on).turn = s.turn :=
  setPower_induct (P := fun t => t.turn = s.turn) rfl (fun _ => rfl) (fun _ => rfl)

@[simp] theorem script_setPower (s : State) (n : Fin 3) (on : Bool) :
    (s.setPower n on).script = s.script :=
  setPower_induct (P := fun t => t.script = s.script) rfl (fun _ => rfl) (fun _ => rfl)

@[simp] theorem mem_writeCoreFlags (s : State) (v : Byte) : (s.writeCoreFlags v).mem = s.mem := by
  simp [State.writeCoreFlags]

@[simp] theorem sysDclk_writeCoreFlags (s : State) (v : Byte) :
    (s.writeCoreFlags v).sysDclk = s.sysDclk := by simp [State.writeCoreFlags]

@[simp] theorem bootAddr_writeCoreFlags (s : State) (v : Byte) :
    (s.writeCoreFlags v).bootAddr = s.bootAddr := by simp [State.writeCoreFlags]

@[simp] theorem cfg_writeCoreFlags (s : State) (v : Byte) : (s.writeCoreFlags v).cfg = s.cfg := by
  simp [State.writeCoreFlags]

@[simp] theorem turn_writeCoreFlags (s : State) (v : Byte) : (s.writeCoreFlags v).turn = s.turn := by
  simp [State.writeCoreFlags]

@[simp] theorem script_writeCoreFlags (s : State) (v : Byte) :
    (s.writeCoreFlags v).script = s.script := by simp [State.writeCoreFlags]

/-- A write of CORE_FLAGS leaves core 0 as it is. -/
@[simp] theorem coreAt_zero_writeCoreFlags (s : State) (v : Byte) :
    (s.writeCoreFlags v).coreAt 0 = s.coreAt 0 := by
  simp only [State.writeCoreFlags]
  rw [coreAt_setPower_of_ne _ _ _ _ (by decide), coreAt_setPower_of_ne _ _ _ _ (by decide),
    coreAt_setPower_of_ne _ _ _ _ (by decide)]

/-! The layouts of the control registers. -/

@[simp] theorem evalBits_bit {n : Nat} (v : BitVec n) (i : Fin n) :
    evalBits v (.bit i) = v.getLsbD i.val := rfl

@[simp] theorem evalBits_const {n : Nat} (v : BitVec n) (b : Bool) : evalBits v (.const b) = b := rfl

@[simp] theorem evalBits_not {n : Nat} (v : BitVec n) (f : BitFn n) :
    evalBits v (.not f) = !evalBits v f := rfl

@[simp] theorem evalBits_and {n : Nat} (v : BitVec n) (f g : BitFn n) :
    evalBits v (.and f g) = (evalBits v f && evalBits v g) := rfl

@[simp] theorem evalBits_or {n : Nat} (v : BitVec n) (f g : BitFn n) :
    evalBits v (.or f g) = (evalBits v f || evalBits v g) := rfl

theorem getLsbD_poweredCores (s : State) (c : CoreId) :
    s.poweredCores.getLsbD c.val = decide ((s.coreAt c).runState ≠ .off) := by
  simp [State.poweredCores]

theorem getLsbD_coreFlags (s : State) (k : Fin 8) :
    s.coreFlags.getLsbD k.val = evalBits s.poweredCores s.cfg.coreFlagsRead[k] := by
  simp [State.coreFlags]

/-- The effect of a CORE_FLAGS write on core n + 1 is that of its own part of the layout alone. -/
theorem coreAt_writeCoreFlags (s : State) (v : Byte) (n : Fin 3) :
    ∃ t : State, t.coreAt n.succ = s.coreAt n.succ ∧ t.bootAddr = s.bootAddr ∧
      (s.writeCoreFlags v).coreAt n.succ =
        (t.setPower n (evalBits v s.cfg.coreFlagsPower[n])).coreAt n.succ := by
  simp only [State.writeCoreFlags]
  match n with
  | 0 =>
    refine ⟨s, rfl, rfl, ?_⟩
    rw [coreAt_setPower_of_ne _ _ _ _ (by decide), coreAt_setPower_of_ne _ _ _ _ (by decide)]
    rfl
  | 1 =>
    refine ⟨s.setPower 0 (evalBits v s.cfg.coreFlagsPower[0]), ?_, by simp, ?_⟩
    · rw [coreAt_setPower_of_ne _ _ _ _ (by decide)]
    · rw [coreAt_setPower_of_ne _ _ _ _ (by decide)]; rfl
  | 2 =>
    refine ⟨(s.setPower 0 (evalBits v s.cfg.coreFlagsPower[0])).setPower 1
      (evalBits v s.cfg.coreFlagsPower[1]), ?_, by simp, rfl⟩
    rw [coreAt_setPower_of_ne _ _ _ _ (by decide), coreAt_setPower_of_ne _ _ _ _ (by decide)]

/-- A byte write of the control registers that is not refused writes a defined byte. -/
theorem cregWrite_eq_ok {s t : State} {n : Nat} {x : Byte} (h : s.cregWrite n x = .ok t) :
    ∃ b, cregByteOf s.cfg n = some b ∧ s.writeCregByte b x = t := by
  cases hb : cregByteOf s.cfg n with
  | none => simp [State.cregWrite, hb] at h
  | some b => exact ⟨b, rfl, by simpa [State.cregWrite, hb] using h⟩

/-- A property that every write of a defined control-register byte of the access keeps is kept by the whole
access. -/
theorem cregWriteAll_induct {P : State → Prop} {s t : State} {a v : Word} {w : Width}
    (h : s.cregWriteAll a v w = .ok t) (h0 : P s)
    (hstep : ∀ (u : State) (n : Nat) (b : CregByte) (x : Byte), P u → n ∈ bytesCovered a w →
      cregByteOf u.cfg n = some b → P (u.writeCregByte b x)) : P t := by
  have one : ∀ (u u' : State) (n : Nat) (x : Byte), P u → n ∈ bytesCovered a w →
      u.cregWrite n x = .ok u' → P u' := fun u u' n x hu hn he => by
    obtain ⟨b, hb, rfl⟩ := cregWrite_eq_ok he
    exact hstep u n b x hu hn hb
  cases w with
  | byte =>
    simp only [State.cregWriteAll] at h
    exact one s t a.toNat (wordByte v 0) h0 (by simp [bytesCovered]) h
  | word =>
    simp only [State.cregWriteAll] at h
    split at h
    · cases h
    · next s1 e1 =>
      split at h
      · cases h
      · next s2 e2 =>
        split at h
        · cases h
        · next s3 e3 =>
          have p1 := one s s1 a.toNat (wordByte v 0) h0 (by simp [bytesCovered]) e1
          have p2 := one s1 s2 (a.toNat + 1) (wordByte v 1) p1 (by simp [bytesCovered]) e2
          have p3 := one s2 s3 (a.toNat + 2) (wordByte v 2) p2 (by simp [bytesCovered]) e3
          exact one s3 t (a.toNat + 3) (wordByte v 3) p3 (by simp [bytesCovered]) h

@[simp] theorem mem_writeCregByte (s : State) (b : CregByte) (v : Byte) :
    (s.writeCregByte b v).mem = s.mem := by cases b <;> simp [State.writeCregByte]

@[simp] theorem cfg_writeCregByte (s : State) (b : CregByte) (v : Byte) :
    (s.writeCregByte b v).cfg = s.cfg := by cases b <;> simp [State.writeCregByte]

@[simp] theorem turn_writeCregByte (s : State) (b : CregByte) (v : Byte) :
    (s.writeCregByte b v).turn = s.turn := by cases b <;> simp [State.writeCregByte]

@[simp] theorem script_writeCregByte (s : State) (b : CregByte) (v : Byte) :
    (s.writeCregByte b v).script = s.script := by cases b <;> simp [State.writeCregByte]

/-- Where CORE_FLAGS is: at its offset, unless another register is there. -/
theorem cregByteOf_eq_coreFlags {cfg : Config} {n : Nat} :
    cregByteOf cfg n = some .coreFlags ↔
      n = crBase + cfg.coreFlagsOffset ∧ ¬(0x3F00 ≤ n ∧ n < 0x3F06) ∧ ¬(0x3F40 ≤ n ∧ n < 0x3F4C) := by
  have hb := bases
  unfold cregByteOf
  split_ifs <;> simp <;> omega

/-- Where a control-register byte is defined. -/
theorem cregByteOf_ne_none {cfg : Config} {n : Nat} (h : cregByteOf cfg n ≠ none) :
    (0x3F00 ≤ n ∧ n < 0x3F06) ∨ (0x3F40 ≤ n ∧ n < 0x3F4C) ∨ n = crBase + cfg.coreFlagsOffset := by
  have hb := bases
  revert h
  unfold cregByteOf
  split_ifs <;> simp <;> omega

/-- An aligned word of defined bytes does not cover CORE_FLAGS, which is one byte among undefined ones. -/
theorem word_not_coreFlags {cfg : Config} {a k : Nat} (ha : a % 4 = 0)
    (h : ∀ j, j < 4 → cregByteOf cfg (a + j) ≠ none) (hk : k < 4) :
    cregByteOf cfg (a + k) ≠ some .coreFlags := by
  rw [Ne, cregByteOf_eq_coreFlags]
  have h0 := cregByteOf_ne_none (h 0 (by omega))
  have h1 := cregByteOf_ne_none (h 1 (by omega))
  have h2 := cregByteOf_ne_none (h 2 (by omega))
  have h3 := cregByteOf_ne_none (h 3 (by omega))
  omega

/-- Every byte of a word write of the control registers that is not refused is defined. -/
theorem cregWriteAll_word_defined {s t : State} {a v : Word} (h : s.cregWriteAll a v .word = .ok t) :
    ∀ j, j < 4 → cregByteOf s.cfg (a.toNat + j) ≠ none := by
  have one : ∀ {u u' : State} {n : Nat} {x : Byte}, u.cregWrite n x = .ok u' →
      u'.cfg = u.cfg ∧ cregByteOf u.cfg n ≠ none := fun he => by
    obtain ⟨b, hb, rfl⟩ := cregWrite_eq_ok he
    exact ⟨cfg_writeCregByte _ _ _, by simp [hb]⟩
  simp only [State.cregWriteAll] at h
  split at h
  · cases h
  · next s1 e1 =>
    split at h
    · cases h
    · next s2 e2 =>
      split at h
      · cases h
      · next s3 e3 =>
        obtain ⟨c1, d0⟩ := one e1
        obtain ⟨c2, d1⟩ := one e2
        obtain ⟨c3, d2⟩ := one e3
        obtain ⟨-, d3⟩ := one h
        rw [c1] at d1
        rw [c2, c1] at d2
        rw [c3, c2, c1] at d3
        intro j hj
        obtain rfl | rfl | rfl | rfl : j = 0 ∨ j = 1 ∨ j = 2 ∨ j = 3 := by omega
        exacts [d0, d1, d2, d3]

/-- A word write of the control registers never reaches CORE_FLAGS, so it leaves every other core alone. -/
theorem cregWriteAll_word_coreAt {s t : State} {a v : Word} (ha : a.toNat % 4 = 0)
    (h : s.cregWriteAll a v .word = .ok t) {c : CoreId} (hc : c ≠ s.turn) : t.coreAt c = s.coreAt c := by
  have hd := cregWriteAll_word_defined h
  refine (cregWriteAll_induct (P := fun u => u.cfg = s.cfg ∧ u.turn = s.turn ∧
    u.coreAt c = s.coreAt c) h ⟨rfl, rfl, rfl⟩ fun u n b x ⟨h1, h2, h3⟩ hn hb =>
      ⟨by rw [cfg_writeCregByte, h1], by rw [turn_writeCregByte, h2], ?_⟩).2.2
  have hu : c ≠ u.turn := by rwa [h2]
  rw [← h3]
  cases b with
  | sysDclk => rfl
  | coreXclk => exact (coreAt_setCore _ _ _).trans (if_neg hu)
  | coreIntr k => exact (coreAt_setCore _ _ _).trans (if_neg hu)
  | bootAddr n k => rfl
  | coreFlags =>
    obtain ⟨k, hk, rfl⟩ : ∃ k, k < 4 ∧ n = a.toNat + k := by
      simp only [bytesCovered, List.mem_cons, List.not_mem_nil, or_false] at hn
      obtain rfl | rfl | rfl | rfl := hn
      exacts [⟨0, by omega, rfl⟩, ⟨1, by omega, rfl⟩, ⟨2, by omega, rfl⟩, ⟨3, by omega, rfl⟩]
    rw [h1] at hb
    exact absurd hb (word_not_coreFlags ha hd hk)

/-- A core that a power switch has just set: off, or just powered on. -/
def Core.switched (k : Core) : Prop := k = Core.off ∨ ∃ pc xclk, k = Core.poweredOn pc xclk

/-- A write of CORE_FLAGS leaves every core as it was or just switched. -/
theorem coreAt_writeCoreFlags_cases (s : State) (v : Byte) (c : CoreId) :
    (s.writeCoreFlags v).coreAt c = s.coreAt c ∨ ((s.writeCoreFlags v).coreAt c).switched := by
  have one : ∀ (u : State) (n : Fin 3) (on : Bool),
      (u.setPower n on).coreAt c = u.coreAt c ∨ ((u.setPower n on).coreAt c).switched := by
    intro u n on
    by_cases hc : c = n.succ
    · obtain ⟨-, -, e⟩ | ⟨-, -, e⟩ | ⟨-, -, e⟩ := setPower_cases u n on <;> rw [e]
      · exact .inr (.inr ⟨_, _, by rw [coreAt_setCoreAt, if_pos hc]⟩)
      · exact .inr (.inl (by rw [coreAt_setCoreAt, if_pos hc]))
      · exact .inl rfl
    · exact .inl (coreAt_setPower_of_ne u n on c hc)
  simp only [State.writeCoreFlags]
  obtain e3 | e3 := one ((s.setPower 0 (evalBits v s.cfg.coreFlagsPower[0])).setPower 1
      (evalBits v s.cfg.coreFlagsPower[1])) 2
      (evalBits v s.cfg.coreFlagsPower[2])
  · obtain e2 | e2 := one (s.setPower 0 (evalBits v s.cfg.coreFlagsPower[0])) 1
      (evalBits v s.cfg.coreFlagsPower[1])
    · obtain e1 | e1 := one s 0 (evalBits v s.cfg.coreFlagsPower[0])
      · exact .inl (e3.trans (e2.trans e1))
      · exact .inr (by rw [e3, e2]; exact e1)
    · exact .inr (by rw [e3]; exact e2)
  · exact .inr e3

/-- What a control-register write of the core whose turn it is leaves as it was: of that core all but
CORE_XCLK and CORE_INTR, the parameters, the turn, the script and memory; the other cores, unless core 0
switches them; and for a core other than core 0 the registers that only core 0 reaches. -/
structure CtlFrame (s t : State) : Prop where
  core : t.core = { s.core with coreXclk := t.coreXclk, coreIntr := t.coreIntr }
  mem : t.mem = s.mem
  cfg : t.cfg = s.cfg
  turn : t.turn = s.turn
  script : t.script = s.script
  core0 : (t.coreAt 0).runState = (s.coreAt 0).runState
  others : ∀ c, c ≠ s.turn →
    t.coreAt c = s.coreAt c ∨ (s.turn = 0 ∧ (t.coreAt c).switched)
  boot : s.turn ≠ 0 → t.bootAddr = s.bootAddr

theorem CtlFrame.refl (s : State) : CtlFrame s s :=
  ⟨rfl, rfl, rfl, rfl, rfl, rfl, fun _ _ => .inl rfl, fun _ => rfl⟩

theorem CtlFrame.trans {s t u : State} (h : CtlFrame s t) (k : CtlFrame t u) : CtlFrame s u where
  core := by
    have hk := k.core
    rw [h.core] at hk
    exact hk
  mem := k.mem.trans h.mem
  cfg := k.cfg.trans h.cfg
  turn := k.turn.trans h.turn
  script := k.script.trans h.script
  core0 := k.core0.trans h.core0
  others := fun c hc => by
    obtain e | ⟨e0, e⟩ := k.others c (by rwa [h.turn])
    · rw [e]; exact h.others c hc
    · exact .inr ⟨h.turn ▸ e0, e⟩
  boot := fun h0 => (k.boot (by rwa [h.turn])).trans (h.boot h0)

/-- One write of a defined control-register byte, by core 0 or to a register every core reaches. -/
theorem writeCregByte_frame (s : State) (b : CregByte) (v : Byte)
    (h : s.turn = 0 ∨ (b ≠ .coreFlags ∧ ∀ n k, b ≠ .bootAddr n k)) :
    CtlFrame s (s.writeCregByte b v) := by
  have hs : ∀ k : Core, k.runState = s.core.runState →
      (((s.setCore k).coreAt 0).runState = (s.coreAt 0).runState) := by
    intro k hk
    rw [coreAt_setCore]
    split
    · next e => rw [hk, State.core, ← e]
    · rfl
  cases b with
  | sysDclk => exact ⟨rfl, rfl, rfl, rfl, rfl, rfl, fun _ _ => .inl rfl, fun _ => rfl⟩
  | coreXclk =>
    refine ⟨?_, rfl, rfl, rfl, rfl, hs _ rfl, fun c hc => .inl ?_, fun _ => rfl⟩
    · simp [State.writeCregByte, State.setCoreXclk, State.coreXclk, State.coreIntr]
    · exact (coreAt_setCore _ _ _).trans (if_neg hc)
  | coreIntr k =>
    refine ⟨?_, rfl, rfl, rfl, rfl, hs _ rfl, fun c hc => .inl ?_, fun _ => rfl⟩
    · simp [State.writeCregByte, State.setCoreIntr, State.coreXclk, State.coreIntr]
    · exact (coreAt_setCore _ _ _).trans (if_neg hc)
  | bootAddr n k =>
    refine ⟨rfl, rfl, rfl, rfl, rfl, rfl, fun _ _ => .inl rfl, fun h0 => ?_⟩
    obtain h | h := h
    exacts [absurd h h0, absurd rfl (h.2 n k)]
  | coreFlags =>
    obtain h | h := h
    · have hc : (s.writeCoreFlags v).core = s.core := by
        simp only [State.core, turn_writeCoreFlags, h, coreAt_zero_writeCoreFlags]
      exact ⟨by simp only [State.writeCregByte, State.coreXclk, State.coreIntr, hc],
        by simp [State.writeCregByte], by simp [State.writeCregByte], by simp [State.writeCregByte],
        by simp [State.writeCregByte],
        by simp only [State.writeCregByte, coreAt_zero_writeCoreFlags],
        fun c _ => (coreAt_writeCoreFlags_cases s v c).imp id fun e => ⟨h, e⟩, fun h0 => absurd h h0⟩
    · exact absurd rfl h.1

/-! ## Data accesses -/

/-- When a data access passes DataCheck. -/
theorem dataCheck_eq_none {s : State} {m : Mode} {k : AccessKind} {a : Word} {w : Width} :
    s.dataCheck m k a w = none ↔
      (w = .word → aligned a = true) ∧ region a ≠ .nulltrap ∧ (m = .p1 → region a = .prog) ∧
        (k = .store → region a ≠ .rom) ∧
        (region a = .creg → s.turn ≠ 0 → ∀ b ∈ bytesCovered a w, core0Only s.cfg b = false) := by
  unfold State.dataCheck
  cases ha : aligned a <;> cases hr : region a <;> cases m <;> cases k <;> cases w <;>
    by_cases ht : s.turn = 0 <;> simp [ht]

/-- A control-register write that has passed its check. -/
theorem cregWriteAll_frame {s t : State} {m : Mode} {a v : Word} {w : Width}
    (hr : region a = .creg) (hc : s.dataCheck m .store a w = none)
    (h : s.cregWriteAll a v w = .ok t) : CtlFrame s t := by
  refine cregWriteAll_induct h (CtlFrame.refl s) fun u n b x hu hn hb => hu.trans ?_
  refine writeCregByte_frame u b x ?_
  by_cases h0 : s.turn = 0
  · exact .inl (hu.turn.trans h0)
  · have hz := (dataCheck_eq_none.mp hc).2.2.2.2 hr h0 n hn
    rw [hu.cfg] at hb
    simp only [core0Only, hb] at hz
    exact .inr ⟨fun e => by simp [e] at hz, fun n k e => by simp [e] at hz⟩

/-- What a write that has passed its check can do: store in storage, or write control registers. -/
theorem writeThrough_cases {s t : State} {m : Mode} {a v : Word} {w : Width}
    (hc : s.dataCheck m .store a w = none) (h : s.writeThrough a v w = .ok t) :
    ((region a = .ivt ∨ region a = .prog) ∧ t = s.setMem (storageWrite s.mem a v w)) ∨
      (region a = .creg ∧ CtlFrame s t) := by
  have hd := dataCheck_eq_none.mp hc
  unfold State.writeThrough at h
  cases hr : region a <;> rw [hr] at h hd <;> simp at h hd
  · exact .inr ⟨rfl, cregWriteAll_frame hr hc h⟩
  · exact .inl ⟨.inl rfl, h.symm⟩
  · exact .inl ⟨.inr rfl, h.symm⟩

/-- The invariant of memory is kept by a write into storage that has passed its check. -/
theorem wf_storageWrite {s : State} {m : Mode} {a v : Word} {w : Width}
    (hc : s.dataCheck m .store a w = none) (hr : region a = .ivt ∨ region a = .prog)
    (hm : Memory.wf s.mem = true) : Memory.wf (storageWrite s.mem a v w) = true := by
  have hd := (dataCheck_eq_none.mp hc).1
  have ha := a.isLt
  have key : ∀ k, k < 4 → (w = .word ∨ k = 0) → isStorage (a.toNat + k) = true := by
    intro k hk hw
    have h4 : a.toNat % 4 = 0 ∨ k = 0 := hw.imp (fun hw => (aligned_iff a).mp (hd hw)) id
    rw [region_eq, regionOf_eq_ivt, regionOf_eq_prog] at hr
    rw [isStorage_iff]
    omega
  cases w with
  | byte => exact wf_write (by simpa using key 0 (by omega) (.inr rfl)) hm
  | word =>
    exact wf_writeWord (by simpa using key 0 (by omega) (.inl rfl)) (key 1 (by omega) (.inl rfl))
      (key 2 (by omega) (.inl rfl)) (key 3 (by omega) (.inl rfl)) hm

/-- When a data read completes, and with what. -/
theorem memRead_eq_ok {s : State} {m : Mode} {a : Word} {w : Width} {p : Word × State} :
    s.memRead m a w = .ok p ↔
      s.dataCheck m .load a w = none ∧ region a ≠ .mmio ∧ p = (s.dataValue a w, s.afterRead a w) := by
  unfold State.memRead
  cases hd : s.dataCheck m .load a w with
  | some e => simp
  | none => by_cases hr : region a = .mmio <;> simp [hr, eq_comm]

/-- The state after a data read. -/
theorem afterRead_cases (s : State) (a : Word) (w : Width) :
    s.afterRead a w = s ∨ s.afterRead a w = s.countDraw := by
  unfold State.afterRead
  split <;> simp

/-- When a data write completes, and with what. -/
theorem memWrite_eq_ok {s t : State} {m : Mode} {a v : Word} {w : Width} :
    s.memWrite m a v w = .ok t ↔
      s.dataCheck m .store a w = none ∧ (s.cfg.smcRefuse = false ∨ s.reachesPrefetch a w = false) ∧
        s.writeThrough a v w = .ok t := by
  unfold State.memWrite
  cases hd : s.dataCheck m .store a w with
  | some e => simp
  | none =>
    cases h1 : s.cfg.smcRefuse <;> cases h2 : s.reachesPrefetch a w <;>
      cases h3 : s.writeThrough a v w <;> simp

/-- A word read of storage. -/
theorem memRead_word_storage {s : State} {m : Mode} {a : Word}
    (hc : s.dataCheck m .load a .word = none) (hr : region a ≠ .creg) (hm : region a ≠ .mmio) :
    s.memRead m a .word = .ok (s.storageWord a.toNat, s) := by
  rw [memRead_eq_ok]
  have h4 := (aligned_iff a).mp ((dataCheck_eq_none.mp hc).1 rfl)
  have hk : ∀ k, k < 4 → s.dataByte (a.toNat + k) = s.storageByte (a.toNat + k) := by
    intro k hk
    rw [region_eq, Ne, regionOf_eq_creg] at hr
    exact if_neg (by rw [regionOf_eq_creg]; omega)
  have h0 := hk 0 (by omega)
  refine ⟨hc, hm, ?_⟩
  simp only [Nat.add_zero] at h0
  simp only [State.dataValue, State.storageWord, h0, hk 1 (by omega), hk 2 (by omega),
    hk 3 (by omega), State.afterRead, State.coversUnspecified]
  simp [hr]

/-- A byte read of storage. -/
theorem memRead_byte_storage {s : State} {m : Mode} {a : Word}
    (hc : s.dataCheck m .load a .byte = none) (hr : region a ≠ .creg) (hm : region a ≠ .mmio) :
    s.memRead m a .byte = .ok ((s.storageByte a.toNat).setWidth 32, s) := by
  rw [memRead_eq_ok]
  refine ⟨hc, hm, ?_⟩
  have : s.dataByte a.toNat = s.storageByte a.toNat := if_neg (by rwa [region_eq] at hr)
  simp [State.dataValue, this, State.afterRead, State.coversUnspecified, hr]

/-- A write into storage. -/
theorem memWrite_storage {s : State} {m : Mode} {a v : Word} {w : Width}
    (hc : s.dataCheck m .store a w = none) (hr : region a ≠ .creg) (hm : region a ≠ .mmio)
    (hs : s.cfg.smcRefuse = false ∨ s.reachesPrefetch a w = false) :
    s.memWrite m a v w = .ok (s.setMem (storageWrite s.mem a v w)) := by
  rw [memWrite_eq_ok]
  refine ⟨hc, hs, ?_⟩
  unfold State.writeThrough
  cases h : region a <;> simp_all

/-- A byte of storage after a write into storage. -/
theorem storageByte_setMem_storageWrite (s : State) (a v : Word) (w : Width) (n : Nat) :
    (s.setMem (storageWrite s.mem a v w)).storageByte n =
      if a.toNat ≤ n ∧ n < a.toNat + (match w with | .byte => 1 | .word => 4) then
        wordByte v (n - a.toNat)
      else s.storageByte n := by
  cases w with
  | byte =>
    refine (storageByte_write s a.toNat (wordByte v 0) n).trans ?_
    show _ = if a.toNat ≤ n ∧ n < a.toNat + 1 then _ else _
    by_cases h : n = a.toNat
    · simp [h]
    · rw [if_neg h, if_neg (by omega)]
  | word => exact storageByte_writeWord s a.toNat v n

/-- A byte that a write into storage does not cover keeps its value. -/
theorem mem_bytesCovered {a : Word} {w : Width} {n : Nat} :
    n ∈ bytesCovered a w ↔
      a.toNat ≤ n ∧ n < a.toNat + (match w with | .byte => 1 | .word => 4) := by
  cases w <;> simp [bytesCovered] <;> omega

/-! ## The stack -/

theorem push_eq_ok {s t : State} {v : Word} :
    s.push v = .ok t ↔ ∃ u, s.memWrite s.mode (s.x xsp - 4#32) v .word = .ok u ∧
      t = u.setX xsp (s.x xsp - 4#32) := by
  unfold State.push Res.bind
  cases s.memWrite s.mode (s.x xsp - 4#32) v .word <;> simp [eq_comm]

theorem pop_eq_ok {s : State} {p : Word × State} :
    s.pop = .ok p ↔ ∃ q, s.memRead s.mode (s.x xsp) .word = .ok q ∧
      p = (q.1, q.2.setX xsp (s.x xsp + 4#32)) := by
  unfold State.pop Res.bind
  cases s.memRead s.mode (s.x xsp) .word <;> simp [eq_comm]

/-! ## Trap entry -/

/-- What trap entry can do when it gives a next state: enter the handler of the vector, or DoubleFault's, after
a push that passed the kernel's check; or triple-fault. -/
theorem deliver_eq_next {s t : State} {v : Nat} {ret : Word} (h : s.deliver v ret = .next t) :
    (∃ v' u, (v' = v ∨ v' = 9) ∧ s.dataCheck .p0 .store (s.x xsp - 4#32) .word = none ∧
        fetchCheck .p0 (s.handler v') = none ∧
        s.writeThrough (s.x xsp - 4#32) ret .word = .ok u ∧
        t = u.enterHandler (s.x xsp - 4#32) (s.handler v')) ∨
      t = s.setRunState .tripleFaulted := by
  have key : ∀ v', (v' = v ∨ v' = 9) → s.deliverable v' = true → s.deliverTo v' ret = .next t →
      ∃ v' u, (v' = v ∨ v' = 9) ∧ s.dataCheck .p0 .store (s.x xsp - 4#32) .word = none ∧
        fetchCheck .p0 (s.handler v') = none ∧
        s.writeThrough (s.x xsp - 4#32) ret .word = .ok u ∧
        t = u.enterHandler (s.x xsp - 4#32) (s.handler v') := by
    intro v' hv hd ht
    simp only [State.deliverable, State.canPush, canFetch, Bool.and_eq_true,
      Option.isNone_iff_eq_none] at hd
    unfold State.deliverTo at ht
    split at ht
    · next u hu => exact ⟨v', u, hv, hd.1, hd.2, hu, (Host.Outcome.next.inj ht).symm⟩
    · cases ht
  unfold State.deliver at h
  split at h
  · next hd => exact .inl (key v (.inl rfl) hd h)
  · split at h
    · next hd => exact .inl (key 9 (.inr rfl) hd.2 h)
    · exact .inr (Host.Outcome.next.inj h).symm

/-- The end of an instruction: its own next state, or the trap of the exception it raised. -/
theorem finish_eq_next {s t : State} {r : Res State} (h : s.finish r = .next t) :
    r = .ok t ∨ ∃ e info, r = .raise e info ∧ s.takeException e info = .next t := by
  cases r with
  | ok u => exact .inl (congrArg Res.ok (Host.Outcome.next.inj h))
  | raise e info => exact .inr ⟨e, info, rfl, h⟩
  | refuse q => cases h

end Sys2Proof.Machine
end

