-- ==== Sys2Proof/Laws/Exec.lean ====
section
/-! SUPPORT. What an instruction can do when it gives a next state, said once for all of them: it takes an
exception, or it makes its one data access and then changes its own core. -/

namespace Sys2Proof.Machine

open Sys2Proof

/-- The state after the data access of an instruction: a read leaves it, but for the count of free values; a
write is the instruction's own store. -/
inductive AccessDone (s : State) (i : Instr) : State → Prop where
  | none : AccessDone s i s
  | drawn : AccessDone s i s.countDraw
  | stored (a v : Word) (w : Width) (u : State) (ha : s.dataAccess i = some (.store, a, w))
      (hw : s.memWrite s.mode a v w = .ok u) : AccessDone s i u

/-- The end of an instruction that takes no exception, from the state u after its data access: only the core
changes, and of it PC, X and E registers, the mode by SYSCALL and SYSRET, the halt flag by HLT. -/
structure OwnEffect (i : Instr) (s u t : State) : Prop where
  only : t = u.setCore t.core
  exc : t.exc = u.exc
  pending : t.core.pending = u.core.pending
  runState : t.runState = u.runState
  coreXclk : t.coreXclk = u.coreXclk
  coreIntr : t.coreIntr = u.coreIntr
  mode : t.mode = u.mode ∨ t.mode = .p0 ∨ (i = .sysret ∧ s.mode = .p0)
  halted : t.halted = u.halted ∨ (t.halted = true ∧ s.mode = .p0 ∧ t.mode = .p0)

/-- The X register an instruction names as its destination. -/
def xDest : Instr → Option XReg
  | .add a _ | .sub a _ | .mul a _ | .div a _ | .and a _ | .or a _ | .xor a _ | .not a | .mov a _
  | .movImm a _ | .movImmHigh a _ | .movGp a _ | .ldb a _ _ | .ld a _ _ | .lsh a _ | .lshImm a _
  | .rsh a _ | .rshImm a _ | .pop a | .cpuid a => some a
  | _ => none

/-- The stack instructions, which move XSP (45_call_stack R222, 46_system R241, R243). -/
def usesStack : Instr → Bool
  | .push _ | .pop _ | .pushExt _ | .popExt _ | .callImm _ _ | .call _ _ | .ret | .syscall _ | .sysret =>
    true
  | _ => false

/-- The E register an instruction names as its destination. -/
def eDest : Instr → Option EReg
  | .movExt a _ | .movExt2 a _ | .popExt a => some a
  | _ => none

/-- What an instruction that gives a next state did. -/
inductive ExecCase (i : Instr) (s t : State) : Prop where
  | trapNoData (e : Exc) (hd : s.dataAccess i = none) (h : s.takeException e none = .next t)
  | trapData (e : Exc) (k : AccessKind) (a : Word) (w : Width) (hd : s.dataAccess i = some (k, a, w))
      (hc : s.dataCheck s.mode k a w = some e) (h : s.takeException e (some a) = .next t)
  | own (u : State) (hu : AccessDone s i u)
      (hc : ∀ k a w, s.dataAccess i = some (k, a, w) → s.dataCheck s.mode k a w = none)
      (ho : OwnEffect i s u t)
      (hx : ∀ d, t.x d = u.x d ∨ (d = xsp ∧ usesStack i = true) ∨ xDest i = some d)
      (he : ∀ d, t.e d = u.e d ∨ eDest i = some d)

theorem memRead_eq_raise {s : State} {m : Mode} {a : Word} {w : Width} {e : Exc} {info : Option Word}
    (h : s.memRead m a w = .raise e info) : s.dataCheck m .load a w = some e ∧ info = some a := by
  unfold State.memRead at h
  cases hd : s.dataCheck m .load a w with
  | some e' => rw [hd] at h; simp only [Res.raise.injEq] at h; exact ⟨by rw [h.1], h.2.symm⟩
  | none => rw [hd] at h; simp only at h; split at h <;> cases h

theorem memWrite_eq_raise {s : State} {m : Mode} {a v : Word} {w : Width} {e : Exc}
    {info : Option Word} (h : s.memWrite m a v w = .raise e info) :
    s.dataCheck m .store a w = some e ∧ info = some a := by
  unfold State.memWrite at h
  cases hd : s.dataCheck m .store a w with
  | some e' => rw [hd] at h; simp only [Res.raise.injEq] at h; exact ⟨by rw [h.1], h.2.symm⟩
  | none => rw [hd] at h; simp only at h; split at h; · cases h
            split at h <;> cases h

/-- The trap of a failed data read, or the rest of the instruction. -/
theorem finish_memRead {s t : State} {i : Instr} {a : Word} {w : Width}
    {f : Word × State → Res State} (hd : s.dataAccess i = some (.load, a, w))
    (h : s.finish ((s.memRead s.mode a w).bind f) = .next t)
    (hf : ∀ v u, (u = s ∨ u = s.countDraw) → ∃ t, f (v, u) = .ok t ∧ OwnEffect i s u t ∧
      (∀ d, t.x d = u.x d ∨ (d = xsp ∧ usesStack i = true) ∨ xDest i = some d) ∧
      (∀ d, t.e d = u.e d ∨ eDest i = some d)) :
    ExecCase i s t := by
  cases hr : s.memRead s.mode a w with
  | refuse q => rw [hr] at h; cases h
  | raise e info =>
    rw [hr] at h
    obtain ⟨hc, rfl⟩ := memRead_eq_raise hr
    exact .trapData e _ a w hd hc h
  | ok p =>
    obtain ⟨hc, -, rfl⟩ := memRead_eq_ok.mp hr
    rw [hr] at h
    obtain ⟨t', ht, ho, hx, he⟩ := hf (s.dataValue a w) (s.afterRead a w) (afterRead_cases s a w)
    simp only [Res.bind, ht, State.finish, Host.Outcome.next.injEq] at h
    subst h
    refine .own (s.afterRead a w) ?_ (fun k b z hk => ?_) ho hx he
    · obtain e | e := afterRead_cases s a w <;> rw [e]
      exacts [.none, .drawn]
    · rw [hd] at hk; cases hk; exact hc

/-- The trap of a failed data write, or the rest of the instruction. -/
theorem finish_memWrite {s t : State} {i : Instr} {a v : Word} {w : Width}
    {f : State → Res State} (hd : s.dataAccess i = some (.store, a, w))
    (h : s.finish ((s.memWrite s.mode a v w).bind f) = .next t)
    (hf : ∀ u, u.turn = s.turn → ∃ t, f u = .ok t ∧ OwnEffect i s u t ∧
      (∀ d, t.x d = u.x d ∨ (d = xsp ∧ usesStack i = true) ∨ xDest i = some d) ∧
      (∀ d, t.e d = u.e d ∨ eDest i = some d)) :
    ExecCase i s t := by
  cases hr : s.memWrite s.mode a v w with
  | refuse q => rw [hr] at h; cases h
  | raise e info =>
    rw [hr] at h
    obtain ⟨hc, rfl⟩ := memWrite_eq_raise hr
    exact .trapData e _ a w hd hc h
  | ok u =>
    obtain ⟨hc, -, hw⟩ := memWrite_eq_ok.mp hr
    have hu : u.turn = s.turn := by
      obtain ⟨-, rfl⟩ | ⟨-, hk⟩ := writeThrough_cases hc hw
      exacts [rfl, hk.turn]
    rw [hr] at h
    obtain ⟨t', ht, ho, hx, he⟩ := hf u hu
    simp only [Res.bind, ht, State.finish, Host.Outcome.next.injEq] at h
    subst h
    refine .own u (.stored a v w u hd hr) (fun k b z hk => ?_) ho hx he
    rw [hd] at hk; cases hk; exact hc

/-- An instruction that makes no data access and takes no exception. -/
theorem ExecCase.plain {i : Instr} {s t u : State} (h : Host.Outcome.next (φ := Fault) (ρ := Refusal) u = .next t)
    (hd : s.dataAccess i = none) (ho : OwnEffect i s s u)
    (hx : ∀ d, u.x d = s.x d ∨ (d = xsp ∧ usesStack i = true) ∨ xDest i = some d)
    (he : ∀ d, u.e d = s.e d ∨ eDest i = some d) : ExecCase i s t := by
  cases h
  exact .own s .none (fun k a w hk => by rw [hd] at hk; cases hk) ho hx he

theorem ExecCase.writeX {i : Instr} {s t : State} {d : XReg} {v : Word} (h : s.writeX d v = .next t)
    (hd : s.dataAccess i = none) (hi : xDest i = some d) : ExecCase i s t := by
  refine .plain h hd ?_ (fun j => ?_) (fun j => ?_)
  · constructor <;>
      simp [State.advance, State.setPc, State.setX, State.exc, State.runState, State.coreXclk, State.coreIntr,
        State.mode, State.halted]
  · by_cases hj : j = d
    · exact .inr (.inr (by rw [hj, hi]))
    · exact .inl (by simp [hj])
  · exact .inl (by simp)

theorem ExecCase.writeE {i : Instr} {s t : State} {d : EReg} {v : Word} (h : s.writeE d v = .next t)
    (hd : s.dataAccess i = none) (hi : eDest i = some d) : ExecCase i s t := by
  refine .plain h hd ?_ (fun j => ?_) (fun j => ?_)
  · constructor <;>
      simp [State.advance, State.setPc, State.setE, State.exc, State.runState, State.coreXclk, State.coreIntr,
        State.mode, State.halted]
  · exact .inl (by simp)
  · by_cases hj : j = d
    · exact .inr (by rw [hj, hi])
    · exact .inl (by simp [hj])

theorem ExecCase.jump {i : Instr} {s t : State} {v : Word}
    (h : Host.Outcome.next (φ := Fault) (ρ := Refusal) (s.setPc v) = .next t)
    (hd : s.dataAccess i = none) : ExecCase i s t := by
  refine .plain h hd ?_ (fun j => .inl (by simp)) (fun j => .inl (by simp))
  constructor <;>
    simp [State.setPc, State.exc, State.runState, State.coreXclk, State.coreIntr, State.mode,
      State.halted]

theorem ExecCase.branch {i : Instr} {s t : State} {b : Bool} {v : Word} (h : s.branch b v = .next t)
    (hd : s.dataAccess i = none) : ExecCase i s t := by
  cases b
  · exact .jump h hd
  · exact .jump h hd

theorem Res.bind_assoc {α β γ : Type} (r : Res α) (f : α → Res β) (g : β → Res γ) :
    (r.bind f).bind g = r.bind fun a => (f a).bind g := by cases r <;> rfl

theorem ExecCase.push {i : Instr} {s t : State} {v : Word} {f : State → Res State}
    (h : s.finish ((s.push v).bind f) = .next t)
    (hd : s.dataAccess i = some (.store, s.x xsp - 4#32, .word))
    (hf : ∀ u, u.turn = s.turn → ∃ t, f (u.setX xsp (s.x xsp - 4#32)) = .ok t ∧ OwnEffect i s u t ∧
      (∀ d, t.x d = u.x d ∨ (d = xsp ∧ usesStack i = true) ∨ xDest i = some d) ∧
      (∀ d, t.e d = u.e d ∨ eDest i = some d)) :
    ExecCase i s t := by
  rw [State.push, Res.bind_assoc] at h
  exact finish_memWrite hd h hf

theorem ExecCase.pop {i : Instr} {s t : State} {f : Word × State → Res State}
    (h : s.finish (s.pop.bind f) = .next t) (hd : s.dataAccess i = some (.load, s.x xsp, .word))
    (hf : ∀ v u, (u = s ∨ u = s.countDraw) →
      ∃ t, f (v, u.setX xsp (s.x xsp + 4#32)) = .ok t ∧ OwnEffect i s u t ∧
      (∀ d, t.x d = u.x d ∨ (d = xsp ∧ usesStack i = true) ∨ xDest i = some d) ∧
      (∀ d, t.e d = u.e d ∨ eDest i = some d)) :
    ExecCase i s t := by
  rw [State.pop, Res.bind_assoc] at h
  exact finish_memRead hd h hf

theorem OwnEffect.refl (i : Instr) (s u : State) : OwnEffect i s u u := by
  constructor <;> simp [State.core, State.setCore, State.setCoreAt, State.coreAt]

theorem OwnEffect.setX {i : Instr} {s u t : State} (h : OwnEffect i s u t) (d : XReg) (v : Word) :
    OwnEffect i s u (t.setX d v) := by
  obtain ⟨h0, h1, h2, h3, h4, h5, h6, h7⟩ := h
  refine ⟨?_, by simpa, ?_, by simpa, by simpa, by simpa, by simpa, by simpa⟩
  · rw [h0]; simp [State.setX]
  · simpa [State.setX] using h2

theorem OwnEffect.setE {i : Instr} {s u t : State} (h : OwnEffect i s u t) (d : EReg) (v : Word) :
    OwnEffect i s u (t.setE d v) := by
  obtain ⟨h0, h1, h2, h3, h4, h5, h6, h7⟩ := h
  refine ⟨?_, by simpa, ?_, by simpa, by simpa, by simpa, by simpa, by simpa⟩
  · rw [h0]; simp [State.setE]
  · simpa [State.setE] using h2

theorem OwnEffect.setPc {i : Instr} {s u t : State} (h : OwnEffect i s u t) (v : Word) :
    OwnEffect i s u (t.setPc v) := by
  obtain ⟨h0, h1, h2, h3, h4, h5, h6, h7⟩ := h
  refine ⟨?_, by simpa, ?_, by simpa, by simpa, by simpa, by simpa, by simpa⟩
  · rw [h0]; simp [State.setPc]
  · simpa [State.setPc] using h2

theorem OwnEffect.setMode {i : Instr} {s u t : State} (h : OwnEffect i s u t) (m : Mode)
    (hh : t.halted = u.halted) (hm : m = u.mode ∨ m = .p0 ∨ (i = .sysret ∧ s.mode = .p0)) :
    OwnEffect i s u (t.setMode m) := by
  obtain ⟨h0, h1, h2, h3, h4, h5, h6, h7⟩ := h
  refine ⟨?_, by simpa, ?_, by simpa, by simpa, by simpa, by simpa, .inl (by simpa)⟩
  · rw [h0]; simp [State.setMode]
  · simpa [State.setMode] using h2

/-- The X register a write can change. -/
theorem x_setX_or (u : State) (d e : XReg) (v : Word) : (u.setX d v).x e = u.x e ∨ e = d := by
  by_cases he : e = d
  · exact .inr he
  · exact .inl (by simp [he])

theorem execDiv_cases {a b : XReg} {s t : State} (h : exec (.div a b) s = .next t) :
    ExecCase (.div a b) s t := by
  change execDiv a b s = _ at h
  unfold execDiv at h
  split at h
  · exact .trapNoData _ rfl h
  · exact .writeX h rfl rfl

theorem execLdb_cases {d a f : XReg} {s t : State} (h : exec (.ldb d a f) s = .next t) :
    ExecCase (.ldb d a f) s t := by
  change execLdb d a f s = _ at h
  unfold execLdb at h
  split at h
  · cases h
  · next hl =>
    refine finish_memRead (i := .ldb d a f) (by simp [State.dataAccess, hl]) h fun v u hu =>
      ⟨_, rfl, ((OwnEffect.refl _ _ _).setX _ _).setPc _, fun j => ?_, fun j => .inl (by simp)⟩
    simp only [x_advance]
    exact (x_setX_or _ _ _ _).imp id fun e => .inr (by rw [e]; rfl)

theorem execLd_cases {d a f : XReg} {s t : State} (h : exec (.ld d a f) s = .next t) :
    ExecCase (.ld d a f) s t := by
  refine finish_memRead (i := .ld d a f) rfl h fun v u hu =>
    ⟨_, rfl, ((OwnEffect.refl _ _ _).setX _ _).setPc _, fun j => ?_, fun j => .inl (by simp)⟩
  simp only [x_advance]
  exact (x_setX_or _ _ _ _).imp id fun e => .inr (by rw [e]; rfl)

theorem execStb_cases {r a f : XReg} {s t : State} (h : exec (.stb r a f) s = .next t) :
    ExecCase (.stb r a f) s t :=
  finish_memWrite (i := .stb r a f) rfl h fun _ _ =>
    ⟨_, rfl, (OwnEffect.refl _ _ _).setPc _, fun _ => .inl (by simp), fun _ => .inl (by simp)⟩

theorem execSt_cases {r a f : XReg} {s t : State} (h : exec (.st r a f) s = .next t) :
    ExecCase (.st r a f) s t :=
  finish_memWrite (i := .st r a f) rfl h fun _ _ =>
    ⟨_, rfl, (OwnEffect.refl _ _ _).setPc _, fun _ => .inl (by simp), fun _ => .inl (by simp)⟩

theorem callTo_cases {i : Instr} {v : Word} {s t : State} (h : s.callTo v = .next t)
    (hd : s.dataAccess i = some (.store, s.x xsp - 4#32, .word)) (hs : usesStack i = true) :
    ExecCase i s t :=
  .push h hd fun u _ =>
    ⟨_, rfl, ((OwnEffect.refl _ _ _).setX _ _).setPc _,
      fun d => by simpa only [x_setPc] using (x_setX_or u xsp d _).imp id fun e => .inl ⟨e, hs⟩,
      fun _ => .inl (by simp)⟩

theorem execPush_cases {r : XReg} {s t : State} (h : exec (.push r) s = .next t) :
    ExecCase (.push r) s t :=
  .push h rfl fun u _ =>
    ⟨_, rfl, ((OwnEffect.refl _ _ _).setX _ _).setPc _,
      fun d => by simpa only [x_advance] using (x_setX_or u xsp d _).imp id fun e => .inl ⟨e, rfl⟩,
      fun _ => .inl (by simp)⟩

theorem execPushExt_cases {r : EReg} {s t : State} (h : exec (.pushExt r) s = .next t) :
    ExecCase (.pushExt r) s t :=
  .push h rfl fun u _ =>
    ⟨_, rfl, ((OwnEffect.refl _ _ _).setX _ _).setPc _,
      fun d => by simpa only [x_advance] using (x_setX_or u xsp d _).imp id fun e => .inl ⟨e, rfl⟩,
      fun _ => .inl (by simp)⟩

theorem execSyscall_cases {r : XReg} {s t : State} (h : exec (.syscall r) s = .next t) :
    ExecCase (.syscall r) s t := by
  change execSyscall r s = _ at h
  unfold execSyscall at h
  split at h
  · cases h
  · next hs =>
    refine .push (i := .syscall r) h (by simp [State.dataAccess, hs]) fun u _ =>
      ⟨_, rfl, (((OwnEffect.refl _ _ _).setX _ _).setMode _ (by simp) (.inr (.inl rfl))).setPc _,
        fun d => ?_, fun _ => .inl (by simp)⟩
    simpa only [x_setPc, x_setMode] using (x_setX_or u xsp d _).imp id fun e => .inl ⟨e, rfl⟩

theorem execPop_cases {d : XReg} {s t : State} (h : exec (.pop d) s = .next t) :
    ExecCase (.pop d) s t := by
  refine .pop h rfl fun v u _ =>
    ⟨_, rfl, (((OwnEffect.refl _ _ _).setX _ _).setX _ _).setPc _, fun j => ?_,
      fun _ => .inl (by simp)⟩
  simp only [x_advance]
  obtain e | e := x_setX_or (u.setX xsp (s.x xsp + 4#32)) d j v
  · rw [e]; exact (x_setX_or _ _ _ _).imp id fun e => .inl ⟨e, rfl⟩
  · exact .inr (.inr (by rw [e]; rfl))

theorem execPopExt_cases {d : EReg} {s t : State} (h : exec (.popExt d) s = .next t) :
    ExecCase (.popExt d) s t := by
  refine .pop h rfl fun v u _ =>
    ⟨_, rfl, (((OwnEffect.refl _ _ _).setX _ _).setE _ _).setPc _, fun j => ?_, fun j => ?_⟩
  · simpa only [x_advance, x_setE] using (x_setX_or u xsp j _).imp id fun e => .inl ⟨e, rfl⟩
  · by_cases hj : j = d
    · exact .inr (by rw [hj]; rfl)
    · exact .inl (by simp [hj])

theorem execRet_cases {s t : State} (h : exec .ret s = .next t) : ExecCase .ret s t := by
  change s.finish (s.returnTo s.mode) = _ at h
  unfold State.returnTo at h
  refine .pop h rfl fun v u hu =>
    ⟨_, rfl, (((OwnEffect.refl _ _ _).setX _ _).setMode _ (by simp) (.inl ?_)).setPc _, fun j => ?_,
      fun _ => .inl (by simp)⟩
  · obtain rfl | rfl := hu <;> simp
  · simpa only [x_setPc, x_setMode] using (x_setX_or u xsp j _).imp id fun e => .inl ⟨e, rfl⟩

theorem execSysret_cases {s t : State} (h : exec .sysret s = .next t) : ExecCase .sysret s t := by
  change execSysret s = _ at h
  unfold execSysret at h
  split at h
  · next hm => exact .trapNoData _ (by simp [State.dataAccess, hm]) h
  · next hm =>
    have hm0 : s.mode = .p0 := by
      cases hm' : s.mode
      · rfl
      · exact absurd hm' hm
    unfold State.returnTo at h
    refine .pop (i := .sysret) h (by simp [State.dataAccess, hm0]) fun v u hu =>
      ⟨_, rfl, (((OwnEffect.refl _ _ _).setX _ _).setMode _ (by simp) (.inr (.inr ⟨rfl, hm0⟩))).setPc _,
        fun j => ?_, fun _ => .inl (by simp)⟩
    simpa only [x_setPc, x_setMode] using (x_setX_or u xsp j _).imp id fun e => .inl ⟨e, rfl⟩

theorem execHlt_cases {s t : State} (h : exec .hlt s = .next t) : ExecCase .hlt s t := by
  change execHlt s = _ at h
  unfold execHlt at h
  split at h
  · exact .trapNoData _ rfl h
  · next hm =>
    have hm0 : s.mode = .p0 := by
      cases hm' : s.mode
      · rfl
      · exact absurd hm' hm
    refine .plain h rfl ?_ (fun _ => .inl (by simp)) (fun _ => .inl (by simp))
    constructor <;> simp [State.advance, State.setPc, State.setHalted, State.exc, State.runState,
      State.coreXclk, State.coreIntr, State.mode, State.halted]
    exact .inr hm0

theorem execJmpc_cases {c : BitVec 3} {p1 p2 a f : XReg} {s t : State}
    (h : exec (.jmpc c p1 p2 a f) s = .next t) : ExecCase (.jmpc c p1 p2 a f) s t := by
  change execJmpc c p1 p2 a f s = _ at h
  unfold execJmpc at h
  split at h
  · exact .trapNoData _ rfl h
  · exact .branch h rfl

/-- What any instruction that gives a next state did. -/
theorem exec_cases {i : Instr} {s t : State} (h : exec i s = .next t) : ExecCase i s t := by
  cases i with
  | add a b => exact .writeX h rfl rfl
  | sub a b => exact .writeX h rfl rfl
  | mul a b => exact .writeX h rfl rfl
  | div a b => exact execDiv_cases h
  | addFp => exact .trapNoData _ rfl h
  | subFp => exact .trapNoData _ rfl h
  | mulFp => exact .trapNoData _ rfl h
  | divFp => exact .trapNoData _ rfl h
  | and a b => exact .writeX h rfl rfl
  | or a b => exact .writeX h rfl rfl
  | xor a b => exact .writeX h rfl rfl
  | not a => exact .writeX h rfl rfl
  | mov d r => exact .writeX h rfl rfl
  | movImm d n => exact .writeX h rfl rfl
  | movImmHigh d n => exact .writeX h rfl rfl
  | movExt d r => exact .writeE h rfl rfl
  | movGp d r => exact .writeX h rfl rfl
  | movExt2 d r => exact .writeE h rfl rfl
  | ldb d a f => exact execLdb_cases h
  | stb r a f => exact execStb_cases h
  | ld d a f => exact execLd_cases h
  | st r a f => exact execSt_cases h
  | lsh p q => exact .writeX h rfl rfl
  | lshImm p n => exact .writeX h rfl rfl
  | rsh p q => exact .writeX h rfl rfl
  | rshImm p n => exact .writeX h rfl rfl
  | jmpImm a n => exact .jump h rfl
  | jmpRel a f => exact .jump h rfl
  | jmp a => exact .jump h rfl
  | jmpc c p1 p2 a f => exact execJmpc_cases h
  | jmpcZ c p a f => exact .branch h rfl
  | callImm a n => exact callTo_cases h rfl rfl
  | call a f => exact callTo_cases h rfl rfl
  | ret => exact execRet_cases h
  | push r => exact execPush_cases h
  | pop d => exact execPop_cases h
  | pushExt r => exact execPushExt_cases h
  | popExt d => exact execPopExt_cases h
  | syscall r => exact execSyscall_cases h
  | sysret => exact execSysret_cases h
  | hlt => exact execHlt_cases h
  | cpuid d => exact .writeX h rfl rfl

end Sys2Proof.Machine
end

