-- ==== Sys2Proof/Laws/Frame.lean ====
section
/-! SUPPORT. The vocabulary of Safety, applied to the shared operations: where an access reaches storage, what a
storage write stores, and what entering a handler leaves alone. -/

namespace Sys2Proof.Machine

open Sys2Proof

/-- A word written into storage is stored there, little endian, and nowhere else. -/
theorem storesWord_of_mem {s t : State} {a v : Word} (hm : t.mem = storageWrite s.mem a v .word) :
    storesWord a v s t := by
  have key : ∀ n, t.storageByte n = if a.toNat ≤ n ∧ n < a.toNat + 4 then wordByte v (n - a.toNat)
      else s.storageByte n := fun n => by
    rw [← storageByte_writeWord s a.toNat v n]
    simp only [State.storageByte, hm, storageWrite]
  refine ⟨fun k hk => ?_, fun n hn => ?_⟩
  · rw [key, if_pos (by omega), Nat.add_sub_cancel_left]
  · rw [key, if_neg (by omega)]

/-- A byte written into storage is stored there and nowhere else. -/
theorem storesByte_of_mem {s t : State} {a v : Word} (hm : t.mem = storageWrite s.mem a v .byte) :
    storesByte a (wordByte v 0) s t := by
  have key : ∀ n, t.storageByte n = if n = a.toNat then wordByte v 0 else s.storageByte n :=
    fun n => by
      rw [← storageByte_write s a.toNat (wordByte v 0) n]
      simp only [State.storageByte, hm, storageWrite]
  exact ⟨by rw [key, if_pos rfl], fun n hn => by rw [key, if_neg hn]⟩

/-- The same memory reads the same everywhere. -/
theorem sameStorage_of_mem {s t : State} (h : t.mem = s.mem) : sameStorage s t := fun n => by
  simp only [State.storageByte, h]

/-- A write that reaches storage passes its check, in a region of storage. -/
theorem State.storable.check {s : State} {a : Word} {w : Width} (h : s.storable a)
    (hw : w = .word → a.toNat % 4 = 0) :
    s.dataCheck s.mode .store a w = none ∧ region a ≠ .creg ∧ region a ≠ .mmio := by
  have hb := bases
  have hr : region a = .prog ∨ (s.mode = .p0 ∧ region a = .ivt) := by
    rw [region_eq, regionOf_eq_ivt, regionOf_eq_prog]
    rcases h with h | ⟨hm, h⟩
    · exact .inl (by omega)
    · exact .inr ⟨hm, by omega⟩
  rw [dataCheck_eq_none, aligned_iff]
  obtain h | ⟨hm, h⟩ := hr
  · simp [h]; exact hw
  · simp [h, hm]; exact hw

/-- A read that reaches storage passes its check, in a region of storage. -/
theorem State.loadable.check {s : State} {a : Word} {w : Width} (h : s.loadable a)
    (hw : w = .word → a.toNat % 4 = 0) :
    s.dataCheck s.mode .load a w = none ∧ region a ≠ .creg ∧ region a ≠ .mmio := by
  have hb := bases
  have hr : region a = .prog ∨ (s.mode = .p0 ∧ (region a = .ivt ∨ region a = .rom)) := by
    rw [region_eq, regionOf_eq_ivt, regionOf_eq_prog, regionOf_eq_rom]
    rcases h with (h | ⟨hm, h⟩) | ⟨hm, h⟩
    · exact .inl (by omega)
    · exact .inr ⟨hm, by omega⟩
    · exact .inr ⟨hm, by omega⟩
  rw [dataCheck_eq_none, aligned_iff]
  obtain h | ⟨hm, h | h⟩ := hr
  · simp [h]; exact hw
  · simp [h, hm]; exact hw
  · simp [h, hm]; exact hw

/-- Entering a handler touches the entering core alone. -/
theorem coreAt_enterHandler_of_ne (s : State) (sp h : Word) (c : CoreId) (hc : c ≠ s.turn) :
    (s.enterHandler sp h).coreAt c = s.coreAt c := by
  have ht : ∀ (u : State) (k : Core), (u.setCore k).turn = u.turn := fun _ _ => rfl
  simp only [State.enterHandler, State.setPc, State.setHalted, State.setMode, State.setX,
    coreAt_setCore, ht]
  rw [if_neg hc, if_neg hc, if_neg hc, if_neg hc]

end Sys2Proof.Machine
end

