-- ==== Sys2Proof/Laws/Operands.lean ====
section
/-! SUPPORT. What the value functions of the operands give, bit by bit. -/

namespace Sys2Proof.Machine

open Sys2Proof

theorem getLsbD_ff (i : Nat) : (0xFF#32).getLsbD i = decide (i < 8) := by
  by_cases h : i < 32
  · have : ∀ k : Fin 32, (0xFF#32).getLsbD k.val = decide (k.val < 8) := by decide
    exact this ⟨i, h⟩
  · rw [BitVec.getLsbD_of_ge _ _ (by omega)]
    exact (decide_eq_false (by omega)).symm

/-- The bits of a word with one byte lane replaced (42_load_store R181). -/
theorem getLsbD_insertByte (v : Word) (s : Nat) (b : Byte) (i : Nat) (hi : i < 32) :
    (insertByte v s b).getLsbD i =
      if s ≤ i ∧ i < s + 8 then b.getLsbD (i - s) else v.getLsbD i := by
  simp only [insertByte, BitVec.getLsbD_or, BitVec.getLsbD_and, BitVec.getLsbD_not,
    BitVec.getLsbD_shiftLeft, BitVec.getLsbD_setWidth, getLsbD_ff]
  by_cases h1 : s ≤ i
  · by_cases h2 : i < s + 8
    · rw [if_pos ⟨h1, h2⟩]
      have e1 : ¬i < s := by omega
      have e2 : i - s < 8 := by omega
      have e3 : i - s < 32 := by omega
      simp [hi, e1, e2, e3]
    · rw [if_neg (by omega)]
      have e1 : ¬i < s := by omega
      have e2 : ¬i - s < 8 := by omega
      simp [hi, e1, e2, BitVec.getLsbD_of_ge b (i - s) (by omega)]
  · rw [if_neg (by omega)]
    have e1 : i < s := by omega
    simp [hi, e1]

theorem getLsbD_wordByte (v : Word) (k i : Nat) :
    (wordByte v k).getLsbD i = (decide (i < 8) && v.getLsbD (8 * k + i)) := by
  simp [wordByte, BitVec.getLsbD_extractLsb']

/-- Replacing byte k of a word leaves its other bytes. -/
theorem wordByte_insertByte (v : Word) {k j : Nat} (b : Byte) (hk : k < 4) (hj : j < 4) :
    wordByte (insertByte v (8 * k) b) j = if j = k then b else wordByte v j := by
  apply BitVec.eq_of_getLsbD_eq
  intro i hi
  rw [getLsbD_wordByte, getLsbD_insertByte _ _ _ _ (by omega)]
  by_cases h : j = k
  · subst h
    rw [if_pos rfl, if_pos (by omega), Nat.add_sub_cancel_left]
    simp [hi]
  · rw [if_neg h, if_neg (by omega), getLsbD_wordByte]

/-- Two words with the same bytes are the same. -/
theorem eq_of_wordByte {u v : Word} (h : ∀ k, k < 4 → wordByte u k = wordByte v k) : u = v := by
  rw [← wordOfBytes_wordByte u, ← wordOfBytes_wordByte v, h 0 (by omega), h 1 (by omega),
    h 2 (by omega), h 3 (by omega)]

/-- Replacing the four bytes of a word in turn gives the word of the new bytes. -/
theorem insertByte_four (u v : Word) :
    insertByte (insertByte (insertByte (insertByte u (8 * 0) (wordByte v 0)) (8 * 1) (wordByte v 1))
      (8 * 2) (wordByte v 2)) (8 * 3) (wordByte v 3) = v := by
  apply eq_of_wordByte
  intro k hk
  rw [wordByte_insertByte _ _ (by omega) hk, wordByte_insertByte _ _ (by omega) hk,
    wordByte_insertByte _ _ (by omega) hk, wordByte_insertByte _ _ (by omega) hk]
  split_ifs with h3 h2 h1 h0 <;> first | (subst_vars; rfl) | omega

end Sys2Proof.Machine
end

