-- ==== Sys2Proof/Laws/PerInstr.lean ====
section
/-! SUPPORT. One lemma per constructor: the encoder writes every unused bit of an instruction's pattern
as 0, so its words pass both settings of UNUSED_BITS_POLICY (30_encoding R113). -/

namespace Sys2Proof.Laws

open Sys2Proof

/-- The word of an instruction has no unused bit set (30_encoding R113). -/
def StrictEncoding.Statement (i : Instr) : Prop := unusedBits (encode i) = 0#32

/-- Closes a goal about the 32 bits of a masked word. -/
theorem masked_ext {w m : Word} (h : ∀ i < 32, m.getLsbD i = true → w.getLsbD i = false) :
    w &&& m = 0#32 := by
  apply BitVec.eq_of_getLsbD_eq
  intro i hi
  rw [BitVec.getLsbD_and]
  cases hm : m.getLsbD i
  · simp
  · simp [h i hi hm]

theorem unused_none (op : Byte) : pack op 0 0 0 0 0 0 &&& 0x00FFFFFF#32 = 0#32 := by
  apply masked_ext
  intro i hi hm
  interval_cases i <;> first
    | exact absurd hm (by decide)
    | (simp only [pack, BitVec.getLsbD_append]; simp)

theorem unused_one (op : Byte) (a : Fin 16) : pack op a 0 0 0 0 0 &&& 0x000FFFFF#32 = 0#32 := by
  apply masked_ext
  intro i hi hm
  interval_cases i <;> first
    | exact absurd hm (by decide)
    | (simp only [pack, BitVec.getLsbD_append]; simp)

theorem unused_two (op : Byte) (a b : Fin 16) : pack op a b 0 0 0 0 &&& 0x0000FFFF#32 = 0#32 := by
  apply masked_ext
  intro i hi hm
  interval_cases i <;> first
    | exact absurd hm (by decide)
    | (simp only [pack, BitVec.getLsbD_append]; simp)

theorem unused_three (op : Byte) (a b c : Fin 16) : pack op a b c 0 0 0 &&& 0x00000FFF#32 = 0#32 := by
  apply masked_ext
  intro i hi hm
  interval_cases i <;> first
    | exact absurd hm (by decide)
    | (simp only [pack, BitVec.getLsbD_append]; simp)

theorem unused_high (op : Byte) (a : Fin 16) (v : BitVec 16) : packImm16 op a 0 v &&& 0x000F0000#32 = 0#32 := by
  apply masked_ext
  intro i hi hm
  interval_cases i <;> first
    | exact absurd hm (by decide)
    | (simp only [packImm16, BitVec.getLsbD_append]; simp)

theorem unused_code3 (op : Byte) (k : BitVec 3) (a b c d : Fin 16) : pack op (nibbleOfCode3 k) a b c d 0 &&& 0x0080000F#32 = 0#32 := by
  apply masked_ext
  intro i hi hm
  interval_cases i <;> first
    | exact absurd hm (by decide)
    | (simp only [pack, BitVec.getLsbD_append]; simp; done)
    | (simp only [pack, BitVec.getLsbD_append]; simp [nibbleOfCode3]; revert k; decide)

theorem unused_code1 (op : Byte) (k : BitVec 1) (a b c : Fin 16) : pack op (nibbleOfCode1 k) a b c 0 0 &&& 0x00E000FF#32 = 0#32 := by
  apply masked_ext
  intro i hi hm
  interval_cases i <;> first
    | exact absurd hm (by decide)
    | (simp only [pack, BitVec.getLsbD_append]; simp; done)
    | (simp only [pack, BitVec.getLsbD_append]; simp [nibbleOfCode1]; revert k; decide)

theorem StrictEncoding.add (a b : XReg) : StrictEncoding.Statement (.add a b) := by
  simp [StrictEncoding.Statement, encode, unusedBits, unusedMask, unused_two]

theorem StrictEncoding.sub (a b : XReg) : StrictEncoding.Statement (.sub a b) := by
  simp [StrictEncoding.Statement, encode, unusedBits, unusedMask, unused_two]

theorem StrictEncoding.mul (a b : XReg) : StrictEncoding.Statement (.mul a b) := by
  simp [StrictEncoding.Statement, encode, unusedBits, unusedMask, unused_two]

theorem StrictEncoding.div (a b : XReg) : StrictEncoding.Statement (.div a b) := by
  simp [StrictEncoding.Statement, encode, unusedBits, unusedMask, unused_two]

theorem StrictEncoding.addFp : StrictEncoding.Statement (.addFp) := by
  simp [StrictEncoding.Statement, encode, unusedBits, unusedMask]

theorem StrictEncoding.subFp : StrictEncoding.Statement (.subFp) := by
  simp [StrictEncoding.Statement, encode, unusedBits, unusedMask]

theorem StrictEncoding.mulFp : StrictEncoding.Statement (.mulFp) := by
  simp [StrictEncoding.Statement, encode, unusedBits, unusedMask]

theorem StrictEncoding.divFp : StrictEncoding.Statement (.divFp) := by
  simp [StrictEncoding.Statement, encode, unusedBits, unusedMask]

theorem StrictEncoding.and (a b : XReg) : StrictEncoding.Statement (.and a b) := by
  simp [StrictEncoding.Statement, encode, unusedBits, unusedMask, unused_two]

theorem StrictEncoding.or (a b : XReg) : StrictEncoding.Statement (.or a b) := by
  simp [StrictEncoding.Statement, encode, unusedBits, unusedMask, unused_two]

theorem StrictEncoding.xor (a b : XReg) : StrictEncoding.Statement (.xor a b) := by
  simp [StrictEncoding.Statement, encode, unusedBits, unusedMask, unused_two]

theorem StrictEncoding.not (a : XReg) : StrictEncoding.Statement (.not a) := by
  simp [StrictEncoding.Statement, encode, unusedBits, unusedMask, unused_one]

theorem StrictEncoding.mov (d s : XReg) : StrictEncoding.Statement (.mov d s) := by
  simp [StrictEncoding.Statement, encode, unusedBits, unusedMask, unused_two]

theorem StrictEncoding.movImm (d : XReg) (imm20 : BitVec 20) : StrictEncoding.Statement (.movImm d imm20) := by
  simp [StrictEncoding.Statement, encode, unusedBits, unusedMask]

theorem StrictEncoding.movImmHigh (d : XReg) (imm16 : BitVec 16) : StrictEncoding.Statement (.movImmHigh d imm16) := by
  simp [StrictEncoding.Statement, encode, unusedBits, unusedMask, unused_high]

theorem StrictEncoding.movExt (d : EReg) (s : XReg) : StrictEncoding.Statement (.movExt d s) := by
  simp [StrictEncoding.Statement, encode, unusedBits, unusedMask, unused_two]

theorem StrictEncoding.movGp (d : XReg) (s : EReg) : StrictEncoding.Statement (.movGp d s) := by
  simp [StrictEncoding.Statement, encode, unusedBits, unusedMask, unused_two]

theorem StrictEncoding.movExt2 (d s : EReg) : StrictEncoding.Statement (.movExt2 d s) := by
  simp [StrictEncoding.Statement, encode, unusedBits, unusedMask, unused_two]

theorem StrictEncoding.ldb (d a f : XReg) : StrictEncoding.Statement (.ldb d a f) := by
  simp [StrictEncoding.Statement, encode, unusedBits, unusedMask, unused_three]

theorem StrictEncoding.stb (r a f : XReg) : StrictEncoding.Statement (.stb r a f) := by
  simp [StrictEncoding.Statement, encode, unusedBits, unusedMask, unused_three]

theorem StrictEncoding.ld (d a f : XReg) : StrictEncoding.Statement (.ld d a f) := by
  simp [StrictEncoding.Statement, encode, unusedBits, unusedMask, unused_three]

theorem StrictEncoding.st (r a f : XReg) : StrictEncoding.Statement (.st r a f) := by
  simp [StrictEncoding.Statement, encode, unusedBits, unusedMask, unused_three]

theorem StrictEncoding.lsh (p h : XReg) : StrictEncoding.Statement (.lsh p h) := by
  simp [StrictEncoding.Statement, encode, unusedBits, unusedMask, unused_two]

theorem StrictEncoding.lshImm (p : XReg) (imm20 : BitVec 20) : StrictEncoding.Statement (.lshImm p imm20) := by
  simp [StrictEncoding.Statement, encode, unusedBits, unusedMask]

theorem StrictEncoding.rsh (p h : XReg) : StrictEncoding.Statement (.rsh p h) := by
  simp [StrictEncoding.Statement, encode, unusedBits, unusedMask, unused_two]

theorem StrictEncoding.rshImm (p : XReg) (imm20 : BitVec 20) : StrictEncoding.Statement (.rshImm p imm20) := by
  simp [StrictEncoding.Statement, encode, unusedBits, unusedMask]

theorem StrictEncoding.jmpImm (a : XReg) (imm20 : BitVec 20) : StrictEncoding.Statement (.jmpImm a imm20) := by
  simp [StrictEncoding.Statement, encode, unusedBits, unusedMask]

theorem StrictEncoding.jmpRel (a f : XReg) : StrictEncoding.Statement (.jmpRel a f) := by
  simp [StrictEncoding.Statement, encode, unusedBits, unusedMask, unused_two]

theorem StrictEncoding.jmp (a : XReg) : StrictEncoding.Statement (.jmp a) := by
  simp [StrictEncoding.Statement, encode, unusedBits, unusedMask, unused_one]

theorem StrictEncoding.jmpc (c : BitVec 3) (p1 p2 a f : XReg) : StrictEncoding.Statement (.jmpc c p1 p2 a f) := by
  simp [StrictEncoding.Statement, encode, unusedBits, unusedMask, unused_code3]

theorem StrictEncoding.jmpcZ (c : BitVec 1) (p a f : XReg) : StrictEncoding.Statement (.jmpcZ c p a f) := by
  simp [StrictEncoding.Statement, encode, unusedBits, unusedMask, unused_code1]

theorem StrictEncoding.callImm (a : XReg) (imm20 : BitVec 20) : StrictEncoding.Statement (.callImm a imm20) := by
  simp [StrictEncoding.Statement, encode, unusedBits, unusedMask]

theorem StrictEncoding.call (a f : XReg) : StrictEncoding.Statement (.call a f) := by
  simp [StrictEncoding.Statement, encode, unusedBits, unusedMask, unused_two]

theorem StrictEncoding.ret : StrictEncoding.Statement (.ret) := by
  simp [StrictEncoding.Statement, encode, unusedBits, unusedMask, unused_none]

theorem StrictEncoding.push (r : XReg) : StrictEncoding.Statement (.push r) := by
  simp [StrictEncoding.Statement, encode, unusedBits, unusedMask, unused_one]

theorem StrictEncoding.pop (d : XReg) : StrictEncoding.Statement (.pop d) := by
  simp [StrictEncoding.Statement, encode, unusedBits, unusedMask, unused_one]

theorem StrictEncoding.pushExt (r : EReg) : StrictEncoding.Statement (.pushExt r) := by
  simp [StrictEncoding.Statement, encode, unusedBits, unusedMask, unused_one]

theorem StrictEncoding.popExt (d : EReg) : StrictEncoding.Statement (.popExt d) := by
  simp [StrictEncoding.Statement, encode, unusedBits, unusedMask, unused_one]

theorem StrictEncoding.syscall (i : XReg) : StrictEncoding.Statement (.syscall i) := by
  simp [StrictEncoding.Statement, encode, unusedBits, unusedMask, unused_one]

theorem StrictEncoding.sysret : StrictEncoding.Statement (.sysret) := by
  simp [StrictEncoding.Statement, encode, unusedBits, unusedMask, unused_none]

theorem StrictEncoding.hlt : StrictEncoding.Statement (.hlt) := by
  simp [StrictEncoding.Statement, encode, unusedBits, unusedMask, unused_none]

theorem StrictEncoding.cpuid (d : XReg) : StrictEncoding.Statement (.cpuid d) := by
  simp [StrictEncoding.Statement, encode, unusedBits, unusedMask, unused_one]

end Sys2Proof.Laws
end

