-- ==== Sys2Proof/Laws/Step.lean ====
section
/-! SUPPORT. What a step can do, said once: how the moving core is chosen, what that core's step can be, and what
a trap entry leaves as it was. -/

namespace Sys2Proof.Machine

open Sys2Proof

/-- What the choice of the moving core changes: pending bits that sources set, the turn, the script and the
count of free values. -/
structure Scheduled (s u : State) : Prop where
  mem : u.mem = s.mem
  cfg : u.cfg = s.cfg
  sysDclk : u.sysDclk = s.sysDclk
  bootAddr : u.bootAddr = s.bootAddr
  cores : ∀ c, u.coreAt c = { s.coreAt c with pending := (u.coreAt c).pending }

theorem Scheduled.refl (s : State) : Scheduled s s := ⟨rfl, rfl, rfl, rfl, fun _ => rfl⟩

theorem Scheduled.trans {s t u : State} (h : Scheduled s t) (k : Scheduled t u) : Scheduled s u :=
  ⟨k.mem.trans h.mem, k.cfg.trans h.cfg, k.sysDclk.trans h.sysDclk, k.bootAddr.trans h.bootAddr,
    fun c => by
      have hk := k.cores c
      rw [h.cores c] at hk
      exact hk⟩

theorem scheduled_raiseOn (s : State) (q : IrqSource) (c : CoreId) : Scheduled s (s.raiseOn q c) := by
  refine ⟨rfl, rfl, rfl, rfl, fun d => ?_⟩
  simp only [State.raiseOn, coreAt_setCoreAt]
  split
  · next h => rw [h]
  · rfl

theorem scheduled_fire (s : State) (q : IrqSource) : Scheduled s (s.fire q) := by
  unfold State.fire
  generalize s.cfg.irqTarget[q.index] = cs
  induction cs generalizing s with
  | nil => exact .refl s
  | cons c cs ih => exact (scheduled_raiseOn s q c).trans (ih _)

theorem scheduled_fireAll (s : State) (qs : List IrqSource) : Scheduled s (s.fireAll qs) := by
  unfold State.fireAll
  induction qs generalizing s with
  | nil => exact .refl s
  | cons q qs ih => exact (scheduled_fire s q).trans (ih _)

theorem scheduled_withTurn (s : State) (c : CoreId) : Scheduled s (s.withTurn c) :=
  ⟨rfl, rfl, rfl, rfl, fun _ => rfl⟩

theorem scheduled_countDraw (s : State) : Scheduled s s.countDraw :=
  ⟨rfl, rfl, rfl, rfl, fun _ => rfl⟩

/-- What a step that gives a next state did: a core was chosen, and either it has no step and nothing else
happened, or it took its step. -/
theorem step_cases {s t : State} (h : step s = .next t) :
    ∃ u, Scheduled s u ∧ (t = u ∨ (coreHasStep u.cfg u.core = true ∧ u.coreStep = .next t)) := by
  unfold step at h
  split at h
  · next k rest hs =>
    have hk : Scheduled s ({ s with script := rest } : State) := ⟨rfl, rfl, rfl, rfl, fun _ => rfl⟩
    refine ⟨(({ s with script := rest } : State).fireAll k.fires).withTurn k.core,
      (hk.trans (scheduled_fireAll _ _)).trans (scheduled_withTurn _ _), ?_⟩
    unfold State.scriptedStep at h
    split at h
    · next hc => exact .inr ⟨hc, h⟩
    · exact .inl (Host.Outcome.next.inj h).symm
  · unfold State.freeStep at h
    have hm : ∀ c ∈ s.movers, coreHasStep s.cfg (s.coreAt c) = true := fun c hc =>
      (List.mem_filter.mp hc).2
    split at h
    · cases h
    · next c e => exact ⟨s.withTurn c, scheduled_withTurn s _, .inr ⟨hm c (by simp [e]), h⟩⟩
    · next c d cs e =>
      have hlt : Config.drawTurn s.draws % (cs.length + 2) < (c :: d :: cs).length :=
        Nat.mod_lt _ (Nat.succ_pos _)
      refine ⟨_, (scheduled_countDraw s).trans (scheduled_withTurn _ _), .inr ⟨hm _ ?_, h⟩⟩
      rw [e, List.getD_eq_getElem _ _ hlt]
      exact List.getElem_mem _

/-- What the step of one core that gives a next state did. -/
inductive CoreStepCase (u t : State) : Prop where
  | interrupt (q : IrqSource) (hq : nextIrq u.cfg u.core = some q) (h : u.takeInterrupt q = .next t)
  | trap (e : Exc) (hn : nextIrq u.cfg u.core = none) (h : u.takeException e none = .next t)
  | ran (i : Instr) (hn : nextIrq u.cfg u.core = none) (hf : fetchCheck u.mode u.pc = none)
      (hi : decodeWord (u.storageWord u.pc.toNat) = .ok i) (h : exec i u = .next t)

theorem coreStep_cases {u t : State} (h : u.coreStep = .next t) : CoreStepCase u t := by
  unfold State.coreStep at h
  split at h
  · next q hq => exact .interrupt q hq h
  · next hn =>
    unfold State.fetchAndRun at h
    split at h
    · exact .trap _ hn h
    · next hf =>
      unfold State.runWord at h
      split at h
      · cases h
      · split at h
        · next i hi => exact .ran i hn hf hi h
        · exact .trap _ hn h

/-- A core that has a step and takes no interrupt is Running and not halted. -/
theorem not_halted_of_hasStep {s : State} (h : coreHasStep s.cfg s.core = true)
    (hn : nextIrq s.cfg s.core = none) : s.runState = .running ∧ s.halted = false := by
  simp only [coreHasStep, hn, Bool.and_eq_true, beq_iff_eq] at h
  exact ⟨h.1, by simpa [State.halted] using h.2⟩

/-- What a trap entry leaves as it was, whatever it does. -/
structure TrapFrame (s t : State) (info : Option Word) : Prop where
  cfg : t.cfg = s.cfg
  turn : t.turn = s.turn
  exc : t.exc = info.getD s.exc
  x : ∀ d, d ≠ xsp → t.x d = s.x d
  e : ∀ d, t.e d = s.e d
  core0 : (t.coreAt 0).runState = .off → (s.coreAt 0).runState = .off
  mode : (t.mode = .p0 ∧ t.halted = false ∧ t.runState = s.runState) ∨
    (t.runState = .tripleFaulted ∧ t.mode = s.mode ∧ t.halted = s.halted ∧ t.mem = s.mem ∧
      t.sysDclk = s.sysDclk ∧ t.bootAddr = s.bootAddr ∧ (∀ c, c ≠ s.turn → t.coreAt c = s.coreAt c) ∧
      t.core = { s.core with exc := t.exc, runState := .tripleFaulted })
  others : ∀ c, c ≠ s.turn → t.coreAt c = s.coreAt c ∨ (s.turn = 0 ∧ (t.coreAt c).switched)
  storage : t.mem = s.mem ∨ ∃ v, s.dataCheck .p0 .store (s.x xsp - 4#32) .word = none ∧
    (region (s.x xsp - 4#32) = .ivt ∨ region (s.x xsp - 4#32) = .prog) ∧ t.mode = .p0 ∧
      t.mem = storageWrite s.mem (s.x xsp - 4#32) v .word

@[simp] theorem recordInfo_x (s : State) (info : Option Word) (d : XReg) :
    (s.recordInfo info).x d = s.x d := by cases info <;> simp [State.recordInfo]

@[simp] theorem recordInfo_exc (s : State) (info : Option Word) :
    (s.recordInfo info).exc = info.getD s.exc := by cases info <;> simp [State.recordInfo]

theorem recordInfo_eq (s : State) (info : Option Word) :
    s.recordInfo info = s.setCore { s.core with exc := info.getD s.exc } := by
  cases info
  · exact (setCore_core s).symm
  · rfl

/-- The frame of a trap entry that gives a next state. -/
theorem trapEntry_frame {s t : State} {v : Nat} {ret : Word} {info : Option Word}
    (h : s.trapEntry v ret info = .next t) : TrapFrame s t info := by
  unfold State.trapEntry at h
  have hr := recordInfo_eq s info
  generalize s.recordInfo info = r at h hr
  have hrc : r.core = { s.core with exc := info.getD s.exc } := by rw [hr]; simp
  have hro : ∀ c, c ≠ s.turn → r.coreAt c = s.coreAt c := fun c hc => by
    rw [hr, coreAt_setCore, if_neg hc]
  have hr0 : (r.coreAt 0).runState = (s.coreAt 0).runState := by
    by_cases h0 : (0 : CoreId) = s.turn
    · rw [hr, coreAt_setCore, if_pos h0, h0]; rfl
    · rw [hro 0 h0]
  have hrt : r.turn = s.turn := by rw [hr]; rfl
  have hrm : r.mem = s.mem := by rw [hr]; rfl
  have hrcfg : r.cfg = s.cfg := by rw [hr]; rfl
  have hrx : ∀ d, r.x d = s.x d := fun d => (congrArg (fun k : Core => k.x[d]) hrc :)
  have hre : ∀ d, r.e d = s.e d := fun d => (congrArg (fun k : Core => k.e[d]) hrc :)
  have hrexc : r.exc = info.getD s.exc := (congrArg Core.exc hrc :)
  have hrmode : r.mode = s.mode := (congrArg Core.mode hrc :)
  have hrhalt : r.halted = s.halted := (congrArg Core.halted hrc :)
  obtain ⟨v', u, hv, hc, hf, hw, rfl⟩ | rfl := deliver_eq_next h
  · have hd : s.dataCheck .p0 .store (s.x xsp - 4#32) .word = none := by
      rw [hrx] at hc; rw [hr] at hc; exact hc
    have key : CtlFrame r u ∨ u = r.setMem (storageWrite r.mem (r.x xsp - 4#32) ret .word) := by
      obtain ⟨-, e⟩ | ⟨-, e⟩ := writeThrough_cases hc hw
      exacts [.inr e, .inl e]
    have kc : u.core = { r.core with coreXclk := u.coreXclk, coreIntr := u.coreIntr } ∧
        u.turn = r.turn ∧ u.cfg = r.cfg ∧ (u.coreAt 0).runState = (r.coreAt 0).runState ∧
        ∀ c, c ≠ r.turn → u.coreAt c = r.coreAt c ∨ (r.turn = 0 ∧ (u.coreAt c).switched) := by
      obtain k | rfl := key
      · exact ⟨k.core, k.turn, k.cfg, k.core0, k.others⟩
      · exact ⟨rfl, rfl, rfl, rfl, fun _ _ => .inl rfl⟩
    obtain ⟨k1, k2, k3, k4, k5⟩ := kc
    rw [hrc] at k1
    have kx : ∀ d, u.x d = s.x d := fun d => (congrArg (fun k : Core => k.x[d]) k1 :)
    have ke : ∀ d, u.e d = s.e d := fun d => (congrArg (fun k : Core => k.e[d]) k1 :)
    have kexc : u.exc = info.getD s.exc := (congrArg Core.exc k1 :)
    have krun : u.runState = s.runState := (congrArg Core.runState k1 :)
    have hoth : ∀ c, c ≠ u.turn → (u.enterHandler (r.x xsp - 4#32) (r.handler v')).coreAt c =
        u.coreAt c := by
      intro c hc
      simp only [State.enterHandler, State.setPc, State.setHalted, State.setMode, State.setX,
        coreAt_setCore]
      have : ∀ (u : State) (k : Core), (u.setCore k).turn = u.turn := fun _ _ => rfl
      simp only [this]
      rw [if_neg hc, if_neg hc, if_neg hc, if_neg hc]
    refine ⟨?_, ?_, ?_, fun d hd => ?_, fun d => ?_, fun h0 => ?_, .inl ⟨?_, ?_, ?_⟩, fun c hc => ?_, ?_⟩
    · simp [State.enterHandler, k3, hrcfg]
    · simp [State.enterHandler, k2, hrt]
    · simp [State.enterHandler, kexc]
    · simp [State.enterHandler, hd, kx]
    · simp [State.enterHandler, ke]
    · by_cases hz : (0 : CoreId) = u.turn
      · have e : ((u.enterHandler (r.x xsp - 4#32) (r.handler v')).coreAt 0).runState =
            u.runState := by
          have : (u.enterHandler (r.x xsp - 4#32) (r.handler v')).runState = u.runState := by
            simp [State.enterHandler]
          rw [← this, State.runState, State.core]
          congr 2
        rw [e, State.runState, State.core, ← hz, k4, hr0] at h0
        exact h0
      · rw [hoth 0 hz, k4, hr0] at h0
        exact h0
    · simp [State.enterHandler]
    · simp [State.enterHandler]
    · simp [State.enterHandler, krun]
    · rw [hoth c (by rw [k2, hrt]; exact hc)]
      obtain e | ⟨e0, e⟩ := k5 c (by rw [hrt]; exact hc)
      · exact .inl (e.trans (hro c hc))
      · exact .inr ⟨hrt ▸ e0, e⟩
    · obtain ⟨hreg, e⟩ | ⟨-, e⟩ := writeThrough_cases hc hw
      · refine .inr ⟨ret, hd, by rwa [hrx] at hreg, by simp [State.enterHandler], ?_⟩
        simp [State.enterHandler, e, hrx, hrm]
      · exact .inl (by simp [State.enterHandler, e.mem, hrm])
  · have hoth : ∀ c, c ≠ s.turn → (r.setRunState .tripleFaulted).coreAt c = s.coreAt c := by
      intro c hc
      simp only [State.setRunState, coreAt_setCore, hrt]
      rw [if_neg hc, hro c hc]
    refine ⟨by simpa, by simpa, ?_, fun d _ => ?_, fun d => ?_, fun h0 => ?_, .inr ⟨?_, ?_, ?_, ?_, ?_, ?_, hoth, ?_⟩,
      fun c hc => .inl (hoth c hc), .inl (by simpa)⟩
    · simp [hrexc]
    · simp [hrx]
    · simp [hre]
    · by_cases hz : (0 : CoreId) = r.turn
      · simp [State.setRunState, hz] at h0
      · rwa [hoth 0 (by rwa [hrt] at hz)] at h0
    · simp
    · simp [hrmode]
    · simp [hrhalt]
    · simpa
    · rw [hr]; simp
    · rw [hr]; simp
    · simp [State.setRunState, State.exc, hrc]

end Sys2Proof.Machine
end

