-- ==== Sys2Proof/Tests/Slice0.lean ====
section
/-! SUPPORT. Tests: ill-formed terms, words written from the encodings of 30_encoding, one step of every
instruction with the values of 95_test_vectors (its rows V1 to V151), and for every obligation with
hypotheses a concrete state and operands that meet them, at the ends of their ranges. -/

namespace Sys2Proof.Tests

open Sys2Proof Sys2Proof.Machine

/-! ## Small states -/

/-- A vector table in which the handler of vector v is 0x9000 + 4 v. -/
def vectors : Memory :=
  (List.range 80).map fun n =>
    (0x7F00 + n, BitVec.ofNat 8 (if n % 4 = 0 then n else if n % 4 = 1 then 0x90 else 0))

/-- A core that runs at 0x8000 in P0 with its stack at the end of program memory. -/
def runner : Core :=
  { Core.poweredOn 0x8000#32 0#8 with x := (Vector.replicate 16 0#32).set 15 0xFFFF6000#32 }

/-- The machine with core 0 ready to run and the vector table installed. -/
def demo : State :=
  { State.reset with cores := #v[runner, Core.off, Core.off, Core.off], mem := vectors }

/-- The same in P1. -/
def user : State := demo.setMode .p1

/-- The same with core 1 running too and having the turn. -/
def second : State := { demo.setCoreAt 1 runner with turn := 1 }

/-- The state with other parameters. -/
def withCfg (s : State) (f : Config → Config) : State := { s with cfg := f s.cfg }

/-- The state with a word in memory. -/
def withWord (s : State) (a v : Word) : State := s.setMem (Memory.writeWord s.mem a.toNat v)

/-- The state with values in X1, X2 and X3. -/
def regs (s : State) (a b c : Word) : State := ((s.setX 1 a).setX 2 b).setX 3 c

/-- The outcome is a next state with the property. -/
def gives (r : Result) (p : State → Bool) : Bool :=
  match r with
  | .next t => p t
  | .fault _ | .refused _ => false

theorem of_gives {r : Result} {p : State → Bool} (h : gives r p = true) :
    ∃ t, r = .next t ∧ p t = true := by
  cases r with
  | next t => exact ⟨t, rfl, h⟩
  | fault _ => cases h
  | refused _ => cases h

/-- The outcome is that refusal. -/
def refuses (r : Result) (q : Refusal) : Bool :=
  match r with
  | .refused q' => q' == q
  | .next _ | .fault _ => false

/-- One step over the word, placed where it is fetched. -/
def runs (s : State) (w : Nat) (p : State → Bool) : Bool := gives (step (s.withFetchWord 32 w)) p

/-- The state has just entered vector v with that return address and EXC. -/
def trapped (t : State) (v : Nat) (ret exc : Word) : Bool :=
  t.pc == BitVec.ofNat 32 (0x9000 + 4 * v) && t.x xsp == 0xFFFF5FFC#32 &&
    t.storageWord 0xFFFF5FFC == ret && t.exc == exc && t.mode == .p0

/-! ## Well-formedness (30_encoding R109) -/

theorem test_jmpc_code_6_ill_formed : (Instr.jmpc 6#3 1 2 10 11).wellFormed = false := by decide
theorem test_jmpc_code_7_ill_formed : (Instr.jmpc 7#3 1 2 10 11).wellFormed = false := by decide
theorem test_jmpc_code_5_well_formed : (Instr.jmpc 5#3 1 2 10 11).wellFormed = true := by decide

/-! ## Decoding: words written out from the field tables of 30_encoding R104 and R110 -/

theorem test_decode_arithmetic :
    [0x01120000#32, 0x02340000#32, 0x03560000#32, 0x04780000#32, 0x05000000#32, 0x06000000#32,
      0x07000000#32, 0x08000000#32].map decodeWord =
    [.ok (.add 1 2), .ok (.sub 3 4), .ok (.mul 5 6), .ok (.div 7 8), .ok .addFp, .ok .subFp,
      .ok .mulFp, .ok .divFp] := by decide

theorem test_decode_logic_move :
    [0x10120000#32, 0x11120000#32, 0x12120000#32, 0x13900000#32, 0x14F20000#32, 0x153ABCDE#32,
      0x16301234#32, 0x17510000#32, 0x18150000#32, 0x19250000#32].map decodeWord =
    [.ok (.and 1 2), .ok (.or 1 2), .ok (.xor 1 2), .ok (.not 9), .ok (.mov 15 2),
      .ok (.movImm 3 0xABCDE#20), .ok (.movImmHigh 3 0x1234#16), .ok (.movExt 5 1),
      .ok (.movGp 1 5), .ok (.movExt2 2 5)] := by decide

theorem test_decode_load_store_shift :
    [0x20123000#32, 0x21123000#32, 0x22123000#32, 0x23123000#32, 0x28120000#32, 0x2910001F#32,
      0x2A120000#32, 0x2B100021#32].map decodeWord =
    [.ok (.ldb 1 2 3), .ok (.stb 1 2 3), .ok (.ld 1 2 3), .ok (.st 1 2 3), .ok (.lsh 1 2),
      .ok (.lshImm 1 31#20), .ok (.rsh 1 2), .ok (.rshImm 1 33#20)] := by decide

theorem test_decode_jump :
    [0x30A00040#32, 0x31AB0000#32, 0x32C00000#32, 0x33512AB0#32, 0x3411AB00#32, 0x3421AB00#32,
      0x33612AB0#32].map decodeWord =
    [.ok (.jmpImm 10 0x40#20), .ok (.jmpRel 10 11), .ok (.jmp 12), .ok (.jmpc 5#3 1 2 10 11),
      .ok (.jmpcZ 1#1 1 10 11), .ok (.jmpcZ 0#1 1 10 11), .error (.reservedCondition 6#3)] := by
  decide

theorem test_decode_call_stack_system :
    [0x38A00100#32, 0x39AB0000#32, 0x3A000000#32, 0x3B100000#32, 0x3C200000#32, 0x3D300000#32,
      0x3E400000#32, 0x40000000#32, 0x41000000#32, 0x42000000#32, 0x43100000#32].map decodeWord =
    [.ok (.callImm 10 0x100#20), .ok (.call 10 11), .ok .ret, .ok (.push 1), .ok (.pop 2),
      .ok (.pushExt 3), .ok (.popExt 4), .ok (.syscall 0), .ok .sysret, .ok .hlt, .ok (.cpuid 1)] := by
  decide

/-- R61: the four bytes of ADD X1 X2, lowest address first, through the table's own entry. -/
theorem test_decode_bytes :
    decodeBytes [0x00#8, 0x00#8, 0x12#8, 0x01#8] = .ok (.add 1 2, []) ∧
      decodeTableWord 32 0x01120000 = some (.add 1 2) ∧ decodeTableWord 32 0x3F000000 = none := by
  decide

/-! ## One step of every instruction (95_test_vectors) -/

theorem test_add_wraps : runs (regs demo 0xFFFFFFFF#32 1#32 0#32) 0x01120000 (fun t =>
    t.x 1 == 0#32 && t.pc == 0x8004#32) = true := by decide -- V2
theorem test_sub_borrows : runs (regs demo 0#32 1#32 0#32) 0x02120000 (fun t =>
    t.x 1 == 0xFFFFFFFF#32 && t.x 2 == 1#32) = true := by decide -- V6
theorem test_mul_same_register : runs (regs demo 0x0000FFFF#32 0#32 0#32) 0x03110000 (fun t =>
    t.x 1 == 0xFFFE0001#32) = true := by decide -- V11
theorem test_div_unsigned : runs (regs demo 0xFFFFFFFF#32 2#32 0#32) 0x04120000 (fun t =>
    t.x 1 == 0x7FFFFFFF#32) = true := by decide -- V14
theorem test_div_by_zero : runs (regs demo 0x64#32 0#32 0#32) 0x04120000 (fun t =>
    trapped t 8 0x8000#32 0#32 && t.x 1 == 0x64#32) = true := by decide -- V17
theorem test_add_fp : runs demo 0x05120000 (trapped · 5 0x8000#32 0#32) = true := by decide -- V19
theorem test_sub_fp : runs demo 0x06000000 (trapped · 5 0x8000#32 0#32) = true := by decide
theorem test_mul_fp : runs demo 0x07000000 (trapped · 5 0x8000#32 0#32) = true := by decide
theorem test_div_fp : runs demo 0x08000000 (trapped · 5 0x8000#32 0#32) = true := by decide -- V20
theorem test_and : runs (regs demo 0xFF00FF00#32 0x0FF00FF0#32 0#32) 0x10120000 (fun t =>
    t.x 1 == 0x0F000F00#32) = true := by decide -- V21
theorem test_or : runs (regs demo 0xFF00FF00#32 0x0FF00FF0#32 0#32) 0x11120000 (fun t =>
    t.x 1 == 0xFFF0FFF0#32) = true := by decide -- V22
theorem test_xor : runs (regs demo 0xFF00FF00#32 0x0FF00FF0#32 0#32) 0x12120000 (fun t =>
    t.x 1 == 0xF0F0F0F0#32) = true := by decide -- V23
theorem test_not : runs (demo.setX 9 0x0000FFFF#32) 0x13900000 (fun t =>
    t.x 9 == 0xFFFF0000#32) = true := by decide -- V25
theorem test_mov_to_xsp : runs (regs demo 0#32 0x9000#32 0#32) 0x14F20000 (fun t =>
    t.x xsp == 0x9000#32) = true := by decide -- V28
theorem test_mov_imm_clears_the_top : runs (regs demo 0#32 0#32 0xFFFFFFFF#32) 0x153ABCDE (fun t =>
    t.x 3 == 0x000ABCDE#32) = true := by decide -- V29
theorem test_mov_imm_high_keeps_the_low_half :
    runs (regs demo 0#32 0#32 0x000ABCDE#32) 0x16301234 (fun t => t.x 3 == 0x1234BCDE#32) = true := by
  decide -- V32
theorem test_mov_ext : runs (regs demo 0xCAFEF00D#32 0#32 0#32) 0x17510000 (fun t =>
    t.e 5 == 0xCAFEF00D#32 && t.e 1 == 0#32 && t.x 5 == 0#32) = true := by decide -- V35
theorem test_mov_gp : runs ((regs demo 1#32 0#32 0#32).setE 5 0xCAFEF00D#32) 0x18150000 (fun t =>
    t.x 1 == 0xCAFEF00D#32) = true := by decide -- V36
theorem test_mov_ext2 : runs ((demo.setE 2 7#32).setE 5 0xCAFEF00D#32) 0x19250000 (fun t =>
    t.e 2 == 0xCAFEF00D#32 && t.x 2 == 0#32) = true := by decide -- V37
theorem test_ldb_lane_16 :
    runs ((regs demo 0xAABBCCDD#32 0x7F01#32 16#32)) 0x20123000 (fun t =>
      t.x 1 == 0xAA90CCDD#32) = true := by decide -- V59, its byte 0x90 at 0x7F01
theorem test_ldb_lane_4_refused :
    refuses (step ((regs demo 0#32 0x9000#32 4#32).withFetchWord 32 0x20123000)) .ldbLaneOffset
      = true := by decide -- V61
theorem test_stb_shifts : runs (regs demo 0xAABBCCDD#32 0x9001#32 16#32) 0x21123000 (fun t =>
    t.storageByte 0x9001 == 0xBB#8) = true := by decide -- V66
theorem test_stb_to_rom : runs (regs demo 0xAABBCCDD#32 0xFFFFE000#32 0#32) 0x21123000
    (trapped · 1 0x8000#32 0xFFFFE000#32) = true := by decide -- V70
theorem test_ld_offset_wraps :
    runs (withWord (regs demo 0#32 0x9014#32 0xFFFFFFFC#32) 0x9010#32 0x12345678#32) 0x22123000
      (fun t => t.x 1 == 0x12345678#32) = true := by decide -- V72
theorem test_ld_misaligned : runs (regs demo 0x55#32 0x9000#32 2#32) 0x22123000 (fun t =>
    trapped t 4 0x8000#32 0x9002#32 && t.x 1 == 0x55#32) = true := by decide -- V73
theorem test_st_little_endian : runs (regs demo 0x12345678#32 0x9000#32 8#32) 0x23123000 (fun t =>
    t.storageByte 0x9008 == 0x78#8 && t.storageByte 0x900B == 0x12#8) = true := by decide -- V78
theorem test_st_user_to_vectors : runs (regs user 0x9100#32 0x7F00#32 0x20#32) 0x23123000 (fun t =>
    trapped t 1 0x8000#32 0x7F20#32 && t.storageByte 0x7F20 == 0x20#8) = true := by decide -- V81
theorem test_lsh_by_32 : runs (regs demo 0xFFFFFFFF#32 32#32 0#32) 0x28120000 (fun t =>
    t.x 1 == 0#32) = true := by decide -- V42
theorem test_lsh_imm_31 : runs (regs demo 3#32 0#32 0#32) 0x2910001F (fun t =>
    t.x 1 == 0x80000000#32) = true := by decide -- V46
theorem test_nop : runs (demo.setX 0 0xDEADBEEF#32) 0x29000000 (fun t =>
    t.x 0 == 0xDEADBEEF#32 && t.pc == 0x8004#32) = true := by decide -- V49
theorem test_rsh_logical : runs (regs demo 0x80000001#32 1#32 0#32) 0x2A120000 (fun t =>
    t.x 1 == 0x40000000#32) = true := by decide -- V50
theorem test_rsh_arithmetic :
    runs (withCfg (regs demo 0x80000001#32 1#32 0#32) ({ · with rshArith := true })) 0x2A120000
      (fun t => t.x 1 == 0xC0000000#32) = true := by decide -- V50
theorem test_rsh_imm_33 : runs (regs demo 0xF0000000#32 0#32 0#32) 0x2B100021 (fun t =>
    t.x 1 == 0#32) = true := by decide -- V56
theorem test_jmp_imm : runs (demo.setX 10 0x8001#32) 0x30AFFFFF (fun t =>
    t.pc == 0x108000#32) = true := by decide -- V86
theorem test_jmp_rel_backward : runs ((demo.setX 10 0x8100#32).setX 11 0xFFFFFFF0#32) 0x31AB0000
    (fun t => t.pc == 0x80F0#32) = true := by decide -- V90
theorem test_jmp : runs (demo.setX 12 0xA000#32) 0x32C00000 (fun t => t.pc == 0xA000#32) = true := by
  decide -- V92
theorem test_jmpc_eq_taken : runs ((((demo.setX 1 9#32).setX 10 0x8000#32).setX 11 0x100#32))
    0x33011AB0 (fun t => t.pc == 0x8100#32) = true := by decide -- V98
theorem test_jmpc_code_6 : runs demo 0x33612AB0 (trapped · 5 0x8000#32 0#32) = true := by
  decide -- V95
theorem test_jmpc_z_zr_taken : runs ((demo.setX 10 0x8000#32).setX 11 0x100#32) 0x3411AB00 (fun t =>
    t.pc == 0x8100#32) = true := by decide -- V102
theorem test_jmpc_z_nz_not_taken : runs ((demo.setX 10 0x8000#32).setX 11 0x100#32) 0x3401AB00
    (fun t => t.pc == 0x8004#32) = true := by decide -- V99
theorem test_call_imm : runs ((demo.setX 10 0x8000#32).setPc 0x8010#32) 0x38A00100 (fun t =>
    t.pc == 0x8100#32 && t.x xsp == 0xFFFF5FFC#32 && t.storageWord 0xFFFF5FFC == 0x8014#32)
      = true := by decide -- V106
theorem test_call_through_xsp : runs ((demo.setX xsp 0x9000#32).setPc 0x8010#32) 0x39FB0000 (fun t =>
    t.pc == 0x9000#32 && t.x xsp == 0x8FFC#32 && t.storageWord 0x8FFC == 0x8014#32) = true := by
  decide -- V108
theorem test_ret : runs (withWord (demo.setX xsp 0xFFFF5FFC#32) 0xFFFF5FFC#32 0x8016#32) 0x3A000000
    (fun t => t.pc == 0x8016#32 && t.x xsp == 0xFFFF6000#32) = true := by decide -- V110
theorem test_push_xsp : runs demo 0x3BF00000 (fun t =>
    t.x xsp == 0xFFFF5FFC#32 && t.storageWord 0xFFFF5FFC == 0xFFFF6000#32) = true := by
  decide -- V112
theorem test_push_without_stack : runs (demo.setX xsp 0#32) 0x3B100000 (fun t =>
    t.runState == .tripleFaulted && t.exc == 0xFFFFFFFC#32 && t.pc == 0x8000#32) = true := by
  decide -- V120
theorem test_pop_xsp : runs (withWord (demo.setX xsp 0xFFFF5FFC#32) 0xFFFF5FFC#32 0x9000#32)
    0x3CF00000 (fun t => t.x xsp == 0x9000#32) = true := by decide -- V114
theorem test_push_ext : runs (demo.setE 3 0x11223344#32) 0x3D300000 (fun t =>
    t.storageWord 0xFFFF5FFC == 0x11223344#32) = true := by decide -- V115
theorem test_pop_ext : runs (withWord (demo.setX xsp 0xFFFF5FFC#32) 0xFFFF5FFC#32 0x11223344#32)
    0x3E400000 (fun t => t.e 4 == 0x11223344#32 && t.x xsp == 0xFFFF6000#32) = true := by
  decide -- V116
theorem test_syscall : runs (withWord (user.setPc 0x8020#32) 0x7FFC#32 0x9000#32) 0x40000000 (fun t =>
    t.mode == .p0 && t.pc == 0x9000#32 && t.storageWord 0xFFFF5FFC == 0x8024#32) = true := by
  decide -- V122
theorem test_sysret : runs (withWord (demo.setX xsp 0xFFFF5FFC#32) 0xFFFF5FFC#32 0x8024#32)
    0x41000000 (fun t => t.mode == .p1 && t.pc == 0x8024#32 && t.x xsp == 0xFFFF6000#32) = true := by
  decide -- V125
theorem test_sysret_user : runs user 0x41000000 (trapped · 5 0x8000#32 0#32) = true := by
  decide -- V126
theorem test_hlt : runs (demo.setPc 0x8030#32) 0x42000000 (fun t =>
    t.halted && t.pc == 0x8034#32) = true := by decide -- V127
theorem test_hlt_user : runs user 0x42000000 (trapped · 5 0x8000#32 0#32) = true := by decide -- V128
theorem test_cpuid : runs user 0x43100000 (fun t => t.pc == 0x8004#32 && t.mode == .p1) = true := by
  decide -- V129

/-! ## Traps, interrupts and the edges of the address map (95_test_vectors) -/

/-- V139: IRQL2 before TIM0_COMP; the ADD does not run and TIM0_COMP stays pending. -/
theorem test_interrupt_priority :
    gives (step (withWord (((regs demo 1#32 2#32 0#32).setCoreIntr 1#32).setPending .irql2 true
        |>.setPending .tim0Comp true) 0x8000#32 0x01120000#32)) (fun t =>
      trapped t 13 0x8000#32 0#32 && t.x 1 == 1#32 && !t.pending .irql2 && t.pending .tim0Comp)
      = true := by decide

/-- V144: an enabled interrupt wakes a halted core; the return address is the instruction after HLT. -/
theorem test_wake_from_halt :
    gives (step (((demo.setHalted true).setCoreIntr 1#32).setPending .osTimerTrigger true)) (fun t =>
      trapped t 15 0x8000#32 0#32 && !t.halted) = true := by decide

/-- V134: a misaligned handler address; DoubleFault gets the original return address. -/
theorem test_double_fault : runs (withWord demo 0x7F14#32 0x9602#32) 0x00000000
    (trapped · 9 0x8000#32 0#32) = true := by decide

/-- V151: after the last word of the ROM pc wraps to 0. -/
theorem test_pc_wraps : runs (demo.setPc 0xFFFFFFFC#32) 0x01120000 (fun t => t.pc == 0#32) = true := by
  decide

/-- V149: a misaligned pc. -/
theorem test_misaligned_fetch :
    gives (step (demo.setPc 0x8002#32)) (trapped · 7 0x8002#32 0#32) = true := by decide

/-- R53, R54: the first step after reset: RESET_PC is misaligned and XSP is 0, so core 0 triple-faults
(log 3). -/
theorem test_first_step_after_reset :
    gives (step State.reset) (fun t => t.runState == .tripleFaulted) = true := by decide

/-- R76 at the ends of the regions. -/
theorem test_data_check_ends :
    demo.dataCheck .p0 .load 0x3EFF#32 .byte = some .loadFault ∧
    demo.dataCheck .p0 .load 0x3F00#32 .byte = none ∧
    demo.dataCheck .p0 .store 0xFFFFDFFF#32 .byte = none ∧
    demo.dataCheck .p0 .store 0xFFFFE000#32 .byte = some .storeFault ∧
    demo.dataCheck .p0 .load 0xFFFFE000#32 .word = none ∧
    demo.dataCheck .p1 .load 0x7FFF#32 .byte = some .loadFault ∧
    demo.dataCheck .p1 .store 0x8000#32 .word = none ∧
    demo.dataCheck .p1 .store 0xFFFF5FFF#32 .byte = none ∧
    demo.dataCheck .p1 .store 0xFFFF6000#32 .byte = some .storeFault ∧
    second.dataCheck .p0 .store 0x3F3F#32 .byte = none ∧
    second.dataCheck .p0 .store 0x3F40#32 .byte = some .storeFault ∧
    second.dataCheck .p0 .load 0x3F4C#32 .byte = some .loadFault := by decide

/-! ## Witnesses: for every obligation with hypotheses, what meets them -/

/-- The top and the bottom of where a push reaches storage, and one under SMC_POLICY = refuse. -/
def pushTop : State := user
def pushBottom : State := withCfg (demo.setX xsp 0x7F04#32) ({ · with smcRefuse := true })

theorem witness_DecodeOfEncode :
    (Instr.jmpc 5#3 15 0 1 2).wellFormed = true ∧ (Instr.movImm 15 0xFFFFF#20).wellFormed = true := by
  decide

theorem witness_EncodeOfDecode :
    decodeWord 0x33D12ABF#32 = .ok (.jmpc 5#3 1 2 10 11) ∧
      (opcode 0x33D12ABF#32).toNat ∉ [5, 6, 7, 8] ∧ decodeWord 0x08FFFFFF#32 = .ok .divFp := by decide

theorem witness_IllegalOpcodesRaiseInvalidOpcode :
    ∀ n ∈ [0x00, 0x05, 0x08, 0x09, 0x0F, 0x1A, 0x1F, 0x24, 0x27, 0x2C, 0x2F, 0x35, 0x37, 0x3F, 0x44,
        0xFF],
      (opcode (BitVec.ofNat 32 (n * 2 ^ 24))).toNat ∉ implementedOpcodes := by decide

theorem witness_ReservedEncodingsRaiseInvalidOpcode :
    (demo.cfg.unusedBitsRefuse = false ∨ unusedBits 0x05000000#32 = 0#32) ∧
      ((withCfg user ({ · with unusedBitsRefuse := true })).cfg.unusedBitsRefuse = false ∨
        unusedBits 0x41000000#32 = 0#32) ∧
      (opcode 0x05FFFFFF#32).toNat = 5 ∧ (opcode 0x08000000#32).toNat = 8 ∧
      opcode 0x33600000#32 = 0x33#8 ∧ (code3 0x33600000#32).toNat = 6 ∧
      opcode 0x33700000#32 = 0x33#8 ∧ (code3 0x33700000#32).toNat = 7 ∧
      user.mode = .p1 ∧ opcode 0x41000000#32 = 0x41#8 ∧ opcode 0x42000000#32 = 0x42#8 := by decide

theorem witness_UnusedBitsFollowThePolicy :
    (demo.cfg.unusedBitsRefuse = false ∧
      0x0112FFFF#32 &&& ~~~unusedMask (opcode 0x0112FFFF#32) =
        0x01120000#32 &&& ~~~unusedMask (opcode 0x0112FFFF#32)) ∧
      (withCfg demo ({ · with unusedBitsRefuse := true })).cfg.unusedBitsRefuse = true ∧
      unusedBits 0x0112FFFF#32 ≠ 0#32 ∧
      refuses ((withCfg demo ({ · with unusedBitsRefuse := true })).runWord 0x01120001#32)
        .unusedBitsSet = true := by decide

/-- A fetch at p in mode m is within program memory, or within the ROM in P0. -/
def fetchable (m : Mode) (p : Word) : Prop :=
  (0x8000 ≤ ((demo.setMode m).setPc p).pc.toNat ∧ ((demo.setMode m).setPc p).pc.toNat ≤ 0xFFFF5FFF) ∨
    (0xFFFFE000 ≤ ((demo.setMode m).setPc p).pc.toNat ∧ ((demo.setMode m).setPc p).mode = .p0)

/-- One pc for each clause, at the ends of the ranges; all but the first are multiples of 4. -/
theorem witness_FetchChecksAndReads :
    (demo.setPc 0x8002#32).pc.toNat % 4 ≠ 0 ∧ (demo.setPc 0x7FFC#32).pc.toNat % 4 = 0 ∧
      ¬fetchable .p0 0x7FFC#32 ∧ ¬fetchable .p0 0xFFFF6000#32 ∧ ¬fetchable .p0 0xFFFFDFFC#32 ∧
      ¬fetchable .p1 0xFFFFE000#32 ∧ fetchable .p1 0x8000#32 ∧ fetchable .p1 0xFFFF5FFC#32 ∧
      fetchable .p0 0xFFFFE000#32 ∧ fetchable .p0 0xFFFFFFFC#32 := by
  unfold fetchable
  decide

/-- A core ready to run ADD X1 X2. -/
def adding : State := withWord (regs demo 5#32 7#32 0#32) 0x8000#32 0x01120000#32

/-- The same after a tick in which IRQL0 fires, which core 0 has not enabled. -/
def fired : State := (adding.fireAll [.irql0]).withTurn 0

theorem witness_StepRunsDecodedInstruction :
    (adding.script = [] ∧ adding.movers = [0] ∧ (adding.withTurn 0).runState = .running ∧
      (adding.withTurn 0).halted = false ∧
      nextIrq (adding.withTurn 0).cfg (adding.withTurn 0).core = none ∧
      fetchCheck (adding.withTurn 0).mode (adding.withTurn 0).pc = none ∧
      (adding.withTurn 0).cfg.unusedBitsRefuse = false ∧
      decodeWord ((adding.withTurn 0).storageWord (adding.withTurn 0).pc.toNat) = .ok (.add 1 2)) ∧
    fired.runState = .running ∧ fired.halted = false ∧ nextIrq fired.cfg fired.core = none ∧
      fetchCheck fired.mode fired.pc = none ∧ fired.cfg.unusedBitsRefuse = false ∧
      decodeWord (fired.storageWord fired.pc.toNat) = .ok (.add 1 2) := by decide

/-- IRQL2 and TIM0_COMP pending and enabled. -/
def interrupted : State := ((demo.setCoreIntr 1#32).setPending .irql2 true).setPending .tim0Comp true

theorem witness_LowestPendingInterruptIsTakenFirst :
    interrupted.pending .irql2 = true ∧ irqEnabled interrupted.cfg interrupted.coreIntr .irql2 = true ∧
      (∀ p : IrqSource, p.index < IrqSource.irql2.index → interrupted.pending p = false ∨
        irqEnabled interrupted.cfg interrupted.coreIntr p = false) ∧
      interrupted.entersCleanly (10 + IrqSource.irql2.index.val) := by
  refine ⟨by decide, by decide, fun p => by cases p <;> decide, ?_⟩
  unfold State.entersCleanly State.stackReady kernelFetchable
  decide

theorem witness_EnablingFollowsCoreIntr :
    Config.default.intrAllow = .bit 0 ∧
      Config.default.intrDisable =
        #v[.bit 1, .bit 2, .bit 3, .bit 4, .bit 5, .bit 6, .bit 7, .bit 8, .bit 9] ∧
      IrqSource.irql0.index = (0 : Fin 9).succ ∧ IrqSource.tim3Comp.index = (8 : Fin 9).succ := by
  decide

/-- Layouts of the other polarity: a 0 in bit 31 allows interrupts, a 0 in bit 7 starts core 1 and reads
as core 1 on. -/
theorem test_layout_of_other_polarity :
    irqEnabled { Config.default with intrAllow := .not (.bit 31) } 0#32 .irql0 = true ∧
      irqEnabled { Config.default with intrAllow := .not (.bit 31) } 0x80000000#32 .irql0 = false ∧
      evalBits 0x7F#8 (BitFn.not (.bit 7)) = true ∧
      (withCfg second ({ · with
        coreFlagsRead := Config.default.coreFlagsRead.set 7 (.not (.bit 1)) })).coreFlags = 0x03#8 := by
  decide

/-- RESET_PC at the value of the spec's program P6 (95_test_vectors). -/
theorem test_reset_at_a_given_pc :
    (State.resetWith { Config.default with resetPc := 0xFFFFE000#32 }).pc = 0xFFFFE000#32 := by decide

/-- The demo machine with a tick for a core. -/
def ticked (s : State) (c : CoreId) : State := { s with script := [{ core := c, fires := [] }] }

theorem witness_CoreWithoutStepDoesNothing :
    ((ticked demo 3).coreAt 3).runState ≠ .running ∧
      ((ticked (demo.setRunState .tripleFaulted) 0).coreAt 0).runState ≠ .running ∧
      (((ticked (demo.setHalted true) 0).coreAt 0).halted = true ∧
        ∀ q : IrqSource, ((ticked (demo.setHalted true) 0).coreAt 0).pending[q.index] = false) ∧
      ((ticked (interrupted.setHalted true) 0).coreAt 0).runState = .running ∧
      nextIrq (ticked (interrupted.setHalted true) 0).cfg
        ((ticked (interrupted.setHalted true) 0).coreAt 0) = some .irql2 := by
  refine ⟨by decide, by decide, ⟨by decide, fun q => by cases q <;> decide⟩, by decide, by decide⟩

/-- The clauses exclude each other; `test_data_check_ends` has their ends. -/
theorem witness_DataCheckRaisesInOrder :
    (0x3EFD#32).toNat % 4 ≠ 0 ∧
      demo.dataCheck .p0 .load 0x3EFD#32 .word = some .loadStoreAlignmentFault ∧
      (0x3EFC#32).toNat % 4 = 0 ∧
      demo.dataCheck .p0 .store 0x3EFC#32 .word = some .storeFault ∧
      second.turn ≠ 0 ∧
      second.dataCheck .p0 .store 0x3F48#32 .word = some .storeFault ∧
      second.dataCheck .p0 .store 0x3F50#32 .word = none := by decide

theorem witness_FailedDataAccessTakesItsException :
    ((regs demo 0#32 0x3EFF#32 24#32).dataAccess (.ldb 1 2 3) = some (.load, 0x3EFF#32, .byte) ∧
      (regs demo 0#32 0x3EFF#32 24#32).dataCheck .p0 .load 0x3EFF#32 .byte = some .loadFault) ∧
    ((regs demo 0#32 0xFFFFFFFC#32 0#32).dataAccess (.st 1 2 3) = some (.store, 0xFFFFFFFC#32, .word) ∧
      (regs demo 0#32 0xFFFFFFFC#32 0#32).dataCheck .p0 .store 0xFFFFFFFC#32 .word =
        some .storeFault) ∧
    (user.setX xsp 0x8000#32).dataAccess (.push 1) = some (.store, 0x7FFC#32, .word) ∧
      (user.setX xsp 0x8000#32).dataCheck .p1 .store 0x7FFC#32 .word = some .storeFault := by decide

/-- SMC_POLICY = refuse, X2 holding an address. -/
def guarded (a : Word) : State := withCfg (regs demo 0#32 a 0#32) ({ · with smcRefuse := true })

theorem witness_AccessesTheSpecRefuses :
    ((regs demo 0#32 0xFFFF6000#32 0#32).dataAccess (.ld 1 2 3) = some (.load, 0xFFFF6000#32, .word) ∧
      demo.dataCheck .p0 .load 0xFFFF6000#32 .word = none ∧ region 0xFFFF6000#32 = .mmio) ∧
    (demo.dataCheck .p0 .store 0x3F06#32 .byte = none ∧
      demo.coversUnspecified 0x3F06#32 .byte = true ∧
      refuses (exec (.stb 1 2 3) (regs demo 0#32 0x3F06#32 0#32)) .reservedControlByte = true) ∧
    (∀ j ∈ [4, 15], ((guarded 0x8000#32).pc + BitVec.ofNat 32 j).toNat ∈
        bytesCovered (0x8000#32 + BitVec.ofNat 32 j) .byte ∧
      refuses (exec (.stb 1 2 3) (guarded (0x8000#32 + BitVec.ofNat 32 j))) .selfModifyingStore
        = true) ∧
    gives (exec (.stb 1 2 3) (guarded 0x8010#32)) (fun _ => true) = true := by decide

theorem witness_StoredWordReadsBack :
    (∀ a ∈ [0x8000, 0xFFFF5FFC], (BitVec.ofNat 32 a).toNat % 4 = 0 ∧
        0x8000 ≤ (BitVec.ofNat 32 a).toNat ∧ (BitVec.ofNat 32 a).toNat ≤ 0xFFFF5FFF) ∧
      (∀ a ∈ [0x7F00, 0x7FFC], (BitVec.ofNat 32 a).toNat % 4 = 0 ∧
        0x7F00 ≤ (BitVec.ofNat 32 a).toNat ∧ (BitVec.ofNat 32 a).toNat ≤ 0x7FFF) ∧
      demo.smcAllows 0x8000#32 .word ∧ (guarded 0#32).smcAllows 0x8010#32 .word := by
  unfold State.smcAllows
  decide

theorem witness_ControlRegisterReads :
    demo.cfg.coreFlagsOffset = 0x4C ∧
      demo.cfg.coreFlagsRead = #v[.const true, .bit 1, .bit 2, .bit 3,
        .const false, .const false, .const false, .const false] ∧
      demo.dataCheck .p0 .load 0x3F00#32 .word = none ∧ region 0x3F00#32 = .creg ∧
      demo.dataCheck .p0 .load 0x7EFC#32 .word = none ∧ region 0x7EFC#32 = .creg := by decide

/-- Every register byte at the ends of its range, and the words the kernel may write whole. -/
theorem witness_ControlRegisterWrites :
    demo.turn = 0 ∧ demo.smcAllows 0x3F00#32 .word ∧ demo.smcAllows 0x3F40#32 .word ∧
      demo.smcAllows 0x3F48#32 .word ∧ demo.mode = .p0 ∧
      (∀ a ∈ [0x3F00, 0x3F01, 0x3F02, 0x3F05, 0x3F40, 0x3F43, 0x3F48, 0x3F4B],
        (regs demo 0xAB#32 (BitVec.ofNat 32 a) 0#32).byteAddress 2 = BitVec.ofNat 32 a ∧
          (regs demo 0xAB#32 (BitVec.ofNat 32 a) 0#32).cfg.smcRefuse = false) ∧
      gives (exec (.stb 1 2 3) (regs demo 0xAB#32 0x3F05#32 0#32)) (fun t =>
        t.coreIntr == 0xAB000000#32) = true ∧
      gives (exec (.stb 1 2 3) (regs demo 0xAB#32 0x3F4B#32 0#32)) (fun t =>
        t.bootAddr == #v[0#32, 0#32, 0xAB000000#32]) = true ∧
      gives (exec (.st 1 2 3) (regs demo 0x44332211#32 0x3F00#32 0#32)) (fun t =>
        t.sysDclk == 0x11#8 && t.coreXclk == 0x22#8 && t.coreIntr == 0x4433#32) = true := by
  unfold State.smcAllows
  decide

/-- Core 1 is Off with a boot address, core 2 runs; the byte stored is X1. -/
def powering (v : Word) : State :=
  (regs (demo.setCoreAt 2 runner) v 0x3F4C#32 0#32).setBootAddr 0 0x9000#32

theorem witness_CoreFlagsPowersCoresOn :
    (powering 0x2#32).mode = .p0 ∧ (powering 0x2#32).turn = 0 ∧
      (powering 0x2#32).cfg.coreFlagsOffset = 0x4C ∧
      (powering 0x2#32).cfg.coreFlagsPower = #v[.bit 1, .bit 2, .bit 3] ∧
      (powering 0x2#32).byteAddress 2 = 0x3F4C#32 ∧ (powering 0x2#32).smcAllows 0x3F4C#32 .byte ∧
      ((powering 0x2#32).coreAt 1).runState = .off ∧ ((powering 0x2#32).coreAt 2).runState = .running ∧
      gives (exec (.stb 1 2 3) (powering 0x2#32)) (fun t =>
        (t.coreAt 1).runState == .running && (t.coreAt 1).pc == 0x9000#32 &&
          (t.coreAt 2).runState == .off && (t.coreAt 3).runState == .off) = true := by
  unfold State.smcAllows
  decide

theorem witness_DivDividesOrTraps :
    (regs demo 1#32 0#32 0#32).x 2 = 0#32 ∧ (regs demo 1#32 0#32 0#32).entersCleanly 8 ∧
      (regs demo 0x80000000#32 0xFFFFFFFF#32 0#32).x 2 ≠ 0#32 ∧ demo.cfg.divSigned = false ∧
      gives (exec (.div 1 2) (withCfg (regs demo 0x80000000#32 0xFFFFFFFF#32 0#32)
        ({ · with divSigned := true }))) (fun t => t.x 1 == 0x80000000#32) = true := by
  unfold State.entersCleanly State.stackReady kernelFetchable
  decide

theorem witness_PlaceholdersRaiseInvalidOpcode : demo.entersCleanly 5 := by
  unfold State.entersCleanly State.stackReady kernelFetchable
  decide

theorem witness_TwoMovesBuildAConstant :
    (0xF5678#20).setWidth 16 = (0x12345678#32).setWidth 16 := by decide

/-- A byte of program memory for P1, and the last byte of the ROM for P0; lanes 0 and 24; no lane 25. -/
theorem witness_LdbMergesOneByteLane :
    ((regs user 0#32 0x8000#32 0#32).x 3).toNat ∈ [0, 8, 16, 24] ∧
      ((regs user 0#32 0x8000#32 24#32).x 3).toNat ∈ [0, 8, 16, 24] ∧
      (regs user 0#32 0x8000#32 0#32).loadable ((regs user 0#32 0x8000#32 0#32).byteAddress 2) ∧
      (regs demo 0#32 0xFFFFFFFF#32 0#32).loadable ((regs demo 0#32 0xFFFFFFFF#32 0#32).byteAddress 2) ∧
      ((regs user 0#32 0x8000#32 25#32).x 3).toNat ∉ [0, 8, 16, 24] := by
  unfold State.loadable State.storable
  decide

theorem witness_StbStoresOneByte :
    (regs user 0#32 0xFFFF5FFF#32 24#32).storable ((regs user 0#32 0xFFFF5FFF#32 24#32).byteAddress 2) ∧
      (regs user 0#32 0xFFFF5FFF#32 24#32).smcAllows 0xFFFF5FFF#32 .byte ∧
      (guarded 0x7F00#32).storable ((guarded 0x7F00#32).byteAddress 2) ∧
      (guarded 0x7F00#32).smcAllows 0x7F00#32 .byte := by
  unfold State.storable State.smcAllows
  decide

theorem witness_LdLoadsAWord :
    ((regs demo 0#32 0xFFFFE000#32 0x1FFC#32).wordAddress 2 3).toNat % 4 = 0 ∧
      (regs demo 0#32 0xFFFFE000#32 0x1FFC#32).loadable
        ((regs demo 0#32 0xFFFFE000#32 0x1FFC#32).wordAddress 2 3) ∧
      (regs user 0#32 0x8004#32 0xFFFFFFFC#32).loadable
        ((regs user 0#32 0x8004#32 0xFFFFFFFC#32).wordAddress 2 3) := by
  unfold State.loadable State.storable
  decide

theorem witness_StStoresAWord :
    ((guarded 0x7FFC#32).wordAddress 2 3).toNat % 4 = 0 ∧
      (guarded 0x7FFC#32).storable ((guarded 0x7FFC#32).wordAddress 2 3) ∧
      (guarded 0x7FFC#32).smcAllows ((guarded 0x7FFC#32).wordAddress 2 3) .word ∧
      (regs user 0#32 0xFFFF5FFC#32 0#32).storable
        ((regs user 0#32 0xFFFF5FFC#32 0#32).wordAddress 2 3) := by
  unfold State.storable State.smcAllows
  decide

/-- Reads of a control register, of program memory and of the stack give a value. -/
theorem witness_LoadingFormsFollowTheirRead :
    laneAligned ((regs demo 0#32 0x3F00#32 24#32).x 3) = true ∧
      (∃ v u, (regs demo 0#32 0x3F00#32 24#32).memRead .p0 0x3F00#32 .byte = .ok (v, u)) ∧
      (∃ v u, demo.memRead .p0 0x3F04#32 .word = .ok (v, u)) ∧
      (∃ v u, (demo.setX xsp 0x7F00#32).memRead .p0 0x7F00#32 .word = .ok (v, u)) ∧
      demo.mode = .p0 := by
  refine ⟨by decide, ⟨_, _, memRead_eq_ok.mpr ⟨by decide, by decide, rfl⟩⟩,
    ⟨_, _, memRead_eq_ok.mpr ⟨by decide, by decide, rfl⟩⟩,
    ⟨_, _, memRead_eq_ok.mpr ⟨by decide, by decide, rfl⟩⟩, by decide⟩

/-- Writes of a control register, of program memory and of the stack complete. -/
theorem witness_StoringFormsFollowTheirWrite :
    (∃ u, demo.memWrite .p0 0x3F01#32 5#32 .byte = .ok u) ∧
      (∃ u, demo.memWrite .p0 0x3F40#32 5#32 .word = .ok u) ∧
      (∃ u, user.memWrite .p1 (user.x xsp - 4#32) 5#32 .word = .ok u) ∧
      slotUsable demo.cfg.syscallHandlerSlot = true :=
  ⟨⟨_, rfl⟩, ⟨_, rfl⟩, ⟨_, rfl⟩, by decide⟩

theorem witness_ShiftFunctions :
    ∀ n ∈ [0, 31, 32, 0xFFFFFFFF], ∃ k, k = if Config.default.shiftAmountMod32 = true then n % 32 else n :=
  fun _ _ => ⟨_, rfl⟩

theorem witness_ConditionsCompareOperands :
    Config.default.cmpSigned = false ∧ (withCfg demo ({ · with cmpSigned := true })).cfg.cmpSigned = true ∧
      condHolds Config.default .lt 1#32 0xFFFFFFFF#32 = true ∧
      condHolds (withCfg demo ({ · with cmpSigned := true })).cfg .lt 1#32 0xFFFFFFFF#32 = false := by
  decide

theorem witness_JmpcResult : (5#3).toNat < 6 ∧ 6 ≤ (6#3).toNat ∧ 6 ≤ (7#3).toNat := by decide

theorem witness_CallResult : pushTop.pushable ∧ pushBottom.pushable := by
  unfold State.pushable State.storable State.smcAllows
  decide

theorem witness_PushResult : pushTop.pushable ∧ pushBottom.pushable := witness_CallResult

theorem witness_PopAndRetResult :
    (user.setX xsp 0x8000#32).poppable ∧ (user.setX xsp 0xFFFF5FFC#32).poppable ∧
      (demo.setX xsp 0xFFFFFFFC#32).poppable := by
  unfold State.poppable State.loadable State.storable
  decide

theorem witness_CallThenPopReadsPc :
    (user.setX 1 0x8000#32).pushable ∧
      (user.setX 1 0x8000#32).x 1 + (4#20).setWidth 32 = (user.setX 1 0x8000#32).pc + 4#32 ∧
      (14 : XReg) ≠ xsp := by
  unfold State.pushable State.storable State.smcAllows
  decide

/-- The state with another handler slot. -/
def slotted (a : Word) : State := withCfg user ({ · with syscallHandlerSlot := a })

theorem witness_SyscallResult :
    (∀ a ∈ [0x7F00, 0x7FFC, 0xFFFF5FFC],
      (slotted (BitVec.ofNat 32 a)).cfg.syscallHandlerSlot.toNat % 4 = 0 ∧
      0x7F00 ≤ (slotted (BitVec.ofNat 32 a)).cfg.syscallHandlerSlot.toNat ∧
      (slotted (BitVec.ofNat 32 a)).cfg.syscallHandlerSlot.toNat ≤ 0xFFFF5FFF) ∧
      (slotted 0x7F00#32).pushable ∧
    (slotted 0x7F02#32).cfg.syscallHandlerSlot.toNat % 4 ≠ 0 ∧
      (slotted 0x7EFC#32).cfg.syscallHandlerSlot.toNat < 0x7F00 ∧
      0xFFFF5FFF < (slotted 0xFFFF6000#32).cfg.syscallHandlerSlot.toNat := by
  unfold State.pushable State.storable State.smcAllows
  decide

theorem witness_PrivilegedInstructionResult :
    demo.mode = .p0 ∧ (demo.setX xsp 0xFFFFFFFC#32).poppable ∧ user.mode = .p1 := by
  unfold State.poppable State.loadable State.storable
  decide

/-- The stack at both ends of where trap entry reaches storage, and at the ends of each range it
reaches instead: the control registers, MMIO, the reserved bytes. -/
theorem witness_TrapEntryEntersTheHandler :
    user.entersCleanly 0 ∧ (demo.setX xsp 0x7F04#32).entersCleanly 19 ∧
    kernelFetchable (demo.handler 0) ∧ demo.turn = 0 ∧
    (∀ a ∈ [0x3F00, 0x3F40, 0x3F48, 0xFFFF6000, 0xFFFFDFFC, 0x3F04, 0x7EFC],
      (demo.setX xsp (BitVec.ofNat 32 (a + 4))).x xsp - 4#32 = BitVec.ofNat 32 a) ∧
    (∀ a ∈ [0x3F04, 0x7EFC], demo.dataCheck .p0 .store (BitVec.ofNat 32 a) .word = none ∧
      demo.coversUnspecified (BitVec.ofNat 32 a) .word = true) := by
  unfold State.entersCleanly State.stackReady kernelFetchable
  decide

/-- A trap that pushes 0x8000 over the boot address of core 1, and one that pushes to MMIO. -/
theorem test_trap_pushes_off_storage :
    gives (exec .addFp (demo.setX xsp 0x3F44#32)) (fun t =>
      t.bootAddr == #v[0x8000#32, 0#32, 0#32] && t.pc == 0x9014#32) = true ∧
    refuses (exec .addFp (demo.setX xsp 0xFFFF6004#32)) .mmioAccess = true := by decide

/-- Vector 5's handler misaligned and DoubleFault's good; and each way a core triple-faults. -/
theorem witness_FailedDeliveryEscalates :
    ((5 : Nat) ≠ 9 ∧ ¬kernelFetchable ((withWord demo 0x7F14#32 0x9602#32).handler 5) ∧
      (withWord demo 0x7F14#32 0x9602#32).entersCleanly 9) ∧
    ((demo.setX xsp 0x9002#32).x xsp - 4#32).toNat % 4 ≠ 0 ∧
    ((demo.setX xsp 0x3F00#32).x xsp - 4#32).toNat < 0x3F00 ∧
    0xFFFFE000 ≤ ((demo.setX xsp 0xFFFFE004#32).x xsp - 4#32).toNat ∧
    (∀ a ∈ [0x3F40, 0x3F48, 0x3F4C],
      (second.setX xsp (BitVec.ofNat 32 (a + 4))).turn ≠ 0 ∧
      ((second.setX xsp (BitVec.ofNat 32 (a + 4))).x xsp - 4#32).toNat = a ∧
      a ∈ bytesCovered (BitVec.ofNat 32 a) .word) ∧
    cregByteOf second.cfg 0x3F4C = some .coreFlags ∧
    ¬kernelFetchable ((withWord (withWord demo 0x7F14#32 0x7FFC#32) 0x7F24#32 0xFFFF6000#32).handler 5) ∧
    ¬kernelFetchable
      ((withWord (withWord demo 0x7F14#32 0x7FFC#32) 0x7F24#32 0xFFFF6000#32).handler 9) := by
  unfold State.entersCleanly State.stackReady kernelFetchable
  decide

/-- A state with the invariant from which a step goes on. -/
theorem witness_EveryStepKeepsTheInvariant :
    adding.Inv ∧ ∃ t, step adding = .next t ∧ (t.x 1 == 12#32) = true := by
  refine ⟨by unfold State.Inv; decide, of_gives (by decide)⟩

/-- A store to the ROM goes on, in its trap. -/
theorem witness_NoStepChangesTheRom :
    ∃ t, step (withWord (regs demo 5#32 0xFFFFE000#32 0#32) 0x8000#32 0x23123000#32) = .next t ∧
      (t.exc == 0xFFFFE000#32) = true := of_gives (by decide)

theorem witness_OnlySysretLeavesKernelMode :
    (adding.coreAt 0).mode = .p0 ∧
      ∃ t, step (withWord (demo.setX xsp 0x7F00#32) 0x8000#32 0x41000000#32) = .next t ∧
        ((t.coreAt 0).mode == .p1) = true :=
  ⟨by decide, of_gives (by decide)⟩

theorem witness_UserModeReachesOnlyProgramMemory :
    ∃ t, step (withWord (regs user 5#32 0xFFFF5FFC#32 0#32) 0x8000#32 0x23123000#32) = .next t ∧
      (t.turn == 0 && user.mode == .p1 && t.mode == .p1 && t.storageByte 0xFFFF5FFC == 5#8) = true :=
  of_gives (by decide)

/-- Core 0 starts core 1 and stops core 2. -/
theorem witness_InstructionsLeaveOtherCoresAlone :
    ∃ t, exec (.stb 1 2 3) (powering 0x2#32) = .next t ∧
      ((powering 0x2#32).turn == 0 && t.coreAt 1 != (powering 0x2#32).coreAt 1 &&
        t.coreAt 2 != (powering 0x2#32).coreAt 2 && t.coreAt 3 == (powering 0x2#32).coreAt 3)
        = true := of_gives (by decide)

theorem witness_OnlyExtInstructionsWriteERegisters :
    ∃ t, exec (.movExt 15 1) (regs demo 7#32 0#32 0#32) = .next t ∧
      (t.e 15 != (regs demo 7#32 0#32 0#32).e 15) = true := of_gives (by decide)

theorem witness_XRegisterWriters :
    (∃ t, exec (.add 1 2) (regs demo 5#32 7#32 0#32) = .next t ∧
      (t.x 1 != (regs demo 5#32 7#32 0#32).x 1) = true) ∧
    (∃ t, exec (.push 1) demo = .next t ∧ (t.x xsp != demo.x xsp) = true) ∧
    ∃ t, exec .addFp demo = .next t ∧ (t.x xsp != demo.x xsp) = true :=
  ⟨of_gives (by decide), of_gives (by decide), of_gives (by decide)⟩

/-- A load that fails its check, and one that passes it. -/
theorem witness_ExcHoldsTheFailedDataAddress :
    ((regs demo 0#32 0x3EFC#32 0#32).dataAccess (.ld 1 2 3) = some (.load, 0x3EFC#32, .word) ∧
      demo.dataCheck .p0 .load 0x3EFC#32 .word = some .loadFault ∧
      ∃ t, exec (.ld 1 2 3) (regs demo 0#32 0x3EFC#32 0#32) = .next t ∧
        (t.exc == 0x3EFC#32) = true) ∧
    demo.dataCheck .p0 .load 0x7F00#32 .word = none ∧
      ∃ t, exec (.ld 1 2 3) (regs demo 0#32 0x7F00#32 0#32) = .next t ∧ (t.exc == 0#32) = true :=
  ⟨⟨by decide, by decide, of_gives (by decide)⟩, by decide, of_gives (by decide)⟩

/-- A store over the vector table, and a trap whose return address goes there. -/
theorem witness_MemoryChangesOnlyWhereStored :
    (∃ t, exec (.stb 1 2 3) (regs demo 0xFF#32 0x7F00#32 0#32) = .next t ∧
      (t.storageByte 0x7F00 != (regs demo 0xFF#32 0x7F00#32 0#32).storageByte 0x7F00) = true) ∧
    ∃ t, exec .addFp (demo.setX xsp 0x7F50#32) = .next t ∧
      (t.storageByte 0x7F4D != demo.storageByte 0x7F4D) = true :=
  ⟨of_gives (by decide), of_gives (by decide)⟩

end Sys2Proof.Tests
end

section
/-! No step changes the ROM or a parameter. A storage write that has passed its check lies in the
vector table or in program memory, and the MMIO window stands between those and the ROM; so each part of a
step keeps `RomFrame`, and the parts compose. -/

namespace Sys2Proof.Machine

open Sys2Proof

/-- The bytes from the first address of the ROM on, and the parameters, are unchanged (20_memory R74,
00_scope R8). -/
structure RomFrame (s t : State) : Prop where
  rom : ∀ n, romBase ≤ n → t.storageByte n = s.storageByte n
  cfg : t.cfg = s.cfg

theorem RomFrame.trans {s t u : State} (h : RomFrame s t) (k : RomFrame t u) : RomFrame s u :=
  ⟨fun n hn => (k.rom n hn).trans (h.rom n hn), k.cfg.trans h.cfg⟩

theorem RomFrame.of_mem {s t : State} (hm : t.mem = s.mem) (hc : t.cfg = s.cfg) : RomFrame s t :=
  ⟨fun n _ => sameStorage_of_mem hm n, hc⟩

/-- Even a word at the last address of program memory ends below the ROM. -/
theorem not_mem_bytesCovered_of_rom {a : Word} {w : Width} {n : Nat}
    (hr : region a = .ivt ∨ region a = .prog) (hn : romBase ≤ n) : n ∉ bytesCovered a w := by
  have hb := bases
  rw [region_eq, regionOf_eq_ivt, regionOf_eq_prog] at hr
  cases w <;> simp only [bytesCovered, List.mem_cons, List.not_mem_nil, or_false] <;> omega

theorem RomFrame.of_storageWrite {s t : State} {a v : Word} {w : Width}
    (hr : region a = .ivt ∨ region a = .prog) (hm : t.mem = storageWrite s.mem a v w)
    (hc : t.cfg = s.cfg) : RomFrame s t := by
  refine ⟨fun n hn => ?_, hc⟩
  have hn' := mt mem_bytesCovered.mpr (not_mem_bytesCovered_of_rom (w := w) hr hn)
  calc t.storageByte n
      = (s.setMem (storageWrite s.mem a v w)).storageByte n := sameStorage_of_mem hm n
    _ = s.storageByte n := (storageByte_setMem_storageWrite s a v w n).trans (if_neg hn')

/-- A data write that is not refused: it went to storage below the ROM, or to control registers. -/
theorem memWrite_romFrame {s t : State} {m : Mode} {a v : Word} {w : Width}
    (h : s.memWrite m a v w = .ok t) : RomFrame s t := by
  obtain ⟨hcheck, -, hwrite⟩ := memWrite_eq_ok.mp h
  obtain ⟨hr, rfl⟩ | ⟨-, hctl⟩ := writeThrough_cases hcheck hwrite
  · exact .of_storageWrite hr rfl rfl
  · exact .of_mem hctl.mem hctl.cfg

theorem AccessDone.romFrame {i : Instr} {s u : State} (h : AccessDone s i u) : RomFrame s u := by
  cases h with
  | none => exact .of_mem rfl rfl
  | drawn => exact .of_mem rfl rfl
  | stored a v w _ _ hw => exact memWrite_romFrame hw

theorem OwnEffect.romFrame {i : Instr} {s u t : State} (h : OwnEffect i s u t) : RomFrame u t := by
  rw [h.only]
  exact .of_mem rfl rfl

/-- A trap entry, whose push has kernel rights, and those do not reach the ROM either (60_exceptions R280). -/
theorem trapEntry_romFrame {s t : State} {v : Nat} {ret : Word} {info : Option Word}
    (h : s.trapEntry v ret info = .next t) : RomFrame s t := by
  have hf := trapEntry_frame h
  obtain hm | ⟨_, -, hr, -, hm⟩ := hf.storage
  · exact .of_mem hm hf.cfg
  · exact .of_storageWrite hr hm hf.cfg

theorem exec_romFrame {i : Instr} {s t : State} (h : exec i s = .next t) : RomFrame s t := by
  cases exec_cases h with
  | trapNoData _ _ ht => exact trapEntry_romFrame ht
  | trapData _ _ _ _ _ _ ht => exact trapEntry_romFrame ht
  | own _ hu _ ho _ _ => exact hu.romFrame.trans ho.romFrame

theorem coreStep_romFrame {s t : State} (h : s.coreStep = .next t) : RomFrame s t := by
  cases coreStep_cases h with
  | interrupt q _ ht =>
    have hcleared : RomFrame s (s.setPending q false) := .of_mem rfl rfl
    exact hcleared.trans (trapEntry_romFrame ht)
  | trap _ _ ht => exact trapEntry_romFrame ht
  | ran _ _ _ _ hx => exact exec_romFrame hx

theorem step_romFrame {s t : State} (h : step s = .next t) : RomFrame s t := by
  obtain ⟨u, hs, hu⟩ := step_cases h
  have hsched : RomFrame s u := .of_mem hs.mem hs.cfg
  obtain rfl | ⟨-, hstep⟩ := hu
  · exact hsched
  · exact hsched.trans (coreStep_romFrame hstep)

/-- Settles O53: every part of a step keeps the frame of the ROM. -/
theorem noStepChangesTheRom : Obligations.NoStepChangesTheRom := fun _ _ h =>
  ⟨fun n hn _ => (step_romFrame h).rom n hn, (step_romFrame h).cfg⟩

end Sys2Proof.Machine
end

section
/-! The registers that an instruction writes. Its data access keeps every register of its own core but
CORE_XCLK and CORE_INTR, so an X or E register changes by the instruction's own effect, or by the trap it
takes. -/

namespace Sys2Proof.Machine

open Sys2Proof

/-- A data write keeps all of the moving core but CORE_XCLK and CORE_INTR. -/
theorem memWrite_core {s u : State} {m : Mode} {a v : Word} {w : Width}
    (h : s.memWrite m a v w = .ok u) :
    u.core = { s.core with coreXclk := u.coreXclk, coreIntr := u.coreIntr } := by
  obtain ⟨hcheck, -, hwrite⟩ := memWrite_eq_ok.mp h
  obtain ⟨-, rfl⟩ | ⟨-, hctl⟩ := writeThrough_cases hcheck hwrite
  · rfl
  · exact hctl.core

theorem AccessDone.core {i : Instr} {s u : State} (h : AccessDone s i u) :
    u.core = { s.core with coreXclk := u.coreXclk, coreIntr := u.coreIntr } := by
  cases h with
  | none => rfl
  | drawn => rfl
  | stored _ _ _ _ _ hw => exact memWrite_core hw

theorem AccessDone.x {i : Instr} {s u : State} (h : AccessDone s i u) (d : XReg) : u.x d = s.x d :=
  (congrArg (fun k : Core => k.x[d]) h.core :)

theorem AccessDone.e {i : Instr} {s u : State} (h : AccessDone s i u) (k : EReg) : u.e k = s.e k :=
  (congrArg (fun c : Core => c.e[k]) h.core :)

theorem AccessDone.halted {i : Instr} {s u : State} (h : AccessDone s i u) : u.halted = s.halted :=
  (congrArg Core.halted h.core :)

/-- The instructions with a destination among the E registers (10_state R26). -/
theorem eDest_eq_some {i : Instr} {k : EReg} :
    eDest i = some k ↔ (∃ r, i = .movExt k r) ∨ (∃ l, i = .movExt2 k l) ∨ i = .popExt k := by
  cases i <;> simp [eDest]

/-- The stack instructions (10_state R24, 45_call_stack R222); any other constructor contradicts `h`. -/
theorem of_usesStack {i : Instr} (h : usesStack i = true) :
    (∃ r, i = .push r ∨ i = .pop r ∨ i = .syscall r) ∨ (∃ k, i = .pushExt k ∨ i = .popExt k) ∨
      (∃ a n, i = .callImm a n) ∨ (∃ a f, i = .call a f) ∨ i = .ret ∨ i = .sysret := by
  cases i <;> cases h <;> simp

/-- The instructions with a destination among the X registers (10_state R24); any other constructor
contradicts `h`. -/
theorem of_xDest {i : Instr} {d : XReg} (h : xDest i = some d) :
    (∃ b, i = .add d b ∨ i = .sub d b ∨ i = .mul d b ∨ i = .div d b ∨ i = .and d b ∨
        i = .or d b ∨ i = .xor d b ∨ i = .mov d b ∨ i = .lsh d b ∨ i = .rsh d b ∨
        i = .movGp d b) ∨
      i = .not d ∨ (∃ n, i = .movImm d n ∨ i = .lshImm d n ∨ i = .rshImm d n) ∨
      (∃ n, i = .movImmHigh d n) ∨ (∃ a f, i = .ldb d a f ∨ i = .ld d a f) ∨ i = .pop d ∨
      i = .cpuid d := by
  cases i <;> cases h <;> simp

/-- An exception leaves every E register; an instruction that takes none writes only its destination. -/
theorem exec_e {i : Instr} {s t : State} (h : exec i s = .next t) (k : EReg) :
    t.e k = s.e k ∨ eDest i = some k := by
  cases exec_cases h with
  | trapNoData _ _ ht => exact .inl ((trapEntry_frame ht).e k)
  | trapData _ _ _ _ _ _ ht => exact .inl ((trapEntry_frame ht).e k)
  | own _ hu _ _ _ he => exact (he k).imp (·.trans (hu.e k)) id

/-- A trap entry changes no X register but XSP, which its push lowers (60_exceptions R280). -/
theorem takeException_x {s t : State} {e : Exc} {info : Option Word}
    (h : s.takeException e info = .next t) (d : XReg) : t.x d = s.x d ∨ d = xsp :=
  or_iff_not_imp_right.mpr ((trapEntry_frame h).x d)

/-- An instruction changes its destination, and XSP if it uses the stack or takes an exception. -/
theorem exec_x {i : Instr} {s t : State} (h : exec i s = .next t) (d : XReg) :
    t.x d = s.x d ∨
      (d = xsp ∧ (usesStack i = true ∨ ∃ e info, exec i s = s.takeException e info)) ∨
        xDest i = some d := by
  cases exec_cases h with
  | trapNoData _ _ ht =>
    exact (takeException_x ht d).imp_right fun hd => .inl ⟨hd, .inr ⟨_, _, h.trans ht.symm⟩⟩
  | trapData _ _ _ _ _ _ ht =>
    exact (takeException_x ht d).imp_right fun hd => .inl ⟨hd, .inr ⟨_, _, h.trans ht.symm⟩⟩
  | own _ hu _ _ hx _ =>
    obtain hsame | ⟨hd, hstack⟩ | hdest := hx d
    · exact .inl (hsame.trans (hu.x d))
    · exact .inr (.inl ⟨hd, .inl hstack⟩)
    · exact .inr (.inr hdest)

/-- Settles O57: an instruction's effect on the E registers is on its destination, and three
instructions have one. -/
theorem onlyExtInstructionsWriteERegisters : Obligations.OnlyExtInstructionsWriteERegisters :=
  fun _ _ _ k h hne => eDest_eq_some.mp ((exec_e h k).resolve_left hne)

/-- Settles O58: an instruction's effect on the X registers is on its destination, and on XSP by the
stack or a trap. -/
theorem xRegisterWriters : Obligations.XRegisterWriters := by
  intro i s t d h hne
  obtain ⟨hd, hcause⟩ | hdest := (exec_x h d).resolve_left hne
  · have hwriter := hcause.imp_left of_usesStack
    exact .inl ⟨hd, by simpa only [or_assoc] using hwriter⟩
  · exact .inr (of_xDest hdest)

end Sys2Proof.Machine
end

section
/-! The invariant holds at reset and every step keeps it. Each part of a step keeps the invariant; the one
that needs more than the invariant is an instruction's own effect, because SYSRET leaves P0: there the core
is not halted, since a halted core's only step is an interrupt. -/

namespace Sys2Proof.Machine

open Sys2Proof

/-- The part of the invariant about one core: halted only in P0 (46_system R245, R248). -/
def Core.haltsInKernel (k : Core) : Prop := k.halted = true → k.mode = .p0

theorem inv_iff {s : State} :
    s.Inv ↔ Memory.wf s.mem = true ∧ (s.coreAt 0).runState ≠ .off ∧
      ∀ c, (s.coreAt c).haltsInKernel := .rfl

/-- A core that is off or just powered on is not halted. -/
theorem Core.switched.haltsInKernel {k : Core} (h : k.switched) : k.haltsInKernel := by
  obtain rfl | ⟨_, _, rfl⟩ := h <;> exact nofun

/-- The other cores are as they were or just switched, so only the moving core is left to look at. -/
theorem haltsInKernel_of_others {s t : State} (hturn : t.turn = s.turn)
    (hown : t.core.haltsInKernel)
    (hothers : ∀ c, c ≠ s.turn →
      t.coreAt c = s.coreAt c ∨ (s.turn = 0 ∧ (t.coreAt c).switched))
    (hhalts : ∀ c, (s.coreAt c).haltsInKernel) (c : CoreId) : (t.coreAt c).haltsInKernel := by
  by_cases hc : c = s.turn
  · rwa [hc, ← hturn]
  · obtain hsame | ⟨-, hsw⟩ := hothers c hc
    · exact hsame ▸ hhalts c
    · exact hsw.haltsInKernel

/-- Replacing the moving core keeps the invariant, if the new one has the same run state and halts only
in P0. -/
theorem State.Inv.setCore {s : State} {k : Core} (h : s.Inv) (hrun : k.runState = s.runState)
    (hk : k.haltsInKernel) : (s.setCore k).Inv := by
  obtain ⟨hmem, hcore0, hhalts⟩ := inv_iff.mp h
  refine inv_iff.mpr ⟨hmem, ?_, fun c => ?_⟩
  · rw [coreAt_setCore]
    split
    · next h0 =>
      rw [h0] at hcore0
      exact hrun ▸ hcore0
    · exact hcore0
  · rw [coreAt_setCore]
    split
    · exact hk
    · exact hhalts c

theorem CtlFrame.inv {s t : State} (hf : CtlFrame s t) (h : s.Inv) : t.Inv := by
  obtain ⟨hmem, hcore0, hhalts⟩ := inv_iff.mp h
  have hown : t.core.haltsInKernel := by
    rw [hf.core]
    exact hhalts s.turn
  exact inv_iff.mpr ⟨hf.mem ▸ hmem, hf.core0 ▸ hcore0,
    haltsInKernel_of_others hf.turn hown hf.others hhalts⟩

theorem memWrite_inv {s t : State} {m : Mode} {a v : Word} {w : Width}
    (hw : s.memWrite m a v w = .ok t) (h : s.Inv) : t.Inv := by
  obtain ⟨hcheck, -, hwrite⟩ := memWrite_eq_ok.mp hw
  obtain ⟨hr, rfl⟩ | ⟨-, hctl⟩ := writeThrough_cases hcheck hwrite
  · obtain ⟨hmem, hcores⟩ := h
    exact ⟨wf_storageWrite hcheck hr hmem, hcores⟩
  · exact hctl.inv h

theorem AccessDone.inv {i : Instr} {s u : State} (hu : AccessDone s i u) (h : s.Inv) : u.Inv := by
  cases hu with
  | none => exact h
  | drawn => exact h
  | stored _ _ _ _ _ hw => exact memWrite_inv hw h

/-- An instruction run by a core that is not halted: it halts the core in P0 or not at all. -/
theorem OwnEffect.inv {i : Instr} {s u t : State} (ho : OwnEffect i s u t) (hu : u.Inv)
    (hawake : u.halted = false) : t.Inv := by
  rw [ho.only]
  refine hu.setCore ho.runState fun hhalt => ?_
  obtain hsame | ⟨-, -, hp0⟩ := ho.halted
  · exact absurd (hhalt.symm.trans (hsame.trans hawake)) nofun
  · exact hp0

/-- A trap entry enters a handler in P0, or triple-faults with the mode and the halt flag as they were. -/
theorem TrapFrame.inv {s t : State} {info : Option Word} (hf : TrapFrame s t info) (h : s.Inv) :
    t.Inv := by
  obtain ⟨hmem, hcore0, hhalts⟩ := inv_iff.mp h
  have hown : t.core.haltsInKernel := by
    obtain ⟨hp0, -, -⟩ | ⟨-, hmode, hhalted, -⟩ := hf.mode
    · exact fun _ => hp0
    · exact fun hhalt => hmode.trans (hhalts s.turn (hhalted.symm.trans hhalt))
  refine inv_iff.mpr ⟨?_, mt hf.core0 hcore0,
    haltsInKernel_of_others hf.turn hown hf.others hhalts⟩
  obtain hsame | ⟨_, hcheck, hr, -, hstored⟩ := hf.storage
  · exact hsame ▸ hmem
  · exact hstored ▸ wf_storageWrite hcheck hr hmem

theorem exec_inv {i : Instr} {s t : State} (hx : exec i s = .next t) (h : s.Inv)
    (hawake : s.halted = false) : t.Inv := by
  cases exec_cases hx with
  | trapNoData _ _ ht => exact (trapEntry_frame ht).inv h
  | trapData _ _ _ _ _ _ ht => exact (trapEntry_frame ht).inv h
  | own _ hu _ ho _ _ => exact ho.inv (hu.inv h) (hu.halted.trans hawake)

theorem coreStep_inv {s t : State} (hstep : s.coreStep = .next t)
    (hcan : coreHasStep s.cfg s.core = true) (h : s.Inv) : t.Inv := by
  cases coreStep_cases hstep with
  | interrupt q _ ht =>
    obtain ⟨-, -, hhalts⟩ := inv_iff.mp h
    have hcleared : (s.setPending q false).Inv := h.setCore rfl (hhalts s.turn)
    exact (trapEntry_frame ht).inv hcleared
  | trap _ _ ht => exact (trapEntry_frame ht).inv h
  | ran _ hnone _ _ hx => exact exec_inv hx h (not_halted_of_hasStep hcan hnone).2

theorem Scheduled.inv {s u : State} (hs : Scheduled s u) (h : s.Inv) : u.Inv := by
  obtain ⟨hmem, hcore0, hhalts⟩ := inv_iff.mp h
  refine inv_iff.mpr ⟨hs.mem ▸ hmem, ?_, fun c => ?_⟩
  · rw [hs.cores]
    exact hcore0
  · rw [hs.cores]
    exact hhalts c

/-- Settles O52: the choice of the moving core and that core's step keep the invariant. -/
theorem everyStepKeepsTheInvariant : Obligations.EveryStepKeepsTheInvariant := by
  intro s t h hstep
  obtain ⟨u, hs, rfl | ⟨hcan, hcore⟩⟩ := step_cases hstep
  · exact hs.inv h
  · exact coreStep_inv hcore hcan (hs.inv h)

/-- Reset powers core 0 on and leaves the others off (10_state R53, R55). -/
theorem coreAt_resetWith_switched (cfg : Config) :
    ∀ c, ((State.resetWith cfg).coreAt c).switched
  | 0 => .inr ⟨_, _, rfl⟩
  | 1 => .inl rfl
  | 2 => .inl rfl
  | 3 => .inl rfl

theorem resetWith_inv (cfg : Config) : (State.resetWith cfg).Inv :=
  inv_iff.mpr ⟨wf_resetWith cfg, nofun, fun c => (coreAt_resetWith_switched cfg c).haltsInKernel⟩

/-- Settles O51: nothing is stored yet, and every core was just switched on or off. -/
theorem invariantHoldsAtReset : Obligations.InvariantHoldsAtReset :=
  ⟨resetWith_inv Config.default, resetWith_inv⟩

end Sys2Proof.Machine
end

section
/-! The address map and the fetch. Every boundary of the map is a multiple of 4, and a fetch looks at the
region of pc, so both statements are about regions as ranges of numbers. -/

namespace Sys2Proof.Machine

open Sys2Proof

/-- Every boundary is a multiple of 4, so the four bytes of an aligned word lie in one region (20_memory
R64). -/
theorem regionOf_add_of_aligned {n k : Nat} (hn : n % 4 = 0) (hk : k < 4) :
    regionOf (n + k) = regionOf n := by
  cases hr : regionOf n with
  | nulltrap => rw [regionOf_eq_nulltrap] at hr ⊢; omega
  | creg => rw [regionOf_eq_creg] at hr ⊢; omega
  | ivt => rw [regionOf_eq_ivt] at hr ⊢; omega
  | prog => rw [regionOf_eq_prog] at hr ⊢; omega
  | mmio => rw [regionOf_eq_mmio] at hr ⊢; omega
  | rom => rw [regionOf_eq_rom] at hr ⊢; omega

/-- Settles O13: the regions by their numbers, and the four bytes of an aligned word. -/
theorem addressMapHasSixRegions : Obligations.AddressMapHasSixRegions := by
  intro a
  have ha := a.isLt
  simp only [region_eq, regionOf_eq_nulltrap, regionOf_eq_creg, regionOf_eq_ivt, regionOf_eq_prog,
    regionOf_eq_mmio, regionOf_eq_rom]
  refine ⟨?_, ?_, ?_, ?_, ?_, ?_, fun k h4 hk => regionOf_add_of_aligned h4 hk⟩ <;> omega

theorem fetchCheck_of_misaligned {m : Mode} {a : Word} (h : a.toNat % 4 ≠ 0) :
    fetchCheck m a = some .instrFetchAlignmentFault :=
  if_pos ((aligned_eq_false_iff a).mpr h)

/-- Where an aligned fetch is permitted: in program memory, and in P0 in the ROM (20_memory R73, R79). -/
theorem fetchCheck_of_aligned {m : Mode} {a : Word} (h : a.toNat % 4 = 0) :
    fetchCheck m a =
      if region a = .prog ∨ (region a = .rom ∧ m = .p0) then none else some .instructionFetchFault := by
  have ha : aligned a = true := (aligned_iff a).mpr h
  unfold fetchCheck
  cases region a <;> cases m <;> simp [ha]

/-- The regions of `fetchCheck_of_aligned`, by their first and last addresses. -/
theorem fetchRegion_iff {m : Mode} {a : Word} :
    (region a = .prog ∨ (region a = .rom ∧ m = .p0)) ↔
      (0x8000 ≤ a.toNat ∧ a.toNat ≤ 0xFFFF5FFF) ∨ (0xFFFFE000 ≤ a.toNat ∧ m = .p0) := by
  rw [region_eq, regionOf_eq_prog, regionOf_eq_rom]
  exact or_congr_left (by omega)

theorem fetchAndRun_of_fault {s : State} {e : Exc} (h : fetchCheck s.mode s.pc = some e) :
    s.fetchAndRun = s.takeException e none := by
  simp only [State.fetchAndRun, h]

theorem fetchAndRun_of_permitted {s : State} (h : fetchCheck s.mode s.pc = none) :
    s.fetchAndRun = s.runWord (s.storageWord s.pc.toNat) := by
  simp only [State.fetchAndRun, h]

/-- Settles O7: FetchCheck by alignment and region; a permitted fetch reads the storage word at pc. -/
theorem fetchChecksAndReads : Obligations.FetchChecksAndReads := by
  intro s
  refine ⟨fun h4 => ?_, fun h4 hr => ?_, fun h4 hr => ?_⟩
  · exact fetchAndRun_of_fault (fetchCheck_of_misaligned h4)
  · exact fetchAndRun_of_fault
      ((fetchCheck_of_aligned h4).trans (if_neg (mt fetchRegion_iff.mp hr)))
  · have hok : fetchCheck s.mode s.pc = none :=
      (fetchCheck_of_aligned h4).trans (if_pos (fetchRegion_iff.mpr hr))
    exact ⟨s.storageWord s.pc.toNat, fetchAndRun_of_permitted hok, toNat_wordOfBytes _ _ _ _,
      opcode_wordOfBytes _ _ _ _⟩

end Sys2Proof.Machine
end

section
/-! The frames of an instruction's end. Each update of the moving core keeps the frame that lists its
register, so the frame of an instruction is built along its next state. -/

namespace Sys2Proof.Machine

open Sys2Proof

theorem sameSystem.setCore {s t : State} (h : sameSystem s t) (k : Core) :
    sameSystem s (t.setCore k) := by
  obtain ⟨hdclk, hboot, hcfg, hturn, hscript, hcores⟩ := h
  refine ⟨hdclk, hboot, hcfg, hturn, hscript, fun c hc => ?_⟩
  rw [coreAt_setCore, if_neg (hturn ▸ hc)]
  exact hcores c hc

theorem changesRegisters.refl (xs : List XReg) (es : List EReg) (s : State) :
    changesRegisters xs es s s :=
  ⟨fun _ _ => rfl, fun _ _ => rfl, ⟨rfl, rfl, rfl, fun _ => rfl, rfl, rfl, rfl⟩,
    ⟨rfl, rfl, rfl, rfl, rfl, fun _ _ => rfl⟩, rfl⟩

theorem changesRegisters.setMem {xs : List XReg} {es : List EReg} {s t : State}
    (h : changesRegisters xs es s t) (m : Memory) : changesRegisters xs es s (t.setMem m) := h

theorem changesRegisters.setX {xs : List XReg} {es : List EReg} {s t : State}
    (h : changesRegisters xs es s t) {d : XReg} (hd : d ∈ xs) (v : Word) :
    changesRegisters xs es s (t.setX d v) := by
  obtain ⟨hx, he, hcontrol, hsystem, hdraws⟩ := h
  refine ⟨fun r hr => ?_, fun r hr => ?_, by simpa [sameControl] using hcontrol,
    hsystem.setCore _, hdraws⟩
  · rw [x_setX, if_neg (ne_of_mem_of_not_mem hd hr).symm]
    exact hx r hr
  · rw [e_setX]
    exact he r hr

theorem changesRegisters.advance {xs : List XReg} {es : List EReg} {s t : State}
    (h : changesRegisters xs es s t) : changesRegisters xs es s t.advance := by
  obtain ⟨hx, he, hcontrol, hsystem, hdraws⟩ := h
  refine ⟨fun r hr => ?_, fun r hr => ?_, by simpa [sameControl] using hcontrol,
    hsystem.setCore _, hdraws⟩
  · rw [x_advance]
    exact hx r hr
  · rw [e_advance]
    exact he r hr

/-- The end of an instruction whose one effect is a value in an X register. -/
theorem changesOnly_setX_advance (s : State) (d : XReg) (v : Word) :
    changesOnly [d] [] s (s.setX d v).advance :=
  ⟨((changesRegisters.refl _ _ s).setX (List.mem_singleton_self d) v).advance,
    sameStorage_of_mem rfl⟩

end Sys2Proof.Machine
end

section
/-! Storage accesses, and the loads and stores of 42_load_store that reach storage: a write stores its
bytes and nothing else, a read gives them back, and LD, LDB and ST follow their access. -/

namespace Sys2Proof.Machine

open Sys2Proof

/-- The word stored at an address is the word read there (20_memory R60, R62). -/
theorem storesWord.storageWord {a v : Word} {s t : State} (h : storesWord a v s t) :
    t.storageWord a.toNat = v := by
  obtain ⟨hbytes, -⟩ := h
  have h0 : t.storageByte a.toNat = wordByte v 0 := hbytes 0 (by omega)
  rw [State.storageWord, h0, hbytes 1 (by omega), hbytes 2 (by omega), hbytes 3 (by omega),
    wordOfBytes_wordByte]

/-- The bytes of an aligned word lie above its address without wrapping around. -/
theorem toNat_add_of_aligned {a : Word} {k : Nat} (h4 : a.toNat % 4 = 0) (hk : k < 4) :
    (a + BitVec.ofNat 32 k).toNat = a.toNat + k := by
  rw [BitVec.toNat_add, BitVec.toNat_ofNat]
  omega

/-- Every byte of an aligned word of writable storage is writable storage. -/
theorem State.storable.byte {s : State} {a : Word} {k : Nat} (h : s.storable a)
    (h4 : a.toNat % 4 = 0) (hk : k < 4) : s.storable (a + BitVec.ofNat 32 k) := by
  have hb := bases
  rw [State.storable, toNat_add_of_aligned h4 hk]
  obtain hprog | ⟨hp0, hivt⟩ := h
  · exact .inl (by omega)
  · exact .inr ⟨hp0, by omega⟩

/-- Writable storage under the rights of mode m, by its first and last addresses. -/
theorem storable_setMode {s : State} {m : Mode} {a : Word} :
    (s.setMode m).storable a ↔
      (0x8000 ≤ a.toNat ∧ a.toNat ≤ 0xFFFF5FFF) ∨
        (m = .p0 ∧ 0x7F00 ≤ a.toNat ∧ a.toNat ≤ 0x7FFF) := by
  have hb := bases
  rw [State.storable, mode_setMode]
  exact or_congr (by omega) (and_congr_right fun _ => by omega)

/-- A word stored in writable storage reads back byte by byte (20_memory R60, R62). -/
theorem storesWord.memRead_byte {s t : State} {m : Mode} {a v : Word} {k : Nat}
    (h : storesWord a v s t) (hreach : (t.setMode m).storable a) (h4 : a.toNat % 4 = 0) (hk : k < 4) :
    t.memRead m (a + BitVec.ofNat 32 k) .byte = .ok ((wordByte v k).setWidth 32, t) := by
  obtain ⟨hcheck, hcreg, hmmio⟩ :=
    State.loadable.check (w := .byte) (.inl (hreach.byte h4 hk)) nofun
  rw [mode_setMode, dataCheck_setMode] at hcheck
  obtain ⟨hbytes, -⟩ := h
  rw [memRead_byte_storage hcheck hcreg hmmio, toNat_add_of_aligned h4 hk, hbytes k hk]

/-- A word stored in writable storage reads back as a word (20_memory R60, R62). -/
theorem storesWord.memRead_word {s t : State} {m : Mode} {a v : Word}
    (h : storesWord a v s t) (hreach : (t.setMode m).storable a) (h4 : a.toNat % 4 = 0) :
    t.memRead m a .word = .ok (v, t) := by
  obtain ⟨hcheck, hcreg, hmmio⟩ := State.loadable.check (w := .word) (.inl hreach) fun _ => h4
  rw [mode_setMode, dataCheck_setMode] at hcheck
  rw [memRead_word_storage hcheck hcreg hmmio, h.storageWord]

/-- Settles O17: the write passes its check, in storage, and what it stores reads back. -/
theorem storedWordReadsBack : Obligations.StoredWordReadsBack := by
  intro s m a v h4 hrange hsmc
  have hreach : ∀ u : State, (u.setMode m).storable a := fun _ => storable_setMode.mpr hrange
  obtain ⟨hcheck, hcreg, hmmio⟩ := (hreach s).check (w := .word) fun _ => h4
  rw [mode_setMode, dataCheck_setMode] at hcheck
  have hstored : storesWord a v s (s.setMem (storageWrite s.mem a v .word)) := storesWord_of_mem rfl
  exact ⟨_, memWrite_storage hcheck hcreg hmmio hsmc,
    fun k hk => hstored.memRead_byte (hreach _) h4 hk, hstored.memRead_word (hreach _) h4,
    hstored.2, rfl⟩

theorem laneAligned_iff (v : Word) : laneAligned v = true ↔ v.toNat ∈ [0, 8, 16, 24] := by
  simp [laneAligned, ← BitVec.toNat_inj, or_assoc]

theorem exec_ldb_of_misplaced {d a f : XReg} {s : State} (h : laneAligned (s.x f) = false) :
    exec (.ldb d a f) s = .refused .ldbLaneOffset :=
  if_pos h

theorem exec_ldb_of_memRead {d a f : XReg} {s u : State} {v : Word}
    (hlane : laneAligned (s.x f) = true) (h : s.memRead s.mode (s.byteAddress a) .byte = .ok (v, u)) :
    exec (.ldb d a f) s =
      .next (u.setX d (insertByte (s.x d) (s.x f).toNat (v.setWidth 8))).advance := by
  show execLdb d a f s = _
  rw [execLdb, if_neg (by simp [hlane]), h]
  rfl

theorem exec_ld_of_memRead {d a f : XReg} {s u : State} {v : Word}
    (h : s.memRead s.mode (s.wordAddress a f) .word = .ok (v, u)) :
    exec (.ld d a f) s = .next (u.setX d v).advance := by
  show execLd d a f s = _
  rw [execLd, h]
  rfl

theorem exec_st_of_memWrite {r a f : XReg} {s u : State}
    (h : s.memWrite s.mode (s.wordAddress a f) (s.x r) .word = .ok u) :
    exec (.st r a f) s = .next u.advance := by
  show execSt r a f s = _
  rw [execSt, h]
  rfl

/-- Settles O27: the byte read from storage, put into the lane. -/
theorem ldbMergesOneByteLane : Obligations.LdbMergesOneByteLane := by
  intro d a f s
  refine ⟨fun hlane hreach => ?_, fun hlane => ?_⟩
  · obtain ⟨hcheck, hcreg, hmmio⟩ := hreach.check (w := .byte) nofun
    refine ⟨_, exec_ldb_of_memRead ((laneAligned_iff _).mpr hlane)
      (memRead_byte_storage hcheck hcreg hmmio), by simp, changesOnly_setX_advance s d _,
      fun n hn => ?_⟩
    rw [x_advance, x_setX, if_pos rfl, getLsbD_insertByte _ _ _ _ hn,
      BitVec.setWidth_setWidth_of_le _ (by decide), BitVec.setWidth_eq]
    rfl
  · exact exec_ldb_of_misplaced (Bool.eq_false_iff.mpr (mt (laneAligned_iff _).mp hlane))

/-- Settles O29: the word read from storage, by its four bytes. -/
theorem ldLoadsAWord : Obligations.LdLoadsAWord := by
  intro d a f s h4 hreach
  obtain ⟨hcheck, hcreg, hmmio⟩ := hreach.check (w := .word) fun _ => h4
  refine ⟨_, exec_ld_of_memRead (memRead_word_storage hcheck hcreg hmmio), by simp,
    changesOnly_setX_advance s d _, (s.wordAddress a f).toNat, BitVec.toNat_add _ _, ?_⟩
  rw [x_advance, x_setX, if_pos rfl]
  exact toNat_wordOfBytes _ _ _ _

/-- Settles O30: the word written to storage. -/
theorem stStoresAWord : Obligations.StStoresAWord := by
  intro r a f s h4 hreach hsmc
  obtain ⟨hcheck, hcreg, hmmio⟩ := hreach.check (w := .word) fun _ => h4
  exact ⟨_, exec_st_of_memWrite (memWrite_storage hcheck hcreg hmmio hsmc), by simp,
    ((changesRegisters.refl _ _ s).setMem _).advance, storesWord_of_mem rfl⟩

end Sys2Proof.Machine
end

section
/-! The bytes of memory an instruction changes. Only its data write and the push of a trap entry reach
memory, and a storage write changes no byte that it does not cover. -/

namespace Sys2Proof.Machine

open Sys2Proof

/-- A storage write changes no byte but those it covers (20_memory R63). -/
theorem mem_bytesCovered_of_changed {s t : State} {a v : Word} {w : Width} {n : Nat}
    (hm : t.mem = storageWrite s.mem a v w) (hne : t.storageByte n ≠ s.storageByte n) :
    n ∈ bytesCovered a w := by
  by_contra hn
  refine hne ?_
  calc t.storageByte n
      = (s.setMem (storageWrite s.mem a v w)).storageByte n := sameStorage_of_mem hm n
    _ = s.storageByte n :=
      (storageByte_setMem_storageWrite s a v w n).trans (if_neg (mt mem_bytesCovered.mpr hn))

theorem memWrite_changed {s u : State} {m : Mode} {a v : Word} {w : Width} {n : Nat}
    (h : s.memWrite m a v w = .ok u) (hne : u.storageByte n ≠ s.storageByte n) :
    s.dataCheck m .store a w = none ∧ n ∈ bytesCovered a w := by
  obtain ⟨hcheck, -, hwrite⟩ := memWrite_eq_ok.mp h
  obtain ⟨-, rfl⟩ | ⟨-, hctl⟩ := writeThrough_cases hcheck hwrite
  · exact ⟨hcheck, mem_bytesCovered_of_changed rfl hne⟩
  · exact absurd (sameStorage_of_mem hctl.mem n) hne

/-- The data access of an instruction changes memory only as its store. -/
theorem AccessDone.changed {i : Instr} {s u : State} {n : Nat} (h : AccessDone s i u)
    (hne : u.storageByte n ≠ s.storageByte n) :
    ∃ a w, s.dataAccess i = some (.store, a, w) ∧ s.dataCheck s.mode .store a w = .none ∧
      n ∈ bytesCovered a w := by
  cases h with
  | none => exact absurd rfl hne
  | drawn => exact absurd rfl hne
  | stored a v w _ ha hw => exact ⟨a, w, ha, memWrite_changed hw hne⟩

/-- Trap entry changes memory only by its push, after which the core is in P0 (60_exceptions R280). -/
theorem takeException_changed {s t : State} {e : Exc} {info : Option Word} {n : Nat}
    (h : s.takeException e info = .next t) (hne : t.storageByte n ≠ s.storageByte n) :
    n ∈ bytesCovered (s.x xsp - 4#32) .word ∧ t.mode = .p0 := by
  obtain hm | ⟨_, -, -, hp0, hm⟩ := (trapEntry_frame h).storage
  · exact absurd (sameStorage_of_mem hm n) hne
  · exact ⟨mem_bytesCovered_of_changed hm hne, hp0⟩

/-- Settles O60: an instruction stores, or takes an exception; its own effect leaves memory alone. -/
theorem memoryChangesOnlyWhereStored : Obligations.MemoryChangesOnlyWhereStored := by
  intro i s t n h hne
  have trapped : ∀ {e info}, s.takeException e info = .next t →
      n ∈ bytesCovered (s.x xsp - 4#32) .word ∧ t.mode = .p0 ∧
        ∃ e info, exec i s = s.takeException e info := fun ht => by
    obtain ⟨hn, hp0⟩ := takeException_changed ht hne
    exact ⟨hn, hp0, _, _, h.trans ht.symm⟩
  cases exec_cases h with
  | trapNoData _ _ ht => exact .inr (trapped ht)
  | trapData _ _ _ _ _ _ ht => exact .inr (trapped ht)
  | own u hu _ ho _ _ =>
    have hsame : sameStorage u t := sameStorage_of_mem (by rw [ho.only]; rfl)
    exact .inl (hu.changed (hsame n ▸ hne))

end Sys2Proof.Machine
end

section
/-! The encoder and the decoder are inverse to each other (30_encoding R103, R110). A word is its fields
put together, and a mask made of whole fields keeps or clears each field by itself; so clearing the unused
bits of a word leaves the fields that the decoder reads. -/

namespace Sys2Proof

/-! ## Decoding an encoded instruction -/

/-- The four bytes of a word decode as the word does, and what follows them is left. -/
theorem decodeBytes_bytesOfWord (w : Word) (rest : List Byte) :
    decodeBytes (bytesOfWord w ++ rest) = (decodeWord w).map (·, rest) := by
  simp only [bytesOfWord, List.cons_append, List.nil_append, decodeBytes, wordOfBytes_wordByte]
  cases decodeWord w <;> rfl

/-- The decoder reads each field where the encoder put it; JMPC's code alone is checked. The field lemmas of
Laws/Decode are simp lemmas. -/
theorem decodeWord_encode (i : Instr) (h : i.wellFormed = true) : decodeWord (encode i) = .ok i := by
  cases i
  case jmpc c p1 p2 a f =>
    have hc : condCodeAssigned c = true := h
    simp [encode, decodeWord, hc]
  all_goals simp [encode, decodeWord]

/-- Settles O1: the four bytes give the encoded word back, and the decoder undoes the encoder on it. -/
theorem decodeOfEncode : Obligations.DecodeOfEncode := by
  intro i rest h
  rw [decodeBytes_bytesOfWord, decodeWord_encode i h]
  rfl

/-! ## A word is its fields -/

theorem toNat_opcode (w : Word) : (opcode w).toNat = w.toNat / 2 ^ 24 % 2 ^ 8 := by
  simp [opcode, BitVec.extractLsb'_toNat, Nat.shiftRight_eq_div_pow]

theorem toNat_ofFin_nibble (w : Word) (lo : Nat) :
    (BitVec.ofFin (w := 4) (nibble w lo)).toNat = w.toNat / 2 ^ lo % 2 ^ 4 := by
  rw [← Nat.shiftRight_eq_div_pow]
  exact BitVec.extractLsb'_toNat ..

theorem toNat_imm20 (w : Word) : (imm20 w).toNat = w.toNat % 2 ^ 20 := by
  simp [imm20, BitVec.extractLsb'_toNat]

theorem toNat_imm16 (w : Word) : (imm16 w).toNat = w.toNat % 2 ^ 16 := by
  simp [imm16, BitVec.extractLsb'_toNat]

theorem pack_fields (w : Word) :
    pack (opcode w) (n1 w) (n2 w) (n3 w) (n4 w) (n5 w) (nibble w 0) = w := by
  apply BitVec.eq_of_toNat_eq
  have hw := w.isLt
  unfold pack
  rw [toNat_append_eq, toNat_append_eq, toNat_append_eq, toNat_append_eq, toNat_append_eq,
    toNat_append_eq]
  simp only [n1, n2, n3, n4, n5, toNat_opcode, toNat_ofFin_nibble]
  omega

theorem packImm20_fields (w : Word) : packImm20 (opcode w) (n1 w) (imm20 w) = w := by
  apply BitVec.eq_of_toNat_eq
  have hw := w.isLt
  unfold packImm20
  rw [toNat_append_eq, toNat_append_eq]
  simp only [n1, toNat_opcode, toNat_ofFin_nibble, toNat_imm20]
  omega

theorem packImm16_fields (w : Word) : packImm16 (opcode w) (n1 w) (n2 w) (imm16 w) = w := by
  apply BitVec.eq_of_toNat_eq
  have hw := w.isLt
  unfold packImm16
  rw [toNat_append_eq, toNat_append_eq, toNat_append_eq]
  simp only [n1, n2, toNat_opcode, toNat_ofFin_nibble, toNat_imm16]
  omega

/-! ## Masks made of whole fields -/

theorem ofFin_and (a b : Fin 16) :
    BitVec.ofFin (w := 4) (a &&& b) = BitVec.ofFin (w := 4) a &&& BitVec.ofFin (w := 4) b := by
  revert a b; decide

theorem fin16_and_fifteen (a : Fin 16) : a &&& 15 = a := by revert a; decide

theorem fin16_and_zero (a : Fin 16) : a &&& 0 = 0 := by revert a; decide

theorem pack_and_pack (o o' : Byte) (a b c d e f a' b' c' d' e' f' : Fin 16) :
    pack o a b c d e f &&& pack o' a' b' c' d' e' f' =
      pack (o &&& o') (a &&& a') (b &&& b') (c &&& c') (d &&& d') (e &&& e') (f &&& f') := by
  simp only [pack, ofFin_and]
  rw [← BitVec.and_append, ← BitVec.and_append, ← BitVec.and_append, ← BitVec.and_append,
    ← BitVec.and_append, ← BitVec.and_append]

theorem packImm16_and_packImm16 (o o' : Byte) (a b a' b' : Fin 16) (v v' : BitVec 16) :
    packImm16 o a b v &&& packImm16 o' a' b' v' =
      packImm16 (o &&& o') (a &&& a') (b &&& b') (v &&& v') := by
  simp only [packImm16, ofFin_and]
  rw [← BitVec.and_append, ← BitVec.and_append, ← BitVec.and_append]

/-- A mask given by its nibbles keeps the opcode and clears a word nibble by nibble. -/
theorem and_pack (w : Word) (a b c d e f : Fin 16) :
    w &&& pack 0xFF#8 a b c d e f =
      pack (opcode w) (n1 w &&& a) (n2 w &&& b) (n3 w &&& c) (n4 w &&& d) (n5 w &&& e)
        (nibble w 0 &&& f) := by
  have hop : opcode w &&& 0xFF#8 = opcode w := BitVec.and_allOnes
  conv_lhs => rw [← pack_fields w, pack_and_pack, hop]

/-- The code of JMPC is n1 without its highest bit (30_encoding R109). -/
theorem nibbleOfCode3_code3 (w : Word) : nibbleOfCode3 (code3 w) = n1 w &&& 7 := by
  have hcode : code3 w = (BitVec.ofFin (w := 4) (n1 w)).extractLsb' 0 3 := by
    apply BitVec.eq_of_toNat_eq
    rw [code3, n1, BitVec.extractLsb'_toNat, BitVec.extractLsb'_toNat, toNat_ofFin_nibble,
      Nat.shiftRight_eq_div_pow, Nat.shiftRight_zero]
    omega
  rw [hcode]
  generalize n1 w = a
  revert a
  decide

/-- The code of JMPC_Z is the lowest bit of n1 (30_encoding R109). -/
theorem nibbleOfCode1_code1 (w : Word) : nibbleOfCode1 (code1 w) = n1 w &&& 1 := by
  have hcode : code1 w = (BitVec.ofFin (w := 4) (n1 w)).extractLsb' 0 1 := by
    apply BitVec.eq_of_toNat_eq
    rw [code1, n1, BitVec.extractLsb'_toNat, BitVec.extractLsb'_toNat, toNat_ofFin_nibble,
      Nat.shiftRight_eq_div_pow, Nat.shiftRight_zero]
    omega
  rw [hcode]
  generalize n1 w = a
  revert a
  decide

/-! ## Encoding a decoded word

For each group of patterns of 30_encoding R105: the fields read from a word, packed again, are that word with
the group's unused bits cleared. -/

section

variable {w : Word} {op : Byte} (h : (opcode w).toNat = op.toNat)

include h

theorem pack_none_eq : pack op 0 0 0 0 0 0 = w &&& ~~~0x00FFFFFF#32 := by
  have hm : ~~~0x00FFFFFF#32 = pack 0xFF#8 0 0 0 0 0 0 := by decide
  simp only [hm, and_pack, BitVec.eq_of_toNat_eq h, fin16_and_zero]

theorem pack_one_eq : pack op (n1 w) 0 0 0 0 0 = w &&& ~~~0x000FFFFF#32 := by
  have hm : ~~~0x000FFFFF#32 = pack 0xFF#8 15 0 0 0 0 0 := by decide
  simp only [hm, and_pack, BitVec.eq_of_toNat_eq h, fin16_and_fifteen, fin16_and_zero]

theorem pack_two_eq : pack op (n1 w) (n2 w) 0 0 0 0 = w &&& ~~~0x0000FFFF#32 := by
  have hm : ~~~0x0000FFFF#32 = pack 0xFF#8 15 15 0 0 0 0 := by decide
  simp only [hm, and_pack, BitVec.eq_of_toNat_eq h, fin16_and_fifteen, fin16_and_zero]

theorem pack_three_eq : pack op (n1 w) (n2 w) (n3 w) 0 0 0 = w &&& ~~~0x00000FFF#32 := by
  have hm : ~~~0x00000FFF#32 = pack 0xFF#8 15 15 15 0 0 0 := by decide
  simp only [hm, and_pack, BitVec.eq_of_toNat_eq h, fin16_and_fifteen, fin16_and_zero]

theorem pack_code3_eq : pack op (nibbleOfCode3 (code3 w)) (n2 w) (n3 w) (n4 w) (n5 w) 0 =
    w &&& ~~~0x0080000F#32 := by
  have hm : ~~~0x0080000F#32 = pack 0xFF#8 7 15 15 15 15 0 := by decide
  simp only [hm, and_pack, BitVec.eq_of_toNat_eq h, nibbleOfCode3_code3,
    fin16_and_fifteen, fin16_and_zero]

theorem pack_code1_eq : pack op (nibbleOfCode1 (code1 w)) (n2 w) (n3 w) (n4 w) 0 0 =
    w &&& ~~~0x00E000FF#32 := by
  have hm : ~~~0x00E000FF#32 = pack 0xFF#8 1 15 15 15 0 0 := by decide
  simp only [hm, and_pack, BitVec.eq_of_toNat_eq h, nibbleOfCode1_code1,
    fin16_and_fifteen, fin16_and_zero]

theorem packImm20_eq : packImm20 op (n1 w) (imm20 w) = w &&& ~~~0#32 := by
  rw [← BitVec.eq_of_toNat_eq h, packImm20_fields, BitVec.not_zero, BitVec.and_allOnes]

theorem packImm16_eq : packImm16 op (n1 w) 0 (imm16 w) = w &&& ~~~0x000F0000#32 := by
  have hm : ~~~0x000F0000#32 = packImm16 0xFF#8 15 0 0xFFFF#16 := by decide
  have hop : opcode w &&& 0xFF#8 = opcode w := BitVec.and_allOnes
  have himm : imm16 w &&& 0xFFFF#16 = imm16 w := BitVec.and_allOnes
  calc packImm16 op (n1 w) 0 (imm16 w)
      = packImm16 (opcode w) (n1 w) (n2 w) (imm16 w) &&& packImm16 0xFF#8 15 0 0xFFFF#16 := by
        rw [packImm16_and_packImm16, hop, himm, fin16_and_fifteen, fin16_and_zero,
          BitVec.eq_of_toNat_eq h]
    _ = w &&& ~~~0x000F0000#32 := by rw [packImm16_fields, hm]

end

/-- The decoder answers JMPC only with a code that is assigned (30_encoding R109, R112). -/
theorem wellFormed_of_decodeWord {w : Word} {i : Instr} (h : decodeWord w = .ok i) :
    i.wellFormed = true := by
  unfold decodeWord at h
  split at h
  case h_30 => -- JMPC, opcode 0x33
    split_ifs at h with hc
    cases h
    exact hc
  case h_43 => cases h -- every opcode not listed
  all_goals
    cases h
    rfl

/-- The encoder writes the fields that the decoder read, and 0 for each unused bit of the pattern. The
placeholders are left out: their low bits count as no unused bits (log 22). -/
theorem encode_of_decodeWord {w : Word} {i : Instr} (h : decodeWord w = .ok i)
    (hfp : (opcode w).toNat ∉ [5, 6, 7, 8]) : encode i = w &&& ~~~unusedMask (opcode w) := by
  unfold decodeWord at h
  split at h
  case h_5 hop | h_6 hop | h_7 hop | h_8 hop => exact absurd hfp (by simp [hop])
  case h_30 hop => -- JMPC, opcode 0x33
    split_ifs at h
    cases h
    simp only [encode, unusedMask, hop, pack_code3_eq (op := 0x33#8) hop]
  case h_43 => cases h -- every opcode not listed
  all_goals
    rename_i hop
    cases h
    simp only [encode, unusedMask, hop, BitVec.reduceToNat, pack_none_eq (w := w), pack_one_eq,
      pack_two_eq, pack_three_eq, pack_code1_eq, packImm20_eq, packImm16_eq]

/-- Settles O2: what the decoder reads is well formed, and the encoder writes it with the unused bits 0. -/
theorem encodeOfDecode : Obligations.EncodeOfDecode := fun _ _ h =>
  ⟨wellFormed_of_decodeWord h, encode_of_decodeWord h⟩

end Sys2Proof
end

section
/-! Logic and moves (41_logic_move). Each of these instructions ends by writing one value to one register
and going on to the next word, so its frame is that of the write, and what is left is the value. -/

namespace Sys2Proof

/-- The number of an encoded word is the sum of its fields, each at its place (30_encoding R103). -/
theorem toNat_pack (op : Byte) (a b c d e f : Fin 16) :
    (pack op a b c d e f).toNat = op.toNat * 2 ^ 24 + a.val * 2 ^ 20 + b.val * 2 ^ 16 +
      c.val * 2 ^ 12 + d.val * 2 ^ 8 + e.val * 2 ^ 4 + f.val := by
  simp only [pack, toNat_append_eq, BitVec.toNat_ofFin]
  omega

namespace Machine

@[simp] theorem toNat_zext20 (i : BitVec 20) : (zext20 i).toNat = i.toNat :=
  BitVec.toNat_setWidth_of_le (by decide)

/-- Replacing the high half puts it in front of the low half that is kept. -/
@[simp] theorem toNat_withHighHalf (v : Word) (i : BitVec 16) :
    (withHighHalf v i).toNat = i.toNat * 2 ^ 16 + v.toNat % 2 ^ 16 := by
  have hhigh : (i.setWidth 32 <<< 16).toNat = i.toNat <<< 16 := by
    rw [BitVec.toNat_shiftLeft, BitVec.toNat_setWidth_of_le (by decide), Nat.shiftLeft_eq]
    omega
  have hlow : (v &&& 0x0000FFFF#32).toNat = v.toNat % 2 ^ 16 :=
    Nat.and_two_pow_sub_one_eq_mod v.toNat 16
  rw [withHighHalf, BitVec.toNat_or, hhigh, hlow,
    ← Nat.shiftLeft_add_eq_or_of_lt (Nat.mod_lt _ (by decide)), Nat.shiftLeft_eq]

theorem changesRegisters.setE {xs : List XReg} {es : List EReg} {s t : State}
    (h : changesRegisters xs es s t) {d : EReg} (hd : d ∈ es) (v : Word) :
    changesRegisters xs es s (t.setE d v) := by
  obtain ⟨hx, he, hcontrol, hsystem, hdraws⟩ := h
  refine ⟨fun r hr => ?_, fun r hr => ?_, by simpa [sameControl] using hcontrol,
    hsystem.setCore _, hdraws⟩
  · rw [x_setE]
    exact hx r hr
  · rw [e_setE, if_neg (ne_of_mem_of_not_mem hd hr).symm]
    exact he r hr

/-- The end of an instruction whose one effect is a value in an E register. -/
theorem changesOnly_setE_advance (s : State) (d : EReg) (v : Word) :
    changesOnly [] [d] s (s.setE d v).advance :=
  ⟨((changesRegisters.refl _ _ s).setE (List.mem_singleton_self d) v).advance,
    sameStorage_of_mem rfl⟩

theorem writeX_completes (s : State) (d : XReg) (v : Word) :
    ∃ t, s.writeX d v = .next t ∧ t.x d = v ∧ t.pc = s.pc + 4#32 ∧ changesOnly [d] [] s t :=
  ⟨_, rfl, by simp, by simp, changesOnly_setX_advance s d v⟩

theorem writeE_completes (s : State) (d : EReg) (v : Word) :
    ∃ t, s.writeE d v = .next t ∧ t.e d = v ∧ t.pc = s.pc + 4#32 ∧ changesOnly [] [d] s t :=
  ⟨_, rfl, by simp, by simp, changesOnly_setE_advance s d v⟩

/-- A written value that is known bit by bit. -/
theorem writeX_bits (s : State) (d : XReg) {v : Word} {bit : Nat → Bool}
    (hbit : ∀ n, n < 32 → v.getLsbD n = bit n) :
    ∃ t, s.writeX d v = .next t ∧ t.pc = s.pc + 4#32 ∧ changesOnly [d] [] s t ∧
      ∀ n, n < 32 → (t.x d).getLsbD n = bit n := by
  obtain ⟨t, hnext, hvalue, hpc, hframe⟩ := writeX_completes s d v
  exact ⟨t, hnext, hpc, hframe, hvalue ▸ hbit⟩

/-- Settles O24: the written value is known bit by bit, and the word is the sum of its fields. -/
theorem logicResult : Obligations.LogicResult := by
  intro a b s
  refine ⟨?and, ?or, ?xor, ?not, ?_, ?_, ?_, ?_⟩
  case and => exact writeX_bits s a fun _ _ => BitVec.getLsbD_and
  case or => exact writeX_bits s a fun _ _ => BitVec.getLsbD_or
  case xor => exact writeX_bits s a fun _ _ => BitVec.getLsbD_xor
  case not => exact writeX_bits s a fun n hn => by simp [hn]
  all_goals simp [encode, toNat_pack]

/-- Settles O25: each move is one register write; the immediates give their value by number. -/
theorem moveResult : Obligations.MoveResult := by
  intro d r k l i j s
  refine ⟨writeX_completes s d (s.x r), writeE_completes s k (s.x r), writeX_completes s d (s.e l),
    writeE_completes s k (s.e l), ?movImm, ?movImmHigh⟩
  case movImm =>
    obtain ⟨t, hnext, hvalue, hend⟩ := writeX_completes s d (zext20 i)
    exact ⟨t, hnext, by rw [hvalue, toNat_zext20], hend⟩
  case movImmHigh =>
    obtain ⟨t, hnext, hvalue, hend⟩ := writeX_completes s d (withHighHalf (s.x d) j)
    exact ⟨t, hnext, by rw [hvalue, toNat_withHighHalf], hend⟩

end Machine

end Sys2Proof
end

section
/-! Shifts (43_shift). A shift by 0 gives its operand back under every setting, and a register that is
rewritten with its own value leaves the state as it was; so NOP is the step to the next word. -/

namespace Sys2Proof.Machine

open Sys2Proof

@[simp] theorem shiftAmount_zero (cfg : Config) : shiftAmount cfg 0 = 0 := by
  unfold shiftAmount
  split <;> rfl

@[simp] theorem lshValue_zero (cfg : Config) (v : Word) : lshValue cfg v 0 = v := by
  simp [lshValue]

@[simp] theorem setX_self (s : State) (i : XReg) : s.setX i (s.x i) = s := by
  have hvec : s.core.x.set i (s.x i) = s.core.x := Vector.set_getElem_self _
  rw [State.setX, hvec]
  exact setCore_core s

/-- Writing a register its own value only goes on to the next word. -/
theorem writeX_self (s : State) (d : XReg) : s.writeX d (s.x d) = .next s.advance := by
  rw [State.writeX, setX_self]

/-- LSH_IMM by 0 only goes on to the next word, whatever its register (R192, R195). -/
theorem exec_lshImm_zero (p : XReg) (s : State) : exec (.lshImm p 0#20) s = .next s.advance :=
  calc exec (.lshImm p 0#20) s
      = s.writeX p (lshValue s.cfg (s.x p) 0) := rfl
    _ = s.writeX p (s.x p) := by rw [lshValue_zero]
    _ = .next s.advance := writeX_self s p

/-- The word of NOP, as the encoder writes it (R196). -/
theorem encode_nop : encode (.lshImm 0 0#20) = 0x29000000#32 := by decide

/-- The word of NOP in memory order (R196). -/
theorem bytesOfWord_nop : bytesOfWord 0x29000000#32 = [0x00#8, 0x00#8, 0x00#8, 0x29#8] := by decide

theorem decodeWord_nop : decodeWord 0x29000000#32 = .ok (.lshImm 0 0#20) :=
  encode_nop ▸ decodeWord_encode (.lshImm 0 0#20) rfl

theorem decodeBytes_nop :
    decodeBytes [0x00#8, 0x00#8, 0x00#8, 0x29#8] = .ok (.lshImm 0 0#20, []) := by
  rw [← bytesOfWord_nop, ← List.append_nil (bytesOfWord _), decodeBytes_bytesOfWord, decodeWord_nop]
  rfl

/-- Settles O35: the word is read back from its encoding, and a shift by 0 rewrites X0 with its own
value. -/
theorem nopChangesOnlyPc : Obligations.NopChangesOnlyPc :=
  ⟨decodeWord_nop, decodeBytes_nop, exec_lshImm_zero 0, rfl⟩

end Sys2Proof.Machine
end

section
/-! Jumps (44_jump). An unconditional jump is one write of PC and no check of its target (R200), so its
frame is that of the write, and what is left is the target as a number modulo 2^32. -/

namespace Sys2Proof.Machine

open Sys2Proof

@[simp] theorem toNat_regTarget (s : State) (a f : XReg) :
    (s.regTarget a f).toNat = ((s.x a).toNat + (s.x f).toNat) % 2 ^ 32 :=
  BitVec.toNat_add _ _

@[simp] theorem toNat_immTarget (s : State) (a : XReg) (i : BitVec 20) :
    (s.immTarget a i).toNat = ((s.x a).toNat + i.toNat) % 2 ^ 32 := by
  rw [State.immTarget, BitVec.toNat_add, toNat_zext20]

theorem changesRegisters.setPc {xs : List XReg} {es : List EReg} {s t : State}
    (h : changesRegisters xs es s t) (v : Word) : changesRegisters xs es s (t.setPc v) := by
  obtain ⟨hx, he, hcontrol, hsystem, hdraws⟩ := h
  refine ⟨fun r hr => ?_, fun r hr => ?_, by simpa [sameControl] using hcontrol,
    hsystem.setCore _, hdraws⟩
  · rw [x_setPc]
    exact hx r hr
  · rw [e_setPc]
    exact he r hr

/-- The end of an instruction whose one effect is on PC. -/
theorem changesOnly_setPc (s : State) (v : Word) : changesOnly [] [] s (s.setPc v) :=
  ⟨(changesRegisters.refl _ _ s).setPc v, sameStorage_of_mem rfl⟩

/-- Settles O36: each jump is one write of PC, and the target's number is that of its sum. -/
theorem jumpsWriteOnlyPc : Obligations.JumpsWriteOnlyPc := by
  intro a f i s
  refine ⟨⟨_, rfl, ?jmpImm, changesOnly_setPc s (s.immTarget a i)⟩,
    ⟨_, rfl, ?jmpRel, changesOnly_setPc s (s.regTarget a f)⟩,
    ⟨_, rfl, ?jmp, changesOnly_setPc s (s.x a)⟩⟩
  case jmpImm => rw [pc_setPc, toNat_immTarget]
  case jmpRel => rw [pc_setPc, toNat_regTarget]
  case jmp => exact pc_setPc s (s.x a)

end Sys2Proof.Machine
end

section
/-! The mode of a core (60_exceptions R312). The moving core is the only one whose mode a step can raise to
P1: a core switched by CORE_FLAGS comes out in P0. Of the moving core's step, a trap enters P0 or leaves the
mode, and SYSRET is the one instruction whose own effect leaves P0. -/

namespace Sys2Proof.Machine

open Sys2Proof

/-- The turn is kept, and every core in P0 but the moving one stays in P0. -/
structure OthersKernelFrame (s t : State) : Prop where
  turn : t.turn = s.turn
  others : ∀ c, c ≠ s.turn → (s.coreAt c).mode = .p0 → (t.coreAt c).mode = .p0

theorem OthersKernelFrame.trans {s t u : State} (h : OthersKernelFrame s t)
    (k : OthersKernelFrame t u) : OthersKernelFrame s u :=
  ⟨k.turn.trans h.turn, fun c hc hp0 => k.others c (h.turn ▸ hc) (h.others c hc hp0)⟩

theorem OthersKernelFrame.of_cores {s t : State} (hturn : t.turn = s.turn)
    (hcores : t.cores = s.cores) : OthersKernelFrame s t :=
  ⟨hturn, fun _ _ hp0 => by rwa [State.coreAt, hcores]⟩

theorem OthersKernelFrame.setCore (s : State) (k : Core) : OthersKernelFrame s (s.setCore k) :=
  ⟨rfl, fun c hc hp0 => by rwa [coreAt_setCore, if_neg hc]⟩

/-- A core that is off or just powered on is in P0 (60_exceptions R316). -/
theorem Core.switched.mode {k : Core} (h : k.switched) : k.mode = .p0 := by
  obtain rfl | ⟨_, _, rfl⟩ := h <;> rfl

theorem OthersKernelFrame.of_switched {s t : State} (hturn : t.turn = s.turn)
    (hothers : ∀ c, c ≠ s.turn →
      t.coreAt c = s.coreAt c ∨ (s.turn = 0 ∧ (t.coreAt c).switched)) : OthersKernelFrame s t := by
  refine ⟨hturn, fun c hc hp0 => ?_⟩
  obtain hsame | ⟨-, hsw⟩ := hothers c hc
  · rwa [hsame]
  · exact hsw.mode

theorem memWrite_othersKernel {s t : State} {m : Mode} {a v : Word} {w : Width}
    (h : s.memWrite m a v w = .ok t) : OthersKernelFrame s t := by
  obtain ⟨hcheck, -, hwrite⟩ := memWrite_eq_ok.mp h
  obtain ⟨-, rfl⟩ | ⟨-, hctl⟩ := writeThrough_cases hcheck hwrite
  · exact .of_cores rfl rfl
  · exact .of_switched hctl.turn hctl.others

theorem AccessDone.othersKernel {i : Instr} {s u : State} (h : AccessDone s i u) :
    OthersKernelFrame s u := by
  cases h with
  | none => exact .of_cores rfl rfl
  | drawn => exact .of_cores rfl rfl
  | stored _ _ _ _ _ hw => exact memWrite_othersKernel hw

theorem OwnEffect.othersKernel {i : Instr} {s u t : State} (h : OwnEffect i s u t) :
    OthersKernelFrame u t := by
  rw [h.only]
  exact .setCore u t.core

theorem TrapFrame.othersKernel {s t : State} {info : Option Word} (h : TrapFrame s t info) :
    OthersKernelFrame s t :=
  .of_switched h.turn h.others

theorem exec_othersKernel {i : Instr} {s t : State} (h : exec i s = .next t) :
    OthersKernelFrame s t := by
  cases exec_cases h with
  | trapNoData _ _ ht => exact (trapEntry_frame ht).othersKernel
  | trapData _ _ _ _ _ _ ht => exact (trapEntry_frame ht).othersKernel
  | own _ hu _ ho _ _ => exact hu.othersKernel.trans ho.othersKernel

theorem coreStep_othersKernel {s t : State} (h : s.coreStep = .next t) : OthersKernelFrame s t := by
  cases coreStep_cases h with
  | interrupt q _ ht =>
    have hcleared : OthersKernelFrame s (s.setPending q false) := .setCore s _
    exact hcleared.trans (trapEntry_frame ht).othersKernel
  | trap _ _ ht => exact (trapEntry_frame ht).othersKernel
  | ran _ _ _ _ hx => exact exec_othersKernel hx

theorem AccessDone.mode {i : Instr} {s u : State} (h : AccessDone s i u) : u.mode = s.mode :=
  (congrArg Core.mode h.core :)

/-- A trap entry enters P0, or triple-faults in the mode the core is in. -/
theorem TrapFrame.kernel {s t : State} {info : Option Word} (h : TrapFrame s t info)
    (hp0 : s.mode = .p0) : t.mode = .p0 := by
  obtain ⟨henter, -⟩ | ⟨-, hkept, -⟩ := h.mode
  · exact henter
  · exact hkept.trans hp0

/-- SYSRET is the only instruction that takes its core out of P0 (46_system R243). -/
theorem exec_kernel {i : Instr} {s t : State} (h : exec i s = .next t) (hp0 : s.mode = .p0) :
    t.mode = .p0 ∨ i = .sysret := by
  cases exec_cases h with
  | trapNoData _ _ ht => exact .inl ((trapEntry_frame ht).kernel hp0)
  | trapData _ _ _ _ _ _ ht => exact .inl ((trapEntry_frame ht).kernel hp0)
  | own _ hu _ ho _ _ =>
    obtain hkept | henter | ⟨hsysret, -⟩ := ho.mode
    · exact .inl (hkept.trans (hu.mode.trans hp0))
    · exact .inl henter
    · exact .inr hsysret

/-- The step of a core in P0 ends in P0, unless the word at its pc is SYSRET. -/
theorem coreStep_kernel {s t : State} (h : s.coreStep = .next t) (hp0 : s.mode = .p0) :
    t.mode = .p0 ∨ decodeWord (s.storageWord s.pc.toNat) = .ok .sysret := by
  cases coreStep_cases h with
  | interrupt q _ ht =>
    exact .inl ((trapEntry_frame ht).kernel ((mode_setPending s q false).trans hp0))
  | trap _ _ ht => exact .inl ((trapEntry_frame ht).kernel hp0)
  | ran i _ _ hi hx =>
    exact (exec_kernel hx hp0).imp_right fun (hsysret : i = .sysret) => hsysret ▸ hi

theorem Scheduled.mode {s u : State} (h : Scheduled s u) (c : CoreId) :
    (u.coreAt c).mode = (s.coreAt c).mode :=
  (congrArg Core.mode (h.cores c) :)

theorem Scheduled.pc {s u : State} (h : Scheduled s u) (c : CoreId) :
    (u.coreAt c).pc = (s.coreAt c).pc :=
  (congrArg Core.pc (h.cores c) :)

theorem Scheduled.storageWord {s u : State} (h : Scheduled s u) (n : Nat) :
    u.storageWord n = s.storageWord n := by
  simp only [State.storageWord, sameStorage_of_mem h.mem _]

/-- Settles O54: a core that does not move stays in P0, and the moving core leaves it by SYSRET. -/
theorem onlySysretLeavesKernelMode : Obligations.OnlySysretLeavesKernelMode := by
  intro s t c hstep hp0 hp1
  obtain ⟨u, hs, rfl | ⟨-, hcore⟩⟩ := step_cases hstep
  · exact absurd (hp1.symm.trans ((hs.mode c).trans hp0)) nofun
  · have hu : (u.coreAt c).mode = .p0 := (hs.mode c).trans hp0
    have hframe := coreStep_othersKernel hcore
    have hmoved : c = u.turn := by
      by_contra hc
      exact absurd (hp1.symm.trans (hframe.others c hc hu)) nofun
    subst hmoved
    have hleft : t.mode ≠ .p0 := by
      rw [State.mode, State.core, hframe.turn, hp1]
      exact nofun
    have hsysret := (coreStep_kernel hcore hu).resolve_left hleft
    refine ⟨hframe.turn, _, hsysret, ?_⟩
    rw [hs.storageWord, ← hs.pc]
    rfl

end Sys2Proof.Machine
end

section
/-! The vector table (60_exceptions R270, R271, R290). -/

namespace Sys2Proof.Machine

open Sys2Proof

/-- A storage word is the little-endian sum of its bytes (20_memory R60). -/
theorem toNat_storageWord (s : State) (a : Nat) :
    (s.storageWord a).toNat =
      (s.storageByte a).toNat + (s.storageByte (a + 1)).toNat * 2 ^ 8 +
        (s.storageByte (a + 2)).toNat * 2 ^ 16 + (s.storageByte (a + 3)).toNat * 2 ^ 24 :=
  toNat_wordOfBytes _ _ _ _

/-- Settles O49: entry v is the word at 0x7F00 + 4 v; the vectors follow the order of the sources. -/
theorem vectorTableLayout : Obligations.VectorTableLayout := by
  refine ⟨fun s v _ => ?entry, ?exceptions, ?interrupts⟩
  case entry =>
    have haddr (k : Nat) : 0x7F00 + 4 * v + k = 0x7F00 + k + 4 * v := Nat.add_right_comm ..
    rw [State.handler, ivtBase, toNat_storageWord]
    simp only [haddr, Nat.reduceAdd]
  case exceptions => rfl
  case interrupts => rfl

end Sys2Proof.Machine
end

section
/-! User mode (60_exceptions R313). A step that begins and ends in P1 enters no handler, so it reaches memory
and the control registers only by a data access under the rights of P1, and those end at program memory. -/

namespace Sys2Proof.Machine

open Sys2Proof

/-- No byte outside program memory, no control register and no other core is changed. -/
structure UserFrame (s t : State) : Prop where
  turn : t.turn = s.turn
  storage : ∀ n, ¬(0x8000 ≤ n ∧ n ≤ 0xFFFF5FFF) → t.storageByte n = s.storageByte n
  sysDclk : t.sysDclk = s.sysDclk
  bootAddr : t.bootAddr = s.bootAddr
  coreXclk : t.coreXclk = s.coreXclk
  coreIntr : t.coreIntr = s.coreIntr
  others : ∀ c, c ≠ s.turn → t.coreAt c = s.coreAt c

theorem UserFrame.refl (s : State) : UserFrame s s :=
  ⟨rfl, fun _ _ => rfl, rfl, rfl, rfl, rfl, fun _ _ => rfl⟩

theorem UserFrame.trans {s t u : State} (h : UserFrame s t) (k : UserFrame t u) : UserFrame s u where
  turn := k.turn.trans h.turn
  storage n hn := (k.storage n hn).trans (h.storage n hn)
  sysDclk := k.sysDclk.trans h.sysDclk
  bootAddr := k.bootAddr.trans h.bootAddr
  coreXclk := k.coreXclk.trans h.coreXclk
  coreIntr := k.coreIntr.trans h.coreIntr
  others c hc := (k.others c (h.turn ▸ hc)).trans (h.others c hc)

/-- Replacing the moving core by one with the same CORE_XCLK and CORE_INTR. -/
theorem UserFrame.setCore {s : State} {k : Core} (hclk : k.coreXclk = s.coreXclk)
    (hintr : k.coreIntr = s.coreIntr) : UserFrame s (s.setCore k) where
  turn := rfl
  storage _ _ := rfl
  sysDclk := rfl
  bootAddr := rfl
  coreXclk := by rw [State.coreXclk, core_setCore, hclk]
  coreIntr := by rw [State.coreIntr, core_setCore, hintr]
  others c hc := by rw [coreAt_setCore, if_neg hc]

/-- CORE_XCLK and CORE_INTR of every core, the moving one among them. -/
theorem UserFrame.clocks {s t : State} (h : UserFrame s t) (c : CoreId) :
    (t.coreAt c).coreXclk = (s.coreAt c).coreXclk ∧ (t.coreAt c).coreIntr = (s.coreAt c).coreIntr := by
  by_cases hc : c = s.turn
  · have hclk := h.coreXclk
    have hintr := h.coreIntr
    simp only [State.coreXclk, State.coreIntr, State.core, h.turn] at hclk hintr
    exact hc ▸ ⟨hclk, hintr⟩
  · rw [h.others c hc]
    exact ⟨rfl, rfl⟩

/-- An access under the rights of P1 that passes its check covers program memory alone (20_memory R73): its
boundaries are multiples of 4, so an aligned word does not cross them. -/
theorem mem_prog_of_user {s : State} {k : AccessKind} {a : Word} {w : Width} {n : Nat}
    (h : s.dataCheck .p1 k a w = none) (hn : n ∈ bytesCovered a w) :
    0x8000 ≤ n ∧ n ≤ 0xFFFF5FFF := by
  obtain ⟨haligned, -, hprog, -⟩ := dataCheck_eq_none.mp h
  have hr := hprog rfl
  rw [region_eq, regionOf_eq_prog] at hr
  rw [mem_bytesCovered] at hn
  cases w with
  | byte => dsimp only at hn; omega
  | word =>
    have h4 := (aligned_iff a).mp (haligned rfl)
    dsimp only at hn
    omega

theorem memWrite_user {s u : State} {a v : Word} {w : Width} (h : s.memWrite .p1 a v w = .ok u) :
    UserFrame s u := by
  obtain ⟨hcheck, -, hwrite⟩ := memWrite_eq_ok.mp h
  obtain ⟨-, -, hprog, -⟩ := dataCheck_eq_none.mp hcheck
  obtain ⟨-, rfl⟩ | ⟨hcreg, -⟩ := writeThrough_cases hcheck hwrite
  · have hbytes : ∀ n, ¬(0x8000 ≤ n ∧ n ≤ 0xFFFF5FFF) →
        (s.setMem (storageWrite s.mem a v w)).storageByte n = s.storageByte n := by
      intro n hn
      by_contra hne
      exact hn (mem_prog_of_user hcheck (mem_bytesCovered_of_changed rfl hne))
    exact ⟨rfl, hbytes, rfl, rfl, rfl, rfl, fun _ _ => rfl⟩
  · exact absurd (hcreg.symm.trans (hprog rfl)) nofun

theorem AccessDone.user {i : Instr} {s u : State} (h : AccessDone s i u) (hp1 : s.mode = .p1) :
    UserFrame s u := by
  cases h with
  | none => exact .refl s
  | drawn => exact ⟨rfl, fun _ _ => rfl, rfl, rfl, rfl, rfl, fun _ _ => rfl⟩
  | stored _ _ _ _ _ hw => exact memWrite_user (hp1 ▸ hw)

theorem OwnEffect.user {i : Instr} {s u t : State} (h : OwnEffect i s u t) : UserFrame u t := by
  rw [h.only]
  exact .setCore h.coreXclk h.coreIntr

/-- A trap that leaves its core in P1 entered no handler: it is a triple fault. -/
theorem TrapFrame.user {s t : State} {info : Option Word} (h : TrapFrame s t info)
    (hp1 : t.mode = .p1) : UserFrame s t := by
  obtain ⟨hp0, -⟩ | ⟨-, -, -, hmem, hdclk, hboot, hothers, hcore⟩ := h.mode
  · exact absurd (hp1.symm.trans hp0) nofun
  · exact ⟨h.turn, fun n _ => sameStorage_of_mem hmem n, hdclk, hboot,
      (congrArg Core.coreXclk hcore :), (congrArg Core.coreIntr hcore :), hothers⟩

theorem exec_user {i : Instr} {s t : State} (h : exec i s = .next t) (hs : s.mode = .p1)
    (ht : t.mode = .p1) : UserFrame s t := by
  cases exec_cases h with
  | trapNoData _ _ htrap => exact (trapEntry_frame htrap).user ht
  | trapData _ _ _ _ _ _ htrap => exact (trapEntry_frame htrap).user ht
  | own _ hu _ ho _ _ => exact (hu.user hs).trans ho.user

theorem coreStep_user {s t : State} (h : s.coreStep = .next t) (hs : s.mode = .p1)
    (ht : t.mode = .p1) : UserFrame s t := by
  cases coreStep_cases h with
  | interrupt q _ htrap =>
    have hcleared : UserFrame s (s.setPending q false) := .setCore rfl rfl
    exact hcleared.trans ((trapEntry_frame htrap).user ht)
  | trap _ _ htrap => exact (trapEntry_frame htrap).user ht
  | ran _ _ _ _ hx => exact exec_user hx hs ht

/-- Settles O55: the choice of the moving core sets pending bits alone, and that core's step keeps the frame
of P1. -/
theorem userModeReachesOnlyProgramMemory : Obligations.UserModeReachesOnlyProgramMemory := by
  intro s t hstep hs ht
  obtain ⟨u, hsched, hu⟩ := step_cases hstep
  have huser : UserFrame u t := by
    obtain rfl | ⟨-, hcore⟩ := hu
    · exact .refl t
    · have hturn := (coreStep_othersKernel hcore).turn
      have hp1 : u.mode = .p1 := (hsched.mode u.turn).trans (hturn ▸ hs)
      exact coreStep_user hcore hp1 ht
  refine ⟨fun n hn => ?_, huser.sysDclk.trans hsched.sysDclk, huser.bootAddr.trans hsched.bootAddr,
    fun c => ?_, fun c hc => ?_⟩
  · exact (huser.storage n hn).trans (sameStorage_of_mem hsched.mem n)
  · have hclocks := huser.clocks c
    rwa [hsched.cores c] at hclocks
  · rw [huser.others c (huser.turn ▸ hc)]
    exact hsched.cores c

end Sys2Proof.Machine
end

section
/-! Running a word (30_encoding R111 to R113, R115). The policy looks at the unused bits alone and comes
first; what is left is the decoder's answer, and that does not depend on the unused bits, because the encoder
writes the word without them. -/

namespace Sys2Proof

theorem decodeWord_of_encode_eq {i : Instr} {w : Word} (hwf : i.wellFormed = true)
    (he : encode i = w) : decodeWord w = .ok i :=
  he ▸ decodeWord_encode i hwf

/-- Settles O6: each word is that of its instruction, and the decoder undoes the encoder. -/
theorem specExampleWordsDecode : Obligations.SpecExampleWordsDecode := by
  refine ⟨?_, ?_, ?_, ?_, ?_, ?_, ?_, ?_, ?_⟩ <;> exact decodeWord_of_encode_eq rfl (by decide)

/-! ## The unused bits -/

/-- No unused bit lies in the opcode (30_encoding R105). -/
theorem opcode_clearUnused (w : Word) (op : Byte) : opcode (w &&& ~~~unusedMask op) = opcode w := by
  have hmask : (~~~unusedMask op).extractLsb' 24 8 = BitVec.allOnes 8 := by
    unfold unusedMask
    split <;> decide
  rw [opcode, BitVec.extractLsb'_and, hmask, BitVec.and_allOnes]
  rfl

/-- An opcode that is no instruction has no unused bits (30_encoding R113, log 22). -/
theorem unusedMask_of_not_implemented {op : Byte} (h : op.toNat ∉ Machine.implementedOpcodes) :
    unusedMask op = 0#32 := by
  unfold unusedMask
  split
  case h_34 => rfl -- every opcode not listed
  all_goals
    rename_i hop
    exact absurd h (by simp [hop, Machine.implementedOpcodes])

/-- The words the decoder rejects: the opcode is not implemented, or it is JMPC's with a reserved code
(30_encoding R111, R112). -/
theorem decodeWord_error_cases {w : Word} {e : DecodeError} (h : decodeWord w = .error e) :
    (opcode w).toNat ∉ Machine.implementedOpcodes ∨
      ((opcode w).toNat = 0x33 ∧ condCodeAssigned (code3 w) = false) := by
  unfold decodeWord at h
  split at h
  case h_30 hop => -- JMPC, opcode 0x33
    split_ifs at h with hc
    exact .inr ⟨hop, Bool.eq_false_iff.mpr hc⟩
  case h_43 => -- every opcode not listed
    left
    simp_all [Machine.implementedOpcodes]
  all_goals cases h

/-- The decoder rejects an opcode that is not implemented, or answers with a placeholder (R111, R148). -/
theorem decodeWord_of_not_implemented {w : Word} (h : (opcode w).toNat ∉ Machine.implementedOpcodes) :
    (∃ e, decodeWord w = .error e) ∨
      ∃ i, (i = .addFp ∨ i = .subFp ∨ i = .mulFp ∨ i = .divFp) ∧ decodeWord w = .ok i := by
  unfold decodeWord
  split
  case h_5 | h_6 | h_7 | h_8 => exact .inr ⟨_, by simp, rfl⟩
  case h_43 => exact .inl ⟨_, rfl⟩ -- every opcode not listed
  all_goals
    rename_i hop
    exact absurd h (by simp [hop, Machine.implementedOpcodes])

theorem decodeWord_reservedCondition {w : Word} (hop : (opcode w).toNat = 0x33)
    (hc : condCodeAssigned (code3 w) = false) :
    decodeWord w = .error (.reservedCondition (code3 w)) := by
  unfold decodeWord
  simp [hop, hc]

/-- The decoder does not look at the unused bits (30_encoding R113). -/
theorem decodeWord_clearUnused (w : Word) :
    decodeWord (w &&& ~~~unusedMask (opcode w)) = decodeWord w := by
  by_cases himpl : (opcode w).toNat ∈ Machine.implementedOpcodes
  · cases hw : decodeWord w with
    | ok i =>
      have hfp : (opcode w).toNat ∉ [5, 6, 7, 8] := by
        simp only [Machine.implementedOpcodes, List.mem_cons, List.not_mem_nil, or_false] at himpl ⊢
        omega
      exact decodeWord_of_encode_eq (wellFormed_of_decodeWord hw) (encode_of_decodeWord hw hfp)
    | error e =>
      obtain ⟨hop, hc⟩ := (decodeWord_error_cases hw).resolve_left (not_not_intro himpl)
      have hclear : w &&& ~~~unusedMask (opcode w) =
          pack 0x33#8 (nibbleOfCode3 (code3 w)) (n2 w) (n3 w) (n4 w) (n5 w) 0 := by
        rw [pack_code3_eq (op := 0x33#8) hop]
        simp [unusedMask, hop]
      have hcode : code3 (w &&& ~~~unusedMask (opcode w)) = code3 w := by rw [hclear, code3_pack]
      have hop' : (opcode (w &&& ~~~unusedMask (opcode w))).toNat = 0x33 := by
        rwa [opcode_clearUnused]
      rw [← hw, decodeWord_reservedCondition hop hc, ← hcode]
      exact decodeWord_reservedCondition hop' (hcode ▸ hc)
  · rw [unusedMask_of_not_implemented himpl, BitVec.not_zero, BitVec.and_allOnes]

/-- The opcodes that are not implemented, by their ranges (30_encoding R111). -/
theorem not_mem_implementedOpcodes {n : Nat} (hn : n < 256) :
    n ∉ Machine.implementedOpcodes ↔
      n = 0 ∨ (5 ≤ n ∧ n ≤ 8) ∨ (9 ≤ n ∧ n ≤ 0xF) ∨ (0x1A ≤ n ∧ n ≤ 0x1F) ∨
        (0x24 ≤ n ∧ n ≤ 0x27) ∨ (0x2C ≤ n ∧ n ≤ 0x2F) ∨ (0x35 ≤ n ∧ n ≤ 0x37) ∨ n = 0x3F ∨
        0x44 ≤ n := by
  simp only [Machine.implementedOpcodes, List.mem_cons, List.not_mem_nil, or_false]
  omega

end Sys2Proof

namespace Sys2Proof.Machine

open Sys2Proof

/-- The policy lets a word run: it ignores unused bits, or there are none set (30_encoding R113). -/
def State.allowsWord (s : State) (w : Word) : Prop :=
  s.cfg.unusedBitsRefuse = false ∨ unusedBits w = 0#32

theorem runWord_of_decodeWord {s : State} {w : Word} {i : Instr} (h : s.allowsWord w)
    (hi : decodeWord w = .ok i) : s.runWord w = exec i s := by
  unfold State.runWord
  rw [if_neg (by obtain h | h := h <;> simp [h]), hi]

theorem runWord_of_error {s : State} {w : Word} {e : DecodeError} (h : s.allowsWord w)
    (he : decodeWord w = .error e) : s.runWord w = s.takeException .invalidOpcodeFault none := by
  unfold State.runWord
  rw [if_neg (by obtain h | h := h <;> simp [h]), he]

/-- The four floating-point placeholders have no other meaning than their fault (40_arithmetic R148). -/
theorem exec_placeholder {i : Instr} (h : i = .addFp ∨ i = .subFp ∨ i = .mulFp ∨ i = .divFp)
    (s : State) : exec i s = s.takeException .invalidOpcodeFault none := by
  obtain rfl | rfl | rfl | rfl := h <;> rfl

theorem runWord_of_not_implemented {s : State} {w : Word}
    (h : (opcode w).toNat ∉ implementedOpcodes) :
    s.runWord w = s.takeException .invalidOpcodeFault none := by
  have hallow : s.allowsWord w :=
    .inr (by rw [unusedBits, unusedMask_of_not_implemented h, BitVec.and_zero])
  obtain ⟨e, he⟩ | ⟨i, hfp, hi⟩ := decodeWord_of_not_implemented h
  · exact runWord_of_error hallow he
  · exact (runWord_of_decodeWord hallow hi).trans (exec_placeholder hfp s)

/-- Settles O3: such a word has no unused bits, and the decoder rejects it or answers with a placeholder. -/
theorem illegalOpcodesRaiseInvalidOpcode : Obligations.IllegalOpcodesRaiseInvalidOpcode :=
  ⟨fun _ _ h => runWord_of_not_implemented h, fun _ hn => not_mem_implementedOpcodes hn⟩

theorem exec_sysret_of_user {s : State} (h : s.mode = .p1) :
    exec .sysret s = s.takeException .invalidOpcodeFault none := if_pos h

theorem exec_hlt_of_user {s : State} (h : s.mode = .p1) :
    exec .hlt s = s.takeException .invalidOpcodeFault none := if_pos h

/-- Settles O4: a placeholder's opcode is not implemented, the decoder rejects the reserved codes, and the
privileged instructions fault in P1. -/
theorem reservedEncodingsRaiseInvalidOpcode : Obligations.ReservedEncodingsRaiseInvalidOpcode := by
  intro s w hallow hcase
  obtain ⟨hlo, hhi⟩ | ⟨hop, hcode⟩ | ⟨hp1, hop | hop⟩ := hcase
  · exact runWord_of_not_implemented
      ((not_mem_implementedOpcodes (opcode w).isLt).mpr (.inr (.inl ⟨hlo, hhi⟩)))
  · have hc : condCodeAssigned (code3 w) = false := decide_eq_false (by omega)
    exact runWord_of_error hallow (decodeWord_reservedCondition (by rw [hop]; rfl) hc)
  · have hi : decodeWord w = .ok .sysret := by simp [decodeWord, hop]
    exact (runWord_of_decodeWord hallow hi).trans (exec_sysret_of_user hp1)
  · have hi : decodeWord w = .ok .hlt := by simp [decodeWord, hop]
    exact (runWord_of_decodeWord hallow hi).trans (exec_hlt_of_user hp1)

/-- Two words that decode alike run alike where the policy ignores unused bits. -/
theorem runWord_congr {s : State} {w v : Word} (hignore : s.cfg.unusedBitsRefuse = false)
    (h : decodeWord w = decodeWord v) : s.runWord w = s.runWord v := by
  cases hv : decodeWord v with
  | ok i => rw [runWord_of_decodeWord (.inl hignore) hv, runWord_of_decodeWord (.inl hignore) (h.trans hv)]
  | error e => rw [runWord_of_error (.inl hignore) hv, runWord_of_error (.inl hignore) (h.trans hv)]

/-- Settles O5: words that differ in unused bits alone decode alike, and the refusal is the first check. -/
theorem unusedBitsFollowThePolicy : Obligations.UnusedBitsFollowThePolicy := by
  refine ⟨fun s w v hignore hsame => runWord_congr hignore ?_, fun s w hrefuse hset => ?_⟩
  · have hop : opcode v = opcode w := by
      rw [← opcode_clearUnused v (opcode w), ← hsame, opcode_clearUnused]
    rw [← decodeWord_clearUnused w, hsame, ← hop, decodeWord_clearUnused]
  · exact if_pos (by simp [hrefuse, hset])

/-- Settles O8: the core chosen by the tick or by being alone has a step, no interrupt is due, and the fetched
word is run as decoded. -/
theorem stepRunsDecodedInstruction : Obligations.StepRunsDecodedInstruction := by
  intro s u c fires rest i hchosen hrun hawake hnone hfetch hallow hi
  refine ⟨wellFormed_of_decodeWord hi, ?_⟩
  have hcan : coreHasStep u.cfg u.core = true := by
    have hr : u.core.runState = .running := hrun
    have hh : u.core.halted = false := hawake
    simp [coreHasStep, hr, hh]
  have hcore : u.coreStep = exec i u := by
    rw [State.coreStep, hnone]
    exact (fetchAndRun_of_permitted hfetch).trans (runWord_of_decodeWord hallow hi)
  rw [← hcore]
  obtain ⟨hscript, rfl⟩ | ⟨hscript, halone, rfl⟩ := hchosen
  · simp only [step, hscript]
    exact if_pos hcan
  · simp only [step, hscript, State.freeStep, halone]

end Sys2Proof.Machine
end

section
/-! The data access of an instruction (20_memory R70 to R77). DataCheck raises the alignment fault first and
then asks one question, whether the access is denied; and every accessing instruction is its one access
followed by what it does with the outcome, so a failed or refused access decides the instruction. -/

namespace Sys2Proof.Machine

open Sys2Proof

/-! ## DataCheck -/

/-- Which bytes belong to a register that only core 0 reaches (10_state R45, R46). -/
theorem core0Only_iff {cfg : Config} {n : Nat} :
    core0Only cfg n = true ↔
      (0x3F40 ≤ n ∧ n ≤ 0x3F4B) ∨ cregByteOf cfg n = some .coreFlags := by
  have hb := bases
  rw [cregByteOf_eq_coreFlags]
  unfold core0Only cregByteOf
  split_ifs <;> simp <;> omega

/-- The access is denied, alignment aside (20_memory R70, R73, R74, R75). -/
def State.accessDenied (s : State) (m : Mode) (k : AccessKind) (a : Word) (w : Width) : Prop :=
  region a = .nulltrap ∨ (m = .p1 ∧ region a ≠ .prog) ∨ (k = .store ∧ region a = .rom) ∨
    (region a = .creg ∧ s.turn ≠ 0 ∧ (bytesCovered a w).any (core0Only s.cfg) = true)

theorem dataCheck_of_misaligned {s : State} {m : Mode} {k : AccessKind} {a : Word} {w : Width}
    (h : w = .word ∧ aligned a = false) : s.dataCheck m k a w = some .loadStoreAlignmentFault :=
  if_pos h

theorem dataCheck_of_denied {s : State} {m : Mode} {k : AccessKind} {a : Word} {w : Width}
    (h4 : ¬(w = .word ∧ aligned a = false)) (h : s.accessDenied m k a w) :
    s.dataCheck m k a w = some (accessFault k) := by
  unfold State.accessDenied at h
  unfold State.dataCheck
  rw [if_neg h4]
  split_ifs with h1 h2 h3 h5
  · rfl
  · rfl
  · rw [h3.1]; rfl
  · rfl
  · tauto

theorem dataCheck_of_granted {s : State} {m : Mode} {k : AccessKind} {a : Word} {w : Width}
    (h4 : ¬(w = .word ∧ aligned a = false)) (h : ¬s.accessDenied m k a w) :
    s.dataCheck m k a w = none := by
  simp only [State.accessDenied, not_or] at h
  obtain ⟨h1, h2, h3, h5⟩ := h
  unfold State.dataCheck
  rw [if_neg h4, if_neg h1, if_neg h2, if_neg h3, if_neg h5]

/-- The denied accesses, by their addresses. -/
theorem accessDenied_iff {s : State} {m : Mode} {k : AccessKind} {a : Word} {w : Width} :
    s.accessDenied m k a w ↔
      a.toNat ≤ 0x3EFF ∨ (m = .p1 ∧ ¬(0x8000 ≤ a.toNat ∧ a.toNat ≤ 0xFFFF5FFF)) ∨
        (k = .store ∧ 0xFFFFE000 ≤ a.toNat) ∨
        (s.turn ≠ 0 ∧ 0x3F00 ≤ a.toNat ∧ a.toNat ≤ 0x7EFF ∧
          ∃ b, b ∈ bytesCovered a w ∧
            ((0x3F40 ≤ b ∧ b ≤ 0x3F4B) ∨ cregByteOf s.cfg b = some .coreFlags)) := by
  simp only [State.accessDenied, region_eq, regionOf_eq_nulltrap, regionOf_eq_prog, regionOf_eq_rom,
    Ne, regionOf_eq_creg, List.any_eq_true, core0Only_iff]
  refine or_congr (by omega) (or_congr (and_congr_right' (by omega)) (or_congr Iff.rfl ?_))
  rw [and_left_comm, and_assoc]
  exact and_congr_right' (and_congr_right' (and_congr_left' (by omega)))

/-- Settles O14: the alignment, then the denied accesses by their addresses. -/
theorem dataCheckRaisesInOrder : Obligations.DataCheckRaisesInOrder := by
  intro s m k a w
  rw [← aligned_eq_false_iff, ← accessDenied_iff]
  refine ⟨dataCheck_of_misaligned, fun h4 => ⟨fun h => ?_, dataCheck_of_granted h4⟩⟩
  rw [dataCheck_of_denied h4 h]
  cases k <;> rfl

/-! ## An instruction and its access -/

theorem exec_ldb_of_lane {d a f : XReg} {s : State} (h : laneAligned (s.x f) = true) :
    exec (.ldb d a f) s = s.finish ((s.memRead s.mode (s.byteAddress a) .byte).bind fun p =>
      .ok ((p.2.setX d (insertByte (s.x d) (s.x f).toNat (p.1.setWidth 8))).advance)) :=
  if_neg (by simp [h])

theorem exec_sysret_of_kernel {s : State} (h : s.mode = .p0) :
    exec .sysret s = s.finish (s.returnTo .p1) := if_neg (by simp [h])

theorem exec_syscall_of_usable {r : XReg} {s : State} (h : slotUsable s.cfg.syscallHandlerSlot = true) :
    exec (.syscall r) s = s.finish ((s.push (s.pc + 4#32)).bind fun t =>
      .ok ((t.setMode .p0).setPc (s.storageWord s.cfg.syscallHandlerSlot.toNat))) :=
  if_neg (by simp [h])

theorem finish_pop_bind (s : State) (f : Word × State → Res State) :
    s.finish (s.pop.bind f) = s.finish ((s.memRead s.mode (s.x xsp) .word).bind fun p =>
      f (p.1, p.2.setX xsp (s.x xsp + 4#32))) :=
  congrArg s.finish (Res.bind_assoc ..)

theorem finish_push_bind (s : State) (v : Word) (f : State → Res State) :
    s.finish ((s.push v).bind f) = s.finish ((s.memWrite s.mode (s.x xsp - 4#32) v .word).bind fun t =>
      f (t.setX xsp (s.x xsp - 4#32))) :=
  congrArg s.finish (Res.bind_assoc ..)

theorem finish_returnTo (s : State) (m : Mode) :
    s.finish (s.returnTo m) = s.finish ((s.memRead s.mode (s.x xsp) .word).bind fun p =>
      .ok (((p.2.setX xsp (s.x xsp + 4#32)).setMode m).setPc p.1)) :=
  finish_pop_bind s _

/-- A loading instruction is its read, followed by what it does with the value. -/
theorem exec_of_load {s : State} {i : Instr} {a : Word} {w : Width}
    (h : s.dataAccess i = some (.load, a, w)) :
    ∃ f : Word × State → Res State, exec i s = s.finish ((s.memRead s.mode a w).bind f) := by
  cases i
  case ldb d b f =>
    simp only [State.dataAccess] at h
    split at h
    · next hlane =>
      cases h
      exact ⟨_, exec_ldb_of_lane hlane⟩
    · cases h
  case ld d b f =>
    cases h
    exact ⟨_, rfl⟩
  case ret =>
    cases h
    exact ⟨_, finish_returnTo s s.mode⟩
  case pop d =>
    cases h
    exact ⟨_, finish_pop_bind s _⟩
  case popExt d =>
    cases h
    exact ⟨_, finish_pop_bind s _⟩
  case syscall r =>
    simp only [State.dataAccess] at h
    split at h <;> cases h
  case sysret =>
    simp only [State.dataAccess] at h
    split at h
    · next hp0 =>
      cases h
      exact ⟨_, (exec_sysret_of_kernel hp0).trans (finish_returnTo s .p1)⟩
    · cases h
  all_goals cases h

/-- A storing instruction is its write, followed by what it does then. -/
theorem exec_of_store {s : State} {i : Instr} {a : Word} {w : Width}
    (h : s.dataAccess i = some (.store, a, w)) :
    ∃ (v : Word) (f : State → Res State),
      exec i s = s.finish ((s.memWrite s.mode a v w).bind f) := by
  cases i
  case ldb d b f =>
    simp only [State.dataAccess] at h
    split at h <;> cases h
  case stb r b f =>
    cases h
    exact ⟨_, _, rfl⟩
  case st r b f =>
    cases h
    exact ⟨_, _, rfl⟩
  case callImm b n =>
    cases h
    exact ⟨_, _, finish_push_bind s _ _⟩
  case call b f =>
    cases h
    exact ⟨_, _, finish_push_bind s _ _⟩
  case push r =>
    cases h
    exact ⟨_, _, finish_push_bind s _ _⟩
  case pushExt r =>
    cases h
    exact ⟨_, _, finish_push_bind s _ _⟩
  case syscall r =>
    simp only [State.dataAccess] at h
    split at h
    · next hslot =>
      cases h
      exact ⟨_, _, (exec_syscall_of_usable hslot).trans (finish_push_bind s _ _)⟩
    · cases h
  case sysret =>
    simp only [State.dataAccess] at h
    split at h <;> cases h
  all_goals cases h

/-! ## Failed and refused accesses -/

theorem memRead_of_fault {s : State} {m : Mode} {a : Word} {w : Width} {e : Exc}
    (h : s.dataCheck m .load a w = some e) : s.memRead m a w = .raise e (some a) := by
  simp only [State.memRead, h]

theorem memWrite_of_fault {s : State} {m : Mode} {a v : Word} {w : Width} {e : Exc}
    (h : s.dataCheck m .store a w = some e) : s.memWrite m a v w = .raise e (some a) := by
  simp only [State.memWrite, h]

/-- Settles O15: the instruction is its access, and that raises the exception with its address. -/
theorem failedDataAccessTakesItsException : Obligations.FailedDataAccessTakesItsException := by
  intro s i k a w hi e he
  cases k with
  | load =>
    obtain ⟨f, hx⟩ := exec_of_load hi
    rw [hx, memRead_of_fault he]
    rfl
  | store =>
    obtain ⟨v, f, hx⟩ := exec_of_store hi
    rw [hx, memWrite_of_fault he]
    rfl

/-- A read of MMIO that passes its check (20_memory R77; log 11). -/
theorem memRead_mmio {s : State} {m : Mode} {a : Word} {w : Width}
    (hc : s.dataCheck m .load a w = none) (hr : region a = .mmio) :
    s.memRead m a w = .refuse .mmioAccess := by
  simp [State.memRead, hc, hr]

/-- A write that passes its check and that SMC_POLICY allows is decided by its region. -/
theorem memWrite_of_refused {s : State} {m : Mode} {a v : Word} {w : Width} {r : Refusal}
    (hc : s.dataCheck m .store a w = none) (hsmc : s.smcAllows a w)
    (hw : s.writeThrough a v w = .error r) : s.memWrite m a v w = .refuse r := by
  unfold State.memWrite
  rw [hc]
  simp only [hw]
  exact if_neg (by obtain h | h := hsmc <;> simp [h])

theorem writeThrough_mmio {s : State} {a v : Word} {w : Width} (hr : region a = .mmio) :
    s.writeThrough a v w = .error .mmioAccess := by
  simp only [State.writeThrough, hr]

theorem writeThrough_creg {s : State} {a v : Word} {w : Width} (hr : region a = .creg) :
    s.writeThrough a v w = s.cregWriteAll a v w := by
  simp only [State.writeThrough, hr]

theorem cregWrite_error {s : State} {n : Nat} {v : Byte} {r : Refusal}
    (h : s.cregWrite n v = .error r) : r = .reservedControlByte := by
  unfold State.cregWrite at h
  split at h <;> cases h
  rfl

theorem cregWriteAll_error {s : State} {a v : Word} {w : Width} {r : Refusal}
    (h : s.cregWriteAll a v w = .error r) : r = .reservedControlByte := by
  cases w with
  | byte => exact cregWrite_error h
  | word =>
    simp only [State.cregWriteAll] at h
    split at h
    · next h0 =>
      cases h
      exact cregWrite_error h0
    · split at h
      · next h1 =>
        cases h
        exact cregWrite_error h1
      · split at h
        · next h2 =>
          cases h
          exact cregWrite_error h2
        · exact cregWrite_error h

/-- Every byte of a write of the control registers that is not refused is defined. -/
theorem cregWriteAll_defined {s t : State} {a v : Word} {w : Width} {n : Nat}
    (h : s.cregWriteAll a v w = .ok t) (hn : n ∈ bytesCovered a w) : cregByteOf s.cfg n ≠ none := by
  rw [mem_bytesCovered] at hn
  cases w with
  | byte =>
    obtain ⟨b, hb, -⟩ := cregWrite_eq_ok h
    obtain rfl : n = a.toNat := by dsimp only at hn; omega
    simp [hb]
  | word =>
    dsimp only at hn
    obtain ⟨j, rfl⟩ := Nat.exists_eq_add_of_le hn.1
    exact cregWriteAll_word_defined h j (by omega)

/-- A write that covers a reserved or unlisted byte is refused as a whole (10_state R50; log 12). -/
theorem writeThrough_reserved {s : State} {a v : Word} {w : Width}
    (h : s.coversUnspecified a w = true) : s.writeThrough a v w = .error .reservedControlByte := by
  simp only [State.coversUnspecified, Bool.and_eq_true, beq_iff_eq, List.any_eq_true,
    Option.isNone_iff_eq_none] at h
  obtain ⟨hr, n, hn, hnone⟩ := h
  rw [writeThrough_creg hr]
  cases hw : s.cregWriteAll a v w with
  | ok t => exact absurd hnone (cregWriteAll_defined hw hn)
  | error r => rw [cregWriteAll_error hw]

/-- A store to one of the words already fetched, under SMC_POLICY = refuse (20_memory R87; log 21). -/
theorem memWrite_selfModifying {s : State} {m : Mode} {a v : Word} {w : Width}
    (hc : s.dataCheck m .store a w = none) (hrefuse : s.cfg.smcRefuse = true)
    (hreach : s.reachesPrefetch a w = true) : s.memWrite m a v w = .refuse .selfModifyingStore := by
  simp [State.memWrite, hc, hrefuse, hreach]

theorem reachesPrefetch_of_mem {s : State} {a : Word} {w : Width} {j : Nat} (hlo : 4 ≤ j)
    (hhi : j ≤ 15) (h : (s.pc + BitVec.ofNat 32 j).toNat ∈ bytesCovered a w) :
    s.reachesPrefetch a w = true := by
  have hdist : (BitVec.ofNat 32 (s.pc + BitVec.ofNat 32 j).toNat - s.pc).toNat = j := by
    rw [BitVec.ofNat_toNat, BitVec.setWidth_eq, add_sub_cancel_left, BitVec.toNat_ofNat]
    omega
  refine List.any_eq_true.mpr ⟨_, h, ?_⟩
  rw [hdist]
  simp [hlo, hhi]

/-- Settles O16: the instruction is its access, which the region or SMC_POLICY refuses. -/
theorem accessesTheSpecRefuses : Obligations.AccessesTheSpecRefuses := by
  intro s i k a w hi hc
  cases k with
  | load =>
    obtain ⟨f, hx⟩ := exec_of_load hi
    refine ⟨fun _ hr => ?_, nofun, nofun⟩
    rw [hx, memRead_mmio hc hr]
    rfl
  | store =>
    obtain ⟨v, f, hx⟩ := exec_of_store hi
    refine ⟨fun hsmc hr => ?_, fun _ hsmc hcov => ?_, fun j _ hrefuse hlo hhi hj => ?_⟩
    · rw [hx, memWrite_of_refused hc (hsmc rfl) (writeThrough_mmio hr)]
      rfl
    · rw [hx, memWrite_of_refused hc hsmc (writeThrough_reserved hcov)]
      rfl
    · rw [hx, memWrite_selfModifying hc hrefuse (reachesPrefetch_of_mem hlo hhi hj)]
      rfl

end Sys2Proof.Machine
end

section
/-! Shifts (43_shift R191 to R195). The arithmetic shift right of 43_shift is that of bit vectors, by at most
31 places, so its bits are known. -/

namespace Sys2Proof.Machine

open Sys2Proof

theorem toNat_lshValue (cfg : Config) (v : Word) (n : Nat) :
    (lshValue cfg v n).toNat =
      if 32 ≤ shiftAmount cfg n then 0 else v.toNat * 2 ^ shiftAmount cfg n % 2 ^ 32 := by
  unfold lshValue
  dsimp only
  split_ifs
  · rfl
  · rw [BitVec.toNat_shiftLeft, Nat.shiftLeft_eq]

theorem toNat_rshValue_of_logical {cfg : Config} (h : cfg.rshArith = false) (v : Word) (n : Nat) :
    (rshValue cfg v n).toNat =
      if 32 ≤ shiftAmount cfg n then 0 else v.toNat / 2 ^ shiftAmount cfg n := by
  unfold rshValue
  dsimp only
  rw [if_neg (by simp [h])]
  split_ifs
  · rfl
  · rw [BitVec.toNat_ushiftRight, Nat.shiftRight_eq_div_pow]

/-- The arithmetic shift is that of bit vectors, by at most 31 places (43_shift R195). -/
theorem rshValue_of_arith {cfg : Config} (h : cfg.rshArith = true) (v : Word) (n : Nat) :
    rshValue cfg v n = v.sshiftRight (if 32 ≤ shiftAmount cfg n then 31 else shiftAmount cfg n) := by
  unfold rshValue
  dsimp only
  rw [if_pos h, BitVec.sshiftRight, Int.shiftRight_eq_div_pow]
  norm_cast

/-- The bits an arithmetic shift right leaves: those of the operand, and its sign above them. -/
theorem getLsbD_rshValue_of_arith {cfg : Config} (h : cfg.rshArith = true) (v : Word) {n j : Nat}
    (hj : j < 32) :
    (rshValue cfg v n).getLsbD j =
      if j + shiftAmount cfg n < 32 then v.getLsbD (j + shiftAmount cfg n) else v.getLsbD 31 := by
  rw [rshValue_of_arith h, BitVec.getLsbD_sshiftRight, BitVec.msb_eq_getLsbD_last]
  rw [decide_eq_false (by omega : ¬32 ≤ j), Bool.not_false, Bool.true_and]
  generalize shiftAmount cfg n = k
  by_cases hlarge : 32 ≤ k
  · rw [if_pos hlarge, if_neg (by omega : ¬j + k < 32)]
    split_ifs
    · rw [show 31 + j = 31 by omega]
    · rfl
  · rw [if_neg hlarge, Nat.add_comm]

/-- A bit that is shifted down to a place of the word, under every setting. -/
theorem getLsbD_rshValue_of_lt (cfg : Config) (v : Word) {n j : Nat} (h : j + n < 32) :
    (rshValue cfg v n).getLsbD j = v.getLsbD (j + n) := by
  have hk : shiftAmount cfg n = n := by
    unfold shiftAmount
    split
    · exact Nat.mod_eq_of_lt (by omega)
    · rfl
  cases harith : cfg.rshArith with
  | true => rw [getLsbD_rshValue_of_arith harith v (by omega), hk, if_pos h]
  | false =>
    have hnat := toNat_rshValue_of_logical harith v n
    rw [hk, if_neg (by omega), ← Nat.shiftRight_eq_div_pow] at hnat
    rw [BitVec.getLsbD, hnat, Nat.testBit_shiftRight, Nat.add_comm, BitVec.testBit_toNat]

/-- Settles O33: by number, and for the arithmetic shift also bit by bit. -/
theorem shiftFunctions : Obligations.ShiftFunctions := by
  intro cfg v n k hk
  obtain rfl : k = shiftAmount cfg n := hk
  refine ⟨toNat_lshValue cfg v n, fun hlog => toNat_rshValue_of_logical hlog v n, fun harith =>
    ⟨?_, fun j hj => getLsbD_rshValue_of_arith harith v hj⟩⟩
  rw [rshValue_of_arith harith, BitVec.toInt_sshiftRight, Int.shiftRight_eq_div_pow]
  norm_cast

/-- Settles O34: each shift writes its value to its operand register. -/
theorem shiftResult : Obligations.ShiftResult := fun p h i s =>
  ⟨writeX_completes s p (lshValue s.cfg (s.x p) (s.x h).toNat),
    writeX_completes s p (lshValue s.cfg (s.x p) i.toNat),
    writeX_completes s p (rshValue s.cfg (s.x p) (s.x h).toNat),
    writeX_completes s p (rshValue s.cfg (s.x p) i.toNat)⟩

end Sys2Proof.Machine
end

section
/-! The accessing instructions from what their access leaves (42_load_store, 45_call_stack, 46_system R241,
R243). A read or a write keeps PC, so each form ends at an address that is known from the start. -/

namespace Sys2Proof.Machine

open Sys2Proof

theorem memRead_pc {s u : State} {m : Mode} {a v : Word} {w : Width}
    (h : s.memRead m a w = .ok (v, u)) : u.pc = s.pc := by
  obtain ⟨-, -, heq⟩ := memRead_eq_ok.mp h
  obtain ⟨-, rfl⟩ := Prod.mk.inj heq
  obtain hu | hu := afterRead_cases s a w <;> rw [hu]
  rfl

theorem memWrite_pc {s u : State} {m : Mode} {a v : Word} {w : Width}
    (h : s.memWrite m a v w = .ok u) : u.pc = s.pc :=
  (congrArg Core.pc (memWrite_core h) :)

/-- Going on to the next word, with PC known from an earlier state. -/
theorem advance_of_pc {t : State} {p : Word} (h : t.pc = p) : t.advance = t.setPc (p + 4#32) := by
  rw [State.advance, h]

section

variable {s u : State} {v : Word}

theorem exec_stb_of_memWrite {r a f : XReg}
    (h : s.memWrite s.mode (s.byteAddress a) (rshValue s.cfg (s.x r) (s.x f).toNat) .byte = .ok u) :
    exec (.stb r a f) s = .next (u.setPc (s.pc + 4#32)) := by
  show execStb r a f s = _
  rw [execStb, h, ← advance_of_pc (memWrite_pc h)]
  rfl

theorem exec_pop_of_memRead (d : XReg) (h : s.memRead s.mode (s.x xsp) .word = .ok (v, u)) :
    exec (.pop d) s = .next (((u.setX xsp (s.x xsp + 4#32)).setX d v).setPc (s.pc + 4#32)) := by
  show s.finish (s.pop.bind _) = _
  rw [finish_pop_bind, h, ← advance_of_pc (by simpa using memRead_pc h)]
  rfl

theorem exec_popExt_of_memRead (k : EReg) (h : s.memRead s.mode (s.x xsp) .word = .ok (v, u)) :
    exec (.popExt k) s = .next (((u.setX xsp (s.x xsp + 4#32)).setE k v).setPc (s.pc + 4#32)) := by
  show s.finish (s.pop.bind _) = _
  rw [finish_pop_bind, h, ← advance_of_pc (by simpa using memRead_pc h)]
  rfl

theorem finish_returnTo_of_memRead (m : Mode) (h : s.memRead s.mode (s.x xsp) .word = .ok (v, u)) :
    s.finish (s.returnTo m) = .next (((u.setX xsp (s.x xsp + 4#32)).setMode m).setPc v) := by
  rw [finish_returnTo, h]
  rfl

theorem exec_push_of_memWrite {r : XReg}
    (h : s.memWrite s.mode (s.x xsp - 4#32) (s.x r) .word = .ok u) :
    exec (.push r) s = .next ((u.setX xsp (s.x xsp - 4#32)).setPc (s.pc + 4#32)) := by
  show s.finish ((s.push _).bind _) = _
  rw [finish_push_bind, h, ← advance_of_pc (by simpa using memWrite_pc h)]
  rfl

theorem exec_pushExt_of_memWrite {k : EReg}
    (h : s.memWrite s.mode (s.x xsp - 4#32) (s.e k) .word = .ok u) :
    exec (.pushExt k) s = .next ((u.setX xsp (s.x xsp - 4#32)).setPc (s.pc + 4#32)) := by
  show s.finish ((s.push _).bind _) = _
  rw [finish_push_bind, h, ← advance_of_pc (by simpa using memWrite_pc h)]
  rfl

theorem callTo_of_memWrite (target : Word)
    (h : s.memWrite s.mode (s.x xsp - 4#32) (s.pc + 4#32) .word = .ok u) :
    s.callTo target = .next ((u.setX xsp (s.x xsp - 4#32)).setPc target) := by
  rw [State.callTo, finish_push_bind, h]
  rfl

theorem exec_syscall_of_memWrite {r : XReg} (hslot : slotUsable s.cfg.syscallHandlerSlot = true)
    (h : s.memWrite s.mode (s.x xsp - 4#32) (s.pc + 4#32) .word = .ok u) :
    exec (.syscall r) s = .next (((u.setX xsp (s.x xsp - 4#32)).setMode .p0).setPc
      (s.storageWord s.cfg.syscallHandlerSlot.toNat)) := by
  rw [exec_syscall_of_usable hslot, finish_push_bind, h]
  rfl

end

/-- The mode after a read, written again, changes nothing: RET leaves it as it is (45_call_stack R225). -/
theorem setMode_of_memRead {s u : State} {a v b : Word} {w : Width} (i : XReg)
    (h : s.memRead s.mode a w = .ok (v, u)) : (u.setX i b).setMode s.mode = u.setX i b := by
  have hmode : (u.setX i b).mode = s.mode := by
    obtain ⟨-, -, heq⟩ := memRead_eq_ok.mp h
    obtain ⟨-, rfl⟩ := Prod.mk.inj heq
    obtain hu | hu := afterRead_cases s a w <;> rw [hu] <;> simp
  rw [← hmode]
  exact setCore_core _

theorem exec_ret_of_memRead {s u : State} {v : Word}
    (h : s.memRead s.mode (s.x xsp) .word = .ok (v, u)) :
    exec .ret s = .next ((u.setX xsp (s.x xsp + 4#32)).setPc v) := by
  rw [← setMode_of_memRead xsp h]
  exact finish_returnTo_of_memRead s.mode h

theorem exec_sysret_of_memRead {s u : State} {v : Word} (hp0 : s.mode = .p0)
    (h : s.memRead s.mode (s.x xsp) .word = .ok (v, u)) :
    exec .sysret s = .next (((u.setX xsp (s.x xsp + 4#32)).setMode .p1).setPc v) :=
  (exec_sysret_of_kernel hp0).trans (finish_returnTo_of_memRead .p1 h)

/-- Settles O31: each form ends with its read's value in its destination. -/
theorem loadingFormsFollowTheirRead : Obligations.LoadingFormsFollowTheirRead := by
  intro s u v d a f k
  refine ⟨fun hlane h => ?ldb, fun h => ?ld,
    fun h => ⟨exec_pop_of_memRead d h, exec_popExt_of_memRead k h, exec_ret_of_memRead h,
      fun hp0 => exec_sysret_of_memRead hp0 h⟩⟩
  case ldb => rw [exec_ldb_of_memRead hlane h, advance_of_pc (by simpa using memRead_pc h)]
  case ld => rw [exec_ld_of_memRead h, advance_of_pc (by simpa using memRead_pc h)]

/-- Settles O32: each form ends after its write at the address it goes to. -/
theorem storingFormsFollowTheirWrite : Obligations.StoringFormsFollowTheirWrite := by
  intro s u r a f k i
  refine ⟨exec_stb_of_memWrite, fun h => ?st, exec_push_of_memWrite, exec_pushExt_of_memWrite,
    fun h => ⟨callTo_of_memWrite _ h, callTo_of_memWrite _ h, fun hslot =>
      exec_syscall_of_memWrite hslot h⟩⟩
  case st => rw [exec_st_of_memWrite h, advance_of_pc (memWrite_pc h)]

/-- The low byte of a word. -/
theorem wordByte_zero (v : Word) : wordByte v 0 = v.setWidth 8 :=
  BitVec.eq_of_toNat_eq (by rw [toNat_wordByte, BitVec.toNat_setWidth]; simp)

/-- Settles O28: the byte written to storage, and its bits where the shift leaves bits of the source. -/
theorem stbStoresOneByte : Obligations.StbStoresOneByte := by
  intro r a f s hreach hsmc
  obtain ⟨hcheck, hcreg, hmmio⟩ := hreach.check (w := .byte) nofun
  have hstored : storesByte (s.byteAddress a) ((rshValue s.cfg (s.x r) (s.x f).toNat).setWidth 8) s
      (s.setMem (storageWrite s.mem (s.byteAddress a)
        (rshValue s.cfg (s.x r) (s.x f).toNat) .byte)) := by
    rw [← wordByte_zero]
    exact storesByte_of_mem rfl
  refine ⟨_, exec_stb_of_memWrite (memWrite_storage hcheck hcreg hmmio hsmc), by simp,
    ((changesRegisters.refl _ _ s).setMem _).setPc _, hstored, fun hf n hn => ?_⟩
  refine (congrArg (·.getLsbD n) hstored.1).trans ?_
  rw [BitVec.getLsbD_setWidth, decide_eq_true hn, Bool.true_and]
  exact getLsbD_rshValue_of_lt _ _ (by omega)

end Sys2Proof.Machine
end

section
/-! The control registers (10_state R41 to R51). A byte of the range is read and written through the register
byte that its address names, so each statement about an address is the register byte there and what that byte
reads or writes. -/

namespace Sys2Proof.Machine

open Sys2Proof

/-! ## Reads -/

theorem dataByte_creg {s : State} {n : Nat} {b : CregByte} (hlo : 0x3F00 ≤ n) (hhi : n < 0x7F00)
    (h : cregByteOf s.cfg n = some b) : s.dataByte n = s.readCregByte b := by
  rw [State.dataByte, if_pos ((regionOf_eq_creg n).mpr ⟨hlo, hhi⟩), State.cregRead, h]

theorem dataByte_unspecified {s : State} {n : Nat} (hlo : 0x3F00 ≤ n) (hhi : n < 0x7F00)
    (h : cregByteOf s.cfg n = none) : s.dataByte n = Config.drawByte s.draws n := by
  rw [State.dataByte, if_pos ((regionOf_eq_creg n).mpr ⟨hlo, hhi⟩), State.cregRead, h]

/-- CORE_FLAGS under the default layout: bit c says that core c is on, bit 0 always, and bits 4 to 7 are 0. -/
theorem getLsbD_coreFlags_default {s : State} (hlayout : s.cfg.coreFlagsRead =
    #v[.const true, .bit 1, .bit 2, .bit 3, .const false, .const false, .const false, .const false]) :
    (∀ c : CoreId, s.coreFlags.getLsbD c.val = true ↔ c = 0 ∨ (s.coreAt c).runState ≠ .off) ∧
      ∀ n, 4 ≤ n → s.coreFlags.getLsbD n = false := by
  have hbit (k : Fin 8) := getLsbD_coreFlags s k
  have hon (c : CoreId) := getLsbD_poweredCores s c
  rw [hlayout] at hbit
  have hcore (c : CoreId) (hc : c ≠ 0) :
      s.coreFlags.getLsbD c.val = decide ((s.coreAt c).runState ≠ .off) := by
    match c with
    | 0 => exact absurd rfl hc
    | 1 => exact (hbit 1).trans (hon 1)
    | 2 => exact (hbit 2).trans (hon 2)
    | 3 => exact (hbit 3).trans (hon 3)
  refine ⟨fun c => ?_, fun n hn => ?_⟩
  · by_cases hc : c = 0
    · subst hc
      exact iff_of_true (hbit 0) (.inl rfl)
    · rw [hcore c hc, decide_eq_true_iff, or_iff_right hc]
  · by_cases h8 : n < 8
    · obtain rfl | rfl | rfl | rfl : n = 4 ∨ n = 5 ∨ n = 6 ∨ n = 7 := by omega
      exacts [hbit 4, hbit 5, hbit 6, hbit 7]
    · exact BitVec.getLsbD_of_ge _ _ (by omega)

/-- A control-register read that passes its check has no effect but the draw of an unspecified byte. -/
theorem memRead_creg {s : State} {m : Mode} {a : Word} {w : Width}
    (hc : s.dataCheck m .load a w = none) (hr : region a = .creg) :
    ∃ t, s.memRead m a w = .ok (s.dataValue a w, t) ∧
      (t = s ∨ (s.coversUnspecified a w = true ∧ t = { s with draws := s.draws + 1 })) := by
  refine ⟨s.afterRead a w, memRead_eq_ok.mpr ⟨hc, by simp [hr], rfl⟩, ?_⟩
  unfold State.afterRead
  split
  · next hcov => exact .inr ⟨hcov, rfl⟩
  · exact .inl rfl

/-- Settles O18: the register byte at each address, and a read's effect. -/
theorem controlRegisterReads : Obligations.ControlRegisterReads := by
  intro s hplace
  have hflags : s.dataByte 0x3F4C = s.coreFlags :=
    dataByte_creg (by decide) (by decide) (cregByteOf_coreFlags s.cfg hplace)
  rw [hflags]
  refine ⟨dataByte_creg (by decide) (by decide) (cregByteOf_sysDclk s.cfg),
    dataByte_creg (by decide) (by decide) (cregByteOf_coreXclk s.cfg),
    fun k hk => dataByte_creg (by omega) (by omega) (cregByteOf_coreIntr s.cfg hk),
    fun n k hk => dataByte_creg (by omega) (by omega) (cregByteOf_bootAddr s.cfg n hk),
    getLsbD_coreFlags s, fun c => by rw [getLsbD_poweredCores, decide_eq_true_iff],
    getLsbD_coreFlags_default,
    fun n hn => dataByte_unspecified (by omega) (by omega)
      (cregByteOf_reserved s.cfg hplace (by omega)),
    fun a => ⟨?_, toNat_wordOfBytes _ _ _ _⟩, fun m a w => memRead_creg⟩
  exact BitVec.toNat_setWidth_of_le (by decide)

/-! ## Writes -/

theorem cregWrite_of_cregByteOf {s : State} {n : Nat} {b : CregByte} (h : cregByteOf s.cfg n = some b)
    (v : Byte) : s.cregWrite n v = .ok (s.writeCregByte b v) := by
  simp only [State.cregWrite, h]

theorem writeThrough_creg_byte {s : State} {a v : Word} {b : CregByte} (hr : region a = .creg)
    (h : cregByteOf s.cfg a.toNat = some b) :
    s.writeThrough a v .byte = .ok (s.writeCregByte b (v.setWidth 8)) := by
  rw [writeThrough_creg hr, ← wordByte_zero]
  exact cregWrite_of_cregByteOf h _

/-- A word write of four defined bytes writes them in turn, lowest first. -/
theorem writeThrough_creg_word {s : State} {a v : Word} {b0 b1 b2 b3 : CregByte}
    (hr : region a = .creg) (h0 : cregByteOf s.cfg a.toNat = some b0)
    (h1 : cregByteOf s.cfg (a.toNat + 1) = some b1) (h2 : cregByteOf s.cfg (a.toNat + 2) = some b2)
    (h3 : cregByteOf s.cfg (a.toNat + 3) = some b3) :
    s.writeThrough a v .word = .ok ((((s.writeCregByte b0 (wordByte v 0)).writeCregByte b1
      (wordByte v 1)).writeCregByte b2 (wordByte v 2)).writeCregByte b3 (wordByte v 3)) := by
  rw [writeThrough_creg hr]
  rw [State.cregWriteAll, cregWrite_of_cregByteOf h0]
  dsimp only
  rw [cregWrite_of_cregByteOf (by rwa [cfg_writeCregByte])]
  dsimp only
  rw [cregWrite_of_cregByteOf (by rwa [cfg_writeCregByte, cfg_writeCregByte])]
  exact cregWrite_of_cregByteOf (by rwa [cfg_writeCregByte, cfg_writeCregByte, cfg_writeCregByte]) _

/-- CORE_INTR after a word write at 0x3F00: its low half is the word's high half (10_state R43, R50). -/
def intrWithLowHalf (old v : Word) : Word :=
  insertByte (insertByte old (8 * 0) (wordByte v 2)) (8 * 1) (wordByte v 3)

theorem getLsbD_intrWithLowHalf (old v : Word) {n : Nat} (hn : n < 32) :
    (intrWithLowHalf old v).getLsbD n =
      if n < 16 then v.getLsbD (n + 16) else old.getLsbD n := by
  rw [intrWithLowHalf, getLsbD_insertByte _ _ _ _ hn, getLsbD_insertByte _ _ _ _ hn,
    getLsbD_wordByte, getLsbD_wordByte]
  by_cases h8 : n < 8
  · rw [if_neg (by omega), if_pos (by omega), if_pos (by omega), decide_eq_true (by omega),
      Bool.true_and, show 8 * 2 + (n - 8 * 0) = n + 16 by omega]
  · by_cases h16 : n < 16
    · rw [if_pos (by omega), if_pos h16, decide_eq_true (by omega), Bool.true_and,
        show 8 * 3 + (n - 8 * 1) = n + 16 by omega]
    · rw [if_neg (by omega), if_neg (by omega), if_neg h16]

theorem setCoreIntr_setCoreIntr (s : State) (v w : Word) :
    (s.setCoreIntr v).setCoreIntr w = s.setCoreIntr w := by
  simp [State.setCoreIntr]

theorem setBootAddr_setBootAddr (s : State) (n : Fin 3) (v w : Word) :
    (s.setBootAddr n v).setBootAddr n w = s.setBootAddr n w := by
  simp [State.setBootAddr]

/-- The word at 0x3F00 is SYS_DCLK, CORE_XCLK and the low half of CORE_INTR. -/
theorem writeThrough_clocks (s : State) (v : Word) :
    s.writeThrough 0x3F00#32 v .word =
      .ok (((s.setSysDclk (wordByte v 0)).setCoreXclk (wordByte v 1)).setCoreIntr
        (intrWithLowHalf s.coreIntr v)) := by
  rw [writeThrough_creg_word rfl (cregByteOf_sysDclk s.cfg) (cregByteOf_coreXclk s.cfg)
    (cregByteOf_coreIntr s.cfg (k := 0) (by decide)) (cregByteOf_coreIntr s.cfg (k := 1) (by decide))]
  simp only [State.writeCregByte, setCoreIntr_setCoreIntr, coreIntr_setCoreIntr,
    coreIntr_setCoreXclk, coreIntr_setSysDclk, intrWithLowHalf]

theorem toNat_bootAddress (n : Fin 3) :
    (BitVec.ofNat 32 (0x3F40 + 4 * n.val)).toNat = 0x3F40 + 4 * n.val := by
  rw [BitVec.toNat_ofNat]
  omega

/-- The word of a boot address. -/
theorem writeThrough_bootAddr (s : State) (n : Fin 3) (v : Word) :
    s.writeThrough (BitVec.ofNat 32 (0x3F40 + 4 * n.val)) v .word = .ok (s.setBootAddr n v) := by
  have hbyte {k : Nat} (hk : k < 4) : cregByteOf s.cfg
      ((BitVec.ofNat 32 (0x3F40 + 4 * n.val)).toNat + k) = some (.bootAddr n k) := by
    rw [toNat_bootAddress, cregByteOf_bootAddr s.cfg n hk]
  have hr : region (BitVec.ofNat 32 (0x3F40 + 4 * n.val)) = .creg := by
    rw [region_eq, toNat_bootAddress, regionOf_eq_creg]
    omega
  rw [writeThrough_creg_word hr (hbyte (k := 0) (by decide)) (hbyte (by decide)) (hbyte (by decide))
    (hbyte (by decide))]
  simp only [State.writeCregByte, setBootAddr_setBootAddr, bootAddr_setBootAddr, if_true,
    insertByte_four]

/-- A kernel write to a register that every core reaches, or of core 0, passes its check. -/
theorem dataCheck_kernel_creg {s : State} {k : AccessKind} {a : Word} {w : Width}
    (h4 : w = .word → a.toNat % 4 = 0) (hr : region a = .creg)
    (h0 : s.turn = 0 ∨ ∀ b ∈ bytesCovered a w, core0Only s.cfg b = false) :
    s.dataCheck .p0 k a w = none := by
  rw [dataCheck_eq_none, aligned_iff, hr]
  exact ⟨h4, nofun, nofun, nofun, fun _ hturn => h0.resolve_left hturn⟩

theorem dataCheck_clocks (s : State) (k : AccessKind) : s.dataCheck .p0 k 0x3F00#32 .word = none := by
  refine dataCheck_kernel_creg (by decide) rfl (.inr fun b hb => ?_)
  simp only [bytesCovered, List.mem_cons, List.not_mem_nil, or_false] at hb
  obtain rfl | rfl | rfl | rfl := hb
  · simp [core0Only, cregByteOf_sysDclk]
  · simp [core0Only, cregByteOf_coreXclk]
  · simp [core0Only, cregByteOf_coreIntr s.cfg (k := 0)]
  · simp [core0Only, cregByteOf_coreIntr s.cfg (k := 1)]

theorem dataCheck_bootAddr {s : State} (k : AccessKind) (n : Fin 3) (h : s.turn = 0) :
    s.dataCheck .p0 k (BitVec.ofNat 32 (0x3F40 + 4 * n.val)) .word = none := by
  refine dataCheck_kernel_creg (fun _ => ?_) ?_ (.inl h)
  · rw [toNat_bootAddress]; omega
  · rw [region_eq, toNat_bootAddress, regionOf_eq_creg]; omega

/-- STB in P0 to a register byte that the core reaches writes that byte (42_load_store R182). -/
theorem exec_stb_creg {s : State} {r a f : XReg} {b : CregByte} (hp0 : s.mode = .p0)
    (hsmc : s.smcAllows (s.byteAddress a) .byte) (hr : region (s.byteAddress a) = .creg)
    (hb : cregByteOf s.cfg (s.byteAddress a).toNat = some b)
    (h0 : s.turn = 0 ∨ (b ≠ .coreFlags ∧ ∀ n k, b ≠ .bootAddr n k)) :
    exec (.stb r a f) s = .next
      (s.writeCregByte b ((rshValue s.cfg (s.x r) (s.x f).toNat).setWidth 8)).advance := by
  have hcheck : s.dataCheck s.mode .store (s.byteAddress a) .byte = none := by
    rw [hp0]
    refine dataCheck_kernel_creg nofun hr (h0.imp_right fun ⟨hflags, hboot⟩ n hn => ?_)
    obtain rfl : n = (s.byteAddress a).toNat := by simpa [bytesCovered] using hn
    rw [core0Only, hb]
    cases b with
    | bootAddr n k => exact absurd rfl (hboot n k)
    | coreFlags => exact absurd rfl hflags
    | sysDclk | coreXclk | coreIntr => rfl
  have hwrite := memWrite_eq_ok.mpr ⟨hcheck, hsmc, writeThrough_creg_byte
    (v := rshValue s.cfg (s.x r) (s.x f).toNat) hr hb⟩
  rw [exec_stb_of_memWrite hwrite, advance_of_pc (memWrite_pc hwrite)]

/-- Settles O19: the register bytes that each write covers. -/
theorem controlRegisterWrites : Obligations.ControlRegisterWrites := by
  refine ⟨fun s n v a hturn ha hsmc => ?boot, fun s v hsmc => ?clocks,
    fun s r a f hp0 hsmc => ⟨fun ha => ?dclk, fun ha => ?xclk, fun k hk ha => ?intr,
      fun n k hturn hk ha => ?bootByte⟩⟩
  case boot =>
    subst ha
    exact memWrite_eq_ok.mpr ⟨dataCheck_bootAddr .store n hturn, hsmc, writeThrough_bootAddr s n v⟩
  case clocks =>
    exact ⟨_, memWrite_eq_ok.mpr ⟨dataCheck_clocks s .store, hsmc, writeThrough_clocks s v⟩,
      fun n hn => getLsbD_intrWithLowHalf _ _ hn⟩
  case dclk =>
    exact exec_stb_creg (b := .sysDclk) hp0 hsmc (by rw [ha]; rfl) (ha ▸ cregByteOf_sysDclk s.cfg)
      (.inr ⟨nofun, nofun⟩)
  case xclk =>
    exact exec_stb_creg (b := .coreXclk) hp0 hsmc (by rw [ha]; rfl) (ha ▸ cregByteOf_coreXclk s.cfg)
      (.inr ⟨nofun, nofun⟩)
  case intr =>
    have hnat : (s.byteAddress a).toNat = 0x3F02 + k := by rw [ha, BitVec.toNat_ofNat]; omega
    have hr : region (s.byteAddress a) = .creg := by
      rw [region_eq, hnat, regionOf_eq_creg]; omega
    exact ⟨_, exec_stb_creg (b := .coreIntr k) hp0 hsmc hr (hnat ▸ cregByteOf_coreIntr s.cfg hk)
      (.inr ⟨nofun, nofun⟩),
      fun j hj => wordByte_insertByte _ _ hk hj⟩
  case bootByte =>
    have hnat : (s.byteAddress a).toNat = 0x3F40 + 4 * n.val + k := by
      rw [ha, BitVec.toNat_ofNat]; omega
    have hr : region (s.byteAddress a) = .creg := by
      rw [region_eq, hnat, regionOf_eq_creg]; omega
    exact ⟨_, exec_stb_creg hp0 hsmc hr (hnat ▸ cregByteOf_bootAddr s.cfg n hk) (.inl hturn),
      fun j hj => wordByte_insertByte _ _ hk hj⟩

/-! ## The power of cores 1 to 3 -/

/-- What a CORE_FLAGS write does to core n + 1: it starts an Off core that is asked on, switches off a Running
one that is asked off, and leaves any other as it is (60_exceptions R316; log 18). -/
theorem coreAt_writeCoreFlags_power (s : State) (v : Byte) (n : Fin 3) :
    (evalBits v s.cfg.coreFlagsPower[n] = true ∧ (s.coreAt n.succ).runState = .off ∧
        ∃ xclk, (s.writeCoreFlags v).coreAt n.succ = Core.poweredOn s.bootAddr[n] xclk) ∨
      (evalBits v s.cfg.coreFlagsPower[n] = false ∧ (s.coreAt n.succ).runState = .running ∧
        (s.writeCoreFlags v).coreAt n.succ = Core.off) ∨
      (((s.coreAt n.succ).runState = .off → evalBits v s.cfg.coreFlagsPower[n] = false) ∧
        ((s.coreAt n.succ).runState = .running → evalBits v s.cfg.coreFlagsPower[n] = true) ∧
        (s.writeCoreFlags v).coreAt n.succ = s.coreAt n.succ) := by
  obtain ⟨u, hcore, hboot, hwritten⟩ := coreAt_writeCoreFlags s v n
  rw [hwritten, ← hcore]
  obtain ⟨hoff, hon, heq⟩ | ⟨hrun, hoff, heq⟩ | ⟨hoff, hrun, heq⟩ :=
    setPower_cases u n (evalBits v s.cfg.coreFlagsPower[n]) <;> rw [heq]
  · rw [hboot, coreAt_setCoreAt, if_pos rfl]
    exact .inl ⟨hon, hoff, _, rfl⟩
  · rw [coreAt_setCoreAt, if_pos rfl]
    exact .inr (.inl ⟨hoff, hrun, rfl⟩)
  · exact .inr (.inr ⟨hoff, hrun, rfl⟩)

/-- The registers and pending bits of a core just powered on (60_exceptions R316). -/
theorem poweredOn_zero (pc : Word) (xclk : Byte) :
    (∀ j : XReg, (Core.poweredOn pc xclk).x[j] = 0#32) ∧
      (∀ j : EReg, (Core.poweredOn pc xclk).e[j] = 0#32) ∧
      ∀ q : IrqSource, (Core.poweredOn pc xclk).pending[q.index] = false := by
  simp [Core.poweredOn, Core.off]

/-- Settles O20: the write reaches core n + 1 by its own part of the layout; core 0, which stores, only goes
on to its next instruction. -/
theorem coreFlagsPowersCoresOn : Obligations.CoreFlagsPowersCoresOn := by
  intro s r a f hp0 hturn hplace ha hsmc v
  have hnext : exec (.stb r a f) s = .next (s.writeCoreFlags v).advance :=
    exec_stb_creg (b := .coreFlags) hp0 hsmc (by rw [ha]; rfl)
      (ha ▸ cregByteOf_coreFlags s.cfg hplace) (.inl hturn)
  have hother (n : Fin 3) :
      (s.writeCoreFlags v).advance.coreAt n.succ = (s.writeCoreFlags v).coreAt n.succ :=
    coreAt_setPc_of_ne _ _ _ (by rw [turn_writeCoreFlags, hturn]; exact Fin.succ_ne_zero n)
  have hown : (s.writeCoreFlags v).core = s.core := by
    rw [State.core, State.core, turn_writeCoreFlags, hturn, coreAt_zero_writeCoreFlags]
  refine ⟨_, hnext, fun n => ?_⟩
  rw [hother]
  intro on
  refine ⟨fun hlayout => ?layout, fun hon hoff => ?start, fun hoff hrun => ?stop, fun hkept => ?keep,
    ?own, by simp, by simp, by simp, by simp, by simp, by simp⟩
  case layout =>
    simp only [on, hlayout]
    match n with
    | 0 | 1 | 2 => rfl
  case own =>
    simp only [State.advance, State.setPc, core_setCore, State.pc, hown]
  all_goals
    obtain ⟨hon', hoff', xclk, heq⟩ | ⟨hoff', hrun', heq⟩ | ⟨hoff', hrun', heq⟩ :=
      coreAt_writeCoreFlags_power s v n
  case start.inl =>
    obtain ⟨hx, he, hpending⟩ := poweredOn_zero s.bootAddr[n] xclk
    rw [heq]
    exact ⟨hx, he, rfl, rfl, rfl, rfl, hpending, rfl, rfl⟩
  case start.inr.inl => exact absurd (hon.symm.trans hoff') nofun
  case start.inr.inr => exact absurd (hon.symm.trans (hoff' hoff)) nofun
  case stop.inl => exact absurd (hon'.symm.trans hoff) nofun
  case stop.inr.inl => exact congrArg Core.runState heq
  case stop.inr.inr => exact absurd ((hrun' hrun).symm.trans hoff) nofun
  case keep.inr.inr => exact heq
  all_goals
    obtain ⟨hon, hpowered⟩ | ⟨hoff, hpowered⟩ := hkept
  case keep.inl.inl => exact absurd hoff' hpowered
  case keep.inl.inr => exact absurd (hon'.symm.trans hoff) nofun
  case keep.inr.inl.inl => exact absurd (hon.symm.trans hoff') nofun
  case keep.inr.inl.inr => exact absurd (hrun'.symm.trans hpowered) nofun

end Sys2Proof.Machine
end

section
/-! Trap entry (60_exceptions R280 to R287). A vector can be delivered when the word below XSP passes the
kernel's check and the handler can be fetched; so a trap enters its own handler, or DoubleFault's, or
triple-faults, and what is left of an entry is its push. -/

namespace Sys2Proof.Machine

open Sys2Proof

/-! ## Which handler is entered -/

theorem canFetch_iff {h : Word} : canFetch h = true ↔ kernelFetchable h := by
  have hb := bases
  rw [canFetch, Option.isNone_iff_eq_none]
  by_cases h4 : h.toNat % 4 = 0
  · rw [fetchCheck_of_aligned h4, kernelFetchable, and_iff_right h4]
    split_ifs with hr <;> rw [fetchRegion_iff] at hr <;> simp only [and_true] at hr
    · exact iff_of_true rfl (by omega)
    · exact iff_of_false nofun (by omega)
  · rw [fetchCheck_of_misaligned h4]
    exact iff_of_false nofun fun hk => h4 hk.1

theorem deliverable_iff {s : State} {v : Nat} :
    s.deliverable v = true ↔
      s.dataCheck .p0 .store (s.x xsp - 4#32) .word = none ∧ kernelFetchable (s.handler v) := by
  rw [State.deliverable, Bool.and_eq_true, State.canPush, Option.isNone_iff_eq_none, canFetch_iff]

@[simp] theorem deliverable_setExc (s : State) (a : Word) (v : Nat) :
    (s.setExc a).deliverable v = s.deliverable v := by
  simp [State.deliverable, State.canPush]

theorem trapEntry_eq (s : State) (v : Nat) (ret : Word) (info : Option Word) :
    s.trapEntry v ret info = (s.setExc (info.getD s.exc)).deliver v ret :=
  congrArg (State.deliver · v ret) (recordInfo_eq s info)

section

variable {s : State} {v : Nat} {ret : Word} {info : Option Word}

theorem trapEntry_of_deliverable (h : s.deliverable v = true) :
    s.trapEntry v ret info = (s.setExc (info.getD s.exc)).deliverTo v ret := by
  rw [trapEntry_eq]
  exact if_pos (by rwa [deliverable_setExc])

/-- A vector that cannot be delivered gives way to DoubleFault (60_exceptions R286). -/
theorem trapEntry_of_doubleFault (h : s.deliverable v = false) (hv : v ≠ 9)
    (h9 : s.deliverable 9 = true) :
    s.trapEntry v ret info = (s.setExc (info.getD s.exc)).deliverTo 9 ret := by
  rw [trapEntry_eq, State.deliver, deliverable_setExc, h, if_neg nofun]
  exact if_pos ⟨hv, by rwa [deliverable_setExc]⟩

/-- When DoubleFault cannot be delivered either, the core triple-faults (60_exceptions R287). -/
theorem trapEntry_of_undeliverable (h : s.deliverable v = false) (h9 : s.deliverable 9 = false) :
    s.trapEntry v ret info =
      .next ((s.setExc (info.getD s.exc)).setRunState .tripleFaulted) := by
  rw [trapEntry_eq, State.deliver, deliverable_setExc, h, if_neg nofun]
  exact if_neg fun ⟨_, h9'⟩ => absurd (h9.symm.trans ((deliverable_setExc ..).symm.trans h9')) nofun

end

/-! ## The entry to a handler -/

theorem deliverTo_of_writeThrough {s u : State} {v : Nat} {ret : Word}
    (h : s.writeThrough (s.x xsp - 4#32) ret .word = .ok u) :
    s.deliverTo v ret = .next (u.enterHandler (s.x xsp - 4#32) (s.handler v)) := by
  rw [State.deliverTo, h]

theorem deliverTo_of_refused {s : State} {v : Nat} {ret : Word} {r : Refusal}
    (h : s.writeThrough (s.x xsp - 4#32) ret .word = .error r) : s.deliverTo v ret = .refused r := by
  rw [State.deliverTo, h]

theorem writeThrough_storage {s : State} {a v : Word} {w : Width} (h : region a ≠ .creg)
    (hm : region a ≠ .mmio) : s.writeThrough a v w = .ok (s.setMem (storageWrite s.mem a v w)) := by
  unfold State.writeThrough
  split
  · next hr => exact absurd hr hm
  · next hr => exact absurd hr h
  all_goals rfl

/-- A stack that is ready passes the kernel's check, in storage. -/
theorem State.stackReady.check {s : State} (h : s.stackReady) :
    s.dataCheck .p0 .store (s.x xsp - 4#32) .word = none ∧ region (s.x xsp - 4#32) ≠ .creg ∧
      region (s.x xsp - 4#32) ≠ .mmio := by
  have hb := bases
  obtain ⟨h4, hlo, hhi⟩ := h
  have hreach : (s.setMode .p0).storable (s.x xsp - 4#32) :=
    storable_setMode.mpr (by simp only [true_and]; omega)
  have hcheck := hreach.check (w := .word) fun _ => h4
  rwa [mode_setMode, dataCheck_setMode] at hcheck

theorem State.entersCleanly.deliverable {s : State} {v : Nat} (h : s.entersCleanly v) :
    s.deliverable v = true := by
  obtain ⟨hstack, hfetch⟩ := h
  exact deliverable_iff.mpr ⟨hstack.check.1, hfetch⟩

theorem sameSystem.refl (s : State) : sameSystem s s := ⟨rfl, rfl, rfl, rfl, rfl, fun _ _ => rfl⟩

/-- The entry to a handler with the return address pushed to storage (60_exceptions R280). -/
theorem entered_enterHandler (s : State) (v : Nat) (ret exc : Word) :
    s.entered v ret exc none
      (((s.setExc exc).setMem (storageWrite s.mem (s.x xsp - 4#32) ret .word)).enterHandler
        (s.x xsp - 4#32) (s.handler v)) := by
  refine ⟨?_, storesWord_of_mem ?_, ?_, ?_, ?_, ?_, fun q => ?_, ?_, ?_, ?_, fun d hd => ?_,
    fun k _ => ?_, ?_, ?_⟩
  case refine_13 =>
    have hexc : sameSystem s (s.setExc exc) := (sameSystem.refl s).setCore _
    have hmem : sameSystem s ((s.setExc exc).setMem
        (storageWrite s.mem (s.x xsp - 4#32) ret .word)) := hexc
    exact (((hmem.setCore _).setCore _).setCore _).setCore _
  case refine_11 =>
    have hne : d ≠ xsp := by simpa using hd
    simp [State.enterHandler, hne]
  all_goals simp [State.enterHandler]

theorem deliverTo_of_stackReady {s : State} {v : Nat} {ret exc : Word} (h : s.stackReady) :
    ∃ t, (s.setExc exc).deliverTo v ret = .next t ∧ s.entered v ret exc none t := by
  obtain ⟨-, hcreg, hmmio⟩ := h.check
  have hwrite : (s.setExc exc).writeThrough ((s.setExc exc).x xsp - 4#32) ret .word =
      .ok ((s.setExc exc).setMem (storageWrite s.mem (s.x xsp - 4#32) ret .word)) := by
    rw [x_setExc]
    exact writeThrough_storage hcreg hmmio
  refine ⟨_, deliverTo_of_writeThrough hwrite, ?_⟩
  rw [x_setExc, handler_setExc]
  exact entered_enterHandler s v ret exc

/-- A vector whose entry is clean enters its own handler. -/
theorem trapEntry_of_entersCleanly {s : State} {v : Nat} (ret : Word) (info : Option Word)
    (h : s.entersCleanly v) :
    ∃ t, s.trapEntry v ret info = .next t ∧ s.entered v ret (info.getD s.exc) none t := by
  rw [trapEntry_of_deliverable h.deliverable]
  exact deliverTo_of_stackReady h.1

/-- An exception whose entry is clean, the address of the instruction being the return address (R281). -/
theorem takeException_of_entersCleanly {s : State} {e : Exc} {info : Option Word}
    (h : s.entersCleanly (excVector e)) :
    ∃ t, s.takeException e info = .next t ∧
      s.entered (excVector e) s.pc (info.getD s.exc) none t :=
  trapEntry_of_entersCleanly s.pc info h

/-- Settles O47: the vector is delivered, by a push to storage or to where the region takes it. -/
theorem trapEntryEntersTheHandler : Obligations.TrapEntryEntersTheHandler := by
  intro s v ret info sp u inHandler
  have hx : u.x xsp = s.x xsp := x_setExc ..
  refine ⟨trapEntry_of_entersCleanly ret info, fun hfetch => ?_⟩
  have deliver (hc : s.dataCheck .p0 .store sp .word = none) :
      s.trapEntry v ret info = u.deliverTo v ret :=
    trapEntry_of_deliverable (deliverable_iff.mpr ⟨hc, hfetch⟩)
  have pushed {t : State} (hw : u.writeThrough sp ret .word = .ok t) :
      u.deliverTo v ret = .next (inHandler t) := by
    rw [deliverTo_of_writeThrough (by rwa [hx]), hx]
    rfl
  have refused {r : Refusal} (hw : u.writeThrough sp ret .word = .error r) :
      u.deliverTo v ret = .refused r := deliverTo_of_refused (by rwa [hx])
  refine ⟨fun hsp => ?clocks, fun n hturn hsp => ?boot, fun h4 hlo hhi => ?mmio,
    fun hc hcov => ?reserved⟩
  case clocks =>
    have hintr : u.coreIntr = s.coreIntr := coreIntr_setExc ..
    refine ⟨intrWithLowHalf s.coreIntr ret, ?_, fun n hn => getLsbD_intrWithLowHalf _ _ hn⟩
    rw [deliver (hsp ▸ dataCheck_clocks s .store),
      pushed (hsp ▸ writeThrough_clocks u ret), hintr]
  case boot =>
    rw [deliver (hsp ▸ dataCheck_bootAddr .store n hturn), pushed (hsp ▸ writeThrough_bootAddr u n ret)]
  case mmio =>
    have hr : region sp = .mmio := by rw [region_eq, regionOf_eq_mmio]; omega
    have hc : s.dataCheck .p0 .store sp .word = none := by
      rw [dataCheck_eq_none, aligned_iff, hr]
      exact ⟨fun _ => h4, nofun, nofun, nofun, nofun⟩
    rw [deliver hc, refused (writeThrough_mmio hr)]
  case reserved => rw [deliver hc, refused (writeThrough_reserved hcov)]

/-! ## Failed deliveries -/

/-- Where the return address cannot be pushed (60_exceptions R280, by the check of 20_memory R76). -/
theorem dataCheck_push_ne_none {s : State} {sp : Word}
    (h : sp.toNat % 4 ≠ 0 ∨ sp.toNat < 0x3F00 ∨ 0xFFFFE000 ≤ sp.toNat ∨
      (s.turn ≠ 0 ∧ 0x3F00 ≤ sp.toNat ∧ sp.toNat ≤ 0x7EFF ∧
        ∃ b, b ∈ bytesCovered sp .word ∧
          ((0x3F40 ≤ b ∧ b ≤ 0x3F4B) ∨ cregByteOf s.cfg b = some .coreFlags))) :
    s.dataCheck .p0 .store sp .word ≠ none := by
  by_cases h4 : sp.toNat % 4 = 0
  · have hdenied : s.accessDenied .p0 .store sp .word := by
      rw [accessDenied_iff]
      obtain hmis | hnull | hrom | hcore0 := h
      · exact absurd h4 hmis
      · exact .inl (by omega)
      · exact .inr (.inr (.inl ⟨rfl, hrom⟩))
      · exact .inr (.inr (.inr hcore0))
    rw [dataCheck_of_denied (by simp [aligned_eq_false_iff, h4]) hdenied]
    exact nofun
  · rw [dataCheck_of_misaligned ⟨rfl, (aligned_eq_false_iff sp).mpr h4⟩]
    exact nofun

/-- A triple fault: EXC is recorded, the core stops for good, and nothing else changes (R287). -/
theorem tripleFault_frame (s : State) (exc : Word) (t : State)
    (ht : t = (s.setExc exc).setRunState .tripleFaulted) :
    t.runState = .tripleFaulted ∧
      t.core = { s.core with exc := exc, runState := .tripleFaulted } ∧
      (∀ c, c ≠ s.turn → t.coreAt c = s.coreAt c) ∧ t.mem = s.mem ∧
      coreHasStep t.cfg t.core = false := by
  have hcore : t.core = { s.core with exc := exc, runState := .tripleFaulted } := by
    rw [ht, State.setRunState, core_setCore, State.setExc, core_setCore]
  subst ht
  refine ⟨runState_setRunState _ _, hcore, fun c hc => ?_, rfl, ?_⟩
  · exact (coreAt_setRunState_of_ne (s.setExc exc) _ c hc).trans (coreAt_setExc_of_ne s exc c hc)
  · rw [hcore]
    rfl

/-- Settles O48: a vector that cannot be delivered gives way to DoubleFault, and that to the triple fault. -/
theorem failedDeliveryEscalates : Obligations.FailedDeliveryEscalates := by
  intro s v ret info
  refine ⟨fun hv hfetch h9 => ?_, fun h => ?_⟩
  · have hno : s.deliverable v = false :=
      Bool.eq_false_iff.mpr fun hd => hfetch (deliverable_iff.mp hd).2
    rw [trapEntry_of_doubleFault hno hv h9.deliverable]
    exact deliverTo_of_stackReady h9.1
  · have hno : s.deliverable v = false ∧ s.deliverable 9 = false := by
      rw [← or_assoc, ← or_assoc, ← or_assoc] at h
      simp only [Bool.eq_false_iff, Ne, deliverable_iff]
      obtain hpush | ⟨hv, h9⟩ := h
      · have hcheck := dataCheck_push_ne_none (by simpa only [or_assoc] using hpush)
        exact ⟨fun hd => hcheck hd.1, fun hd => hcheck hd.1⟩
      · exact ⟨fun hd => hv hd.2, fun hd => h9 hd.2⟩
    exact ⟨_, trapEntry_of_undeliverable hno.1 hno.2, tripleFault_frame s _ _ rfl⟩

/-! ## Instructions that always trap, and DIV -/

/-- Settles O23: the placeholders' one meaning is the exception of vector 5. -/
theorem placeholdersRaiseInvalidOpcode : Obligations.PlaceholdersRaiseInvalidOpcode := by
  intro i s hi
  have htrap := exec_placeholder hi s
  exact ⟨htrap, fun hclean => htrap ▸ takeException_of_entersCleanly hclean⟩

theorem exec_div_of_zero {a b : XReg} {s : State} (h : s.x b = 0#32) :
    exec (.div a b) s = s.takeException .zeroDivisionFault none := if_pos h

theorem exec_div_of_ne_zero {a b : XReg} {s : State} (h : s.x b ≠ 0#32) :
    exec (.div a b) s = s.writeX a (divValue s.cfg (s.x a) (s.x b)) := if_neg h

/-- The unsigned quotient is the greatest number whose product with the divisor fits (40_arithmetic R144). -/
theorem divValue_unsigned {cfg : Config} (h : cfg.divSigned = false) (a : Word) {b : Word}
    (hb : b ≠ 0#32) :
    b.toNat * (divValue cfg a b).toNat ≤ a.toNat ∧
      a.toNat < b.toNat * ((divValue cfg a b).toNat + 1) := by
  have hpos : 0 < b.toNat := Nat.pos_of_ne_zero fun h0 => hb (BitVec.eq_of_toNat_eq h0)
  have hquot : (divValue cfg a b).toNat = a.toNat / b.toNat := by
    rw [divValue, if_neg (by simp [h]), BitVec.toNat_ofNat]
    exact Nat.mod_eq_of_lt ((Nat.div_le_self _ _).trans_lt a.isLt)
  rw [hquot]
  exact ⟨Nat.mul_div_le _ _, Nat.lt_mul_div_succ _ hpos⟩

/-- The signed quotient is that of bit vectors, which rounds toward zero modulo 2^32. -/
theorem divValue_signed {cfg : Config} (h : cfg.divSigned = true) (a b : Word) :
    divValue cfg a b = a.sdiv b := by
  apply BitVec.eq_of_toInt_eq
  rw [divValue, if_pos h, BitVec.toInt_sdiv, BitVec.toInt_ofInt]

/-- Settles O22: by 0 the exception of vector 8, else the quotient is written. -/
theorem divDividesOrTraps : Obligations.DivDividesOrTraps := by
  intro a b s
  refine ⟨fun hzero => ?_, fun hne => ?_⟩
  · have htrap := exec_div_of_zero (a := a) hzero
    exact ⟨htrap, fun hclean => htrap ▸ takeException_of_entersCleanly hclean⟩
  · obtain ⟨t, hnext, hvalue, hpc, hframe⟩ :=
      writeX_completes s a (divValue s.cfg (s.x a) (s.x b))
    refine ⟨t, (exec_div_of_ne_zero hne).trans hnext, hpc, hframe, fun hu => ?_, fun hs => ?_⟩
    · rw [hvalue]
      exact divValue_unsigned hu _ hne
    · rw [hvalue, divValue_signed hs]
      refine ⟨rfl, fun ha hb => ?_⟩
      rw [ha, hb]
      decide

end Sys2Proof.Machine
end

section
/-! Interrupts (60_exceptions R290 to R297). The sources stand in the list in the order of their vectors, so
the first one due is the lowest; what is taken is a trap entry from the state with that one bit cleared. -/

namespace Sys2Proof.Machine

open Sys2Proof

/-! ## Firing -/

theorem pending_raiseOn (s : State) (q p : IrqSource) (d c : CoreId) :
    ((s.raiseOn q d).coreAt c).pending[p.index] =
      ((s.coreAt c).pending[p.index] || (decide (p = q) && decide (c = d))) := by
  rw [State.raiseOn, coreAt_setCoreAt]
  by_cases hc : c = d
  · subst hc
    rw [if_pos rfl, decide_eq_true rfl, Bool.and_true]
    simp only [Fin.getElem_fin, Vector.getElem_set]
    by_cases hp : p = q
    · simp [hp]
    · rw [if_neg fun hv => hp ((index_inj p q).mp (Fin.ext hv.symm)), decide_eq_false hp,
        Bool.or_false]
  · rw [if_neg hc, decide_eq_false hc, Bool.and_false, Bool.or_false]

/-- A source raised on a list of cores becomes pending on exactly these. -/
theorem pending_raiseOn_foldl (q p : IrqSource) (c : CoreId) (cs : List CoreId) (s : State) :
    ((cs.foldl (fun t d => t.raiseOn q d) s).coreAt c).pending[p.index] =
      ((s.coreAt c).pending[p.index] || (decide (p = q) && decide (c ∈ cs))) := by
  induction cs generalizing s with
  | nil => simp
  | cons d cs ih =>
    rw [List.foldl_cons, ih, pending_raiseOn, Bool.or_assoc, ← Bool.and_or_distrib_left]
    simp only [List.mem_cons, Bool.decide_or]

theorem raiseOn_foldl_only_cores (q : IrqSource) (cs : List CoreId) (s : State) :
    cs.foldl (fun t d => t.raiseOn q d) s =
      { s with cores := (cs.foldl (fun t d => t.raiseOn q d) s).cores } := by
  induction cs generalizing s with
  | nil => rfl
  | cons d cs ih => exact ih (s.raiseOn q d)

/-- Settles O11: firing raises the source on its targets in turn. -/
theorem firingSetsPendingOnTargets : Obligations.FiringSetsPendingOnTargets := fun s q c =>
  ⟨fun p => pending_raiseOn_foldl q p c _ s, (scheduled_fire s q).cores c,
    raiseOn_foldl_only_cores q _ s⟩

/-! ## Enabling -/

/-- A maskable source is enabled when CORE_INTR allows globally and does not disable it (10_state R43). -/
theorem irqEnabled_of_index {cfg : Config} {q : IrqSource} {k : Fin 9} (h : q.index = k.succ) (v : Word) :
    irqEnabled cfg v q = (evalBits v cfg.intrAllow && !evalBits v cfg.intrDisable[k]) := by
  have hval : q.index.val = k.val + 1 := by rw [h, Fin.val_succ]
  have hk : q.index.val - 1 = k.val := by omega
  rw [irqEnabled, dif_pos (by omega)]
  simp only [hk, Fin.getElem_fin]

theorem irqEnabled_wdtExpired (cfg : Config) (v : Word) : irqEnabled cfg v .wdtExpired = true := rfl

/-- Every source but WDT_EXPIRED is maskable (60_exceptions R291). -/
theorem wdtExpired_or_maskable (q : IrqSource) : q = .wdtExpired ∨ ∃ k : Fin 9, q.index = k.succ := by
  by_cases h : q.index = 0
  · exact .inl ((index_inj q .wdtExpired).mp h)
  · exact .inr ⟨q.index.pred h, (Fin.succ_pred _ h).symm⟩

/-- The default layout disables source k by bit 1 + k (10_state R43). -/
theorem getElem_defaultDisable (k : Fin 9) :
    Config.default.intrDisable[k] = .bit ⟨k.val + 1, by omega⟩ := by
  revert k
  decide

/-- Settles O10: WDT_EXPIRED, and the maskable sources by the layout. -/
theorem enablingFollowsCoreIntr : Obligations.EnablingFollowsCoreIntr := by
  intro cfg v q
  have maskable (k : Fin 9) (hq : q.index = k.succ) : irqEnabled cfg v q = true ↔
      evalBits v cfg.intrAllow = true ∧ evalBits v cfg.intrDisable[k] = false := by
    rw [irqEnabled_of_index hq, Bool.and_eq_true, Bool.not_eq_true']
  refine ⟨irqEnabled_wdtExpired cfg v, maskable, fun hallow hdisable => ?_⟩
  obtain rfl | ⟨k, hk⟩ := wdtExpired_or_maskable q
  · exact iff_of_true (irqEnabled_wdtExpired cfg v) (.inl rfl)
  · have hbit : cfg.intrDisable[k] = .bit ⟨k.val + 1, by omega⟩ := by
      rw [hdisable]
      exact getElem_defaultDisable k
    have hne : q ≠ .wdtExpired := fun h => Fin.succ_ne_zero k (hk.symm.trans (congrArg _ h))
    rw [maskable k hk, hallow, hbit, or_iff_right hne, hk]
    exact Iff.rfl

/-! ## Priority -/

/-- Source q is pending and enabled on a core (60_exceptions R292). -/
def Core.due (cfg : Config) (k : Core) (q : IrqSource) : Bool :=
  k.pending[q.index] && irqEnabled cfg k.coreIntr q

theorem due_eq_false {cfg : Config} {k : Core} {q : IrqSource} :
    k.due cfg q = false ↔ k.pending[q.index] = false ∨ irqEnabled cfg k.coreIntr q = false :=
  Bool.and_eq_false_iff

theorem index_getElem_all : ∀ j : Fin 10, IrqSource.all[j].index = j := by decide

/-- The source due with the lowest vector number is the next one (60_exceptions R293). -/
theorem nextIrq_of_lowest {cfg : Config} {k : Core} {q : IrqSource} (hq : k.due cfg q = true)
    (hlow : ∀ p : IrqSource, p.index < q.index → k.due cfg p = false) : nextIrq cfg k = some q := by
  refine List.find?_eq_some_iff_getElem.mpr ⟨hq, q.index.val, q.index.isLt, ?_, fun j hj => ?_⟩
  · exact (index_inj _ q).mp (index_getElem_all q.index)
  · have hindex := index_getElem_all ⟨j, hj.trans q.index.isLt⟩
    have hnot := hlow (IrqSource.all[(⟨j, hj.trans q.index.isLt⟩ : Fin 10)]) (by rwa [hindex])
    rw [Bool.not_eq_true']
    exact hnot

theorem nextIrq_of_none_due {cfg : Config} {k : Core} (h : ∀ q, k.due cfg q = false) :
    nextIrq cfg k = none :=
  List.find?_eq_none.mpr fun q _ => Bool.eq_false_iff.mp (h q)

/-- Taking an interrupt whose entry is clean: its pending bit alone is cleared (60_exceptions R292). -/
theorem takeInterrupt_of_entersCleanly {s : State} {q : IrqSource}
    (h : s.entersCleanly (irqVector q)) :
    ∃ t, s.takeInterrupt q = .next t ∧ s.entered (irqVector q) s.pc s.exc (some q) t := by
  have hclean : (s.setPending q false).entersCleanly (irqVector q) := by
    unfold State.entersCleanly State.stackReady at h ⊢
    rwa [x_setPending, handler_setPending]
  obtain ⟨t, hnext, hx, hmem, hmode, hhalted, hpc, hexc, hpending, hrun, hclk, hintr, hsx, hse,
    ⟨hdclk, hboot, hcfg, hturn, hscript, hothers⟩, hdraws⟩ :=
    trapEntry_of_entersCleanly s.pc none hclean
  rw [x_setPending] at hx hmem
  refine ⟨t, hnext, hx, hmem, hmode, hhalted, hpc, ?_, fun p => ?_, ?_, ?_,
    ?_, fun d hd => ?_, fun k hk => ?_, ⟨hdclk, hboot, hcfg, hturn, hscript, fun c hc => ?_⟩, hdraws⟩
  · exact hexc.trans (exc_setPending ..)
  · rw [hpending, pending_setPending, if_neg nofun]
    exact if_congr (by simp [eq_comm]) rfl rfl
  · exact hrun.trans (runState_setPending ..)
  · exact hclk.trans (coreXclk_setPending ..)
  · exact hintr.trans (coreIntr_setPending ..)
  · exact (hsx d hd).trans (x_setPending ..)
  · exact (hse k hk).trans (e_setPending ..)
  · exact (hothers c hc).trans (coreAt_setPending_of_ne _ _ _ _ hc)

/-- Settles O9: the lowest source due is the next one, and is taken before the fetch. -/
theorem lowestPendingInterruptIsTakenFirst : Obligations.LowestPendingInterruptIsTakenFirst := by
  intro s q hpending henabled hlow
  have hnext : nextIrq s.cfg s.core = some q :=
    nextIrq_of_lowest (Bool.and_eq_true_iff.mpr ⟨hpending, henabled⟩)
      fun p hp => due_eq_false.mpr (hlow p hp)
  have hstep : s.coreStep = s.takeInterrupt q := by rw [State.coreStep, hnext]
  exact ⟨hstep, fun hclean => hstep ▸ takeInterrupt_of_entersCleanly hclean⟩

/-! ## Which core has a step -/

theorem coreHasStep_of_not_running {cfg : Config} {k : Core} (h : k.runState ≠ .running) :
    coreHasStep cfg k = false := by
  simp [coreHasStep, h]

theorem coreHasStep_of_halted {cfg : Config} {k : Core} (hhalted : k.halted = true)
    (hnone : nextIrq cfg k = none) : coreHasStep cfg k = false := by
  simp [coreHasStep, hhalted, hnone]

theorem coreHasStep_of_due {cfg : Config} {k : Core} {q : IrqSource} (hrun : k.runState = .running)
    (hq : nextIrq cfg k = some q) : coreHasStep cfg k = true := by
  simp [coreHasStep, hrun, hq]

/-- Settles O12: the tick's core has no step, or it is woken by the interrupt it takes. -/
theorem coreWithoutStepDoesNothing : Obligations.CoreWithoutStepDoesNothing := by
  intro s c rest hscript
  have htick : step s = State.scriptedStep { s with script := rest } { core := c, fires := [] } := by
    rw [step, hscript]
  refine ⟨fun hstill => ?_, fun q hrun hq => ?_⟩
  · have hno : coreHasStep s.cfg (s.coreAt c) = false := by
      obtain hrun | ⟨hhalted, hnone⟩ := hstill
      · exact coreHasStep_of_not_running hrun
      · exact coreHasStep_of_halted hhalted (nextIrq_of_none_due fun q => due_eq_false.mpr (hnone q))
    exact htick.trans (if_neg (Bool.eq_false_iff.mp hno))
  · have htaken : ({ s with script := rest, turn := c } : State).coreStep =
        ({ s with script := rest, turn := c } : State).takeInterrupt q := by
      have hnext : nextIrq s.cfg (({ s with script := rest, turn := c } : State).core) = some q := hq
      rw [State.coreStep, hnext]
    exact (htick.trans (if_pos (coreHasStep_of_due hrun hq))).trans htaken

end Sys2Proof.Machine
end

section
/-! Arithmetic, constants and conditional jumps (40_arithmetic, 41_logic_move R171, 44_jump R205 to R208):
each ends by one register write or one choice of PC, and what is left is the value. -/

namespace Sys2Proof.Machine

open Sys2Proof

/-- Settles O21: each result, by its number. -/
theorem addSubMulResult : Obligations.AddSubMulResult := by
  intro a b s
  refine ⟨?add, ?sub, ?mul⟩
  case add =>
    obtain ⟨t, hnext, hvalue, hend⟩ := writeX_completes s a (s.x a + s.x b)
    exact ⟨t, hnext, by rw [hvalue, BitVec.toNat_add], hend⟩
  case sub =>
    obtain ⟨t, hnext, hvalue, hend⟩ := writeX_completes s a (s.x a - s.x b)
    refine ⟨t, hnext, ?_, hend⟩
    have ha := (s.x a).isLt
    have hb := (s.x b).isLt
    rw [hvalue, BitVec.toNat_sub]
    omega
  case mul =>
    obtain ⟨t, hnext, hvalue, hend⟩ := writeX_completes s a (s.x a * s.x b)
    exact ⟨t, hnext, by rw [hvalue, BitVec.toNat_mul], hend⟩

/-- Settles O46: the value is that of the core (R247). -/
theorem cpuidResult : Obligations.CpuidResult :=
  ⟨Config.cpuidValue, fun d s => writeX_completes s d (Config.cpuidValue s.turn)⟩

/-- A constant is its high half over the low half that an immediate leaves (41_logic_move R171). -/
theorem withHighHalf_zext20 {c : Word} {i : BitVec 20} (h : i.setWidth 16 = c.setWidth 16) :
    withHighHalf (zext20 i) (c.extractLsb' 16 16) = c := by
  apply BitVec.eq_of_toNat_eq
  have hlow := congrArg BitVec.toNat h
  rw [BitVec.toNat_setWidth, BitVec.toNat_setWidth] at hlow
  have hc := c.isLt
  rw [toNat_withHighHalf, toNat_zext20, hlow, BitVec.extractLsb'_toNat, Nat.shiftRight_eq_div_pow]
  omega

/-- Settles O26: the second move replaces one half of the first's value, or all of it. -/
theorem twoMovesBuildAConstant : Obligations.TwoMovesBuildAConstant := by
  intro d c i s h
  refine ⟨⟨_, _, rfl, rfl, ?_, ?_, ?_⟩, _, _, rfl, rfl, ?_⟩
  · rw [x_advance, x_setX, if_pos rfl, x_advance, x_setX, if_pos rfl]
    exact withHighHalf_zext20 h
  · rw [pc_advance, pc_setX, pc_advance, pc_setX, BitVec.add_assoc]
    rfl
  · have hd : d ∈ [d] := List.mem_singleton_self d
    exact ⟨(((changesRegisters.refl _ _ s).setX hd _).advance.setX hd _).advance,
      sameStorage_of_mem rfl⟩
  · rw [x_advance, x_setX, if_pos rfl]
    rfl

/-! ## Conditions -/

theorem lessThan_iff {cfg : Config} {a b : Word} {u v : Int}
    (hunsigned : cfg.cmpSigned = false → u = a.toNat ∧ v = b.toNat)
    (hsigned : cfg.cmpSigned = true → u = a.toInt ∧ v = b.toInt) :
    lessThan cfg a b = true ↔ u < v := by
  unfold lessThan
  cases hs : cfg.cmpSigned with
  | false =>
    obtain ⟨rfl, rfl⟩ := hunsigned hs
    simp
  | true =>
    obtain ⟨rfl, rfl⟩ := hsigned hs
    simp

/-- Settles O37: equality is that of the words, and the order is `lessThan`, its operands in either order. -/
theorem conditionsCompareOperands : Obligations.ConditionsCompareOperands := by
  intro cfg a b u v hunsigned hsigned
  have hlt : lessThan cfg a b = true ↔ u < v := lessThan_iff hunsigned hsigned
  have hgt : lessThan cfg b a = true ↔ v < u :=
    lessThan_iff (fun h => (hunsigned h).symm) (fun h => (hsigned h).symm)
  have heq : (a == b) = true ↔ a.toNat = b.toNat := by rw [beq_iff_eq, BitVec.toNat_inj]
  have hnot {p : Bool} : (!p) = true ↔ ¬p = true := by rw [Bool.not_eq_true', Bool.not_eq_true]
  exact ⟨heq, hnot.trans (not_congr heq), hlt, hnot.trans ((not_congr hlt).trans not_lt), hgt,
    hnot.trans ((not_congr hgt).trans not_lt)⟩

/-! ## Conditional jumps -/

theorem branch_completes (s : State) (taken : Bool) (target : Word) :
    ∃ t, s.branch taken target = .next t ∧ changesOnly [] [] s t ∧
      t.pc = if taken = true then target else s.pc + 4#32 := by
  cases taken with
  | false => exact ⟨_, rfl, changesOnly_setPc s _, pc_setPc ..⟩
  | true => exact ⟨_, rfl, changesOnly_setPc s _, pc_setPc ..⟩

theorem exec_jmpc_of_condOfCode {c : BitVec 3} {p1 p2 a f : XReg} {s : State} {k : Cond}
    (h : condOfCode s.cfg c = some k) :
    exec (.jmpc c p1 p2 a f) s =
      s.branch (condHolds s.cfg k (s.x p1) (s.x p2)) (s.regTarget a f) := by
  show execJmpc c p1 p2 a f s = _
  rw [execJmpc, h]

theorem exec_jmpc_of_reserved {c : BitVec 3} {p1 p2 a f : XReg} {s : State}
    (h : condOfCode s.cfg c = none) :
    exec (.jmpc c p1 p2 a f) s = s.takeException .invalidOpcodeFault none := by
  show execJmpc c p1 p2 a f s = _
  rw [execJmpc, h]

/-- Settles O38: a code that names a condition branches on it, the other two raise their exception. -/
theorem jmpcResult : Obligations.JmpcResult := by
  intro c p1 p2 a f s
  refine ⟨fun h => ?_, fun h => ?_, rfl⟩
  · rw [exec_jmpc_of_condOfCode (dif_pos h)]
    exact branch_completes s _ _
  · exact exec_jmpc_of_reserved (dif_neg (by omega))

/-- NZ holds of the operands that are not 0, ZR of 0 (44_jump R208). -/
theorem condZHolds_iff (c : CondZ) (a : Word) : condZHolds c a = true ↔ (c = .nz ↔ a ≠ 0#32) := by
  cases c <;> simp [condZHolds]

/-- Settles O39: a branch on the condition that the code names. -/
theorem jmpcZResult : Obligations.JmpcZResult := by
  intro c p a f s
  obtain ⟨t, hnext, hframe, hpc⟩ :=
    branch_completes s (condZHolds (condZOfCode s.cfg c) (s.x p)) (s.regTarget a f)
  refine ⟨⟨t, hnext, hframe, hpc.trans ?_⟩, rfl⟩
  exact if_congr (condZHolds_iff _ _) rfl rfl

end Sys2Proof.Machine
end
section
/-! Calls, the stack and the system instructions (45_call_stack, 46_system): a push or a pop that reaches
storage, and then what each instruction does with PC, the mode and its register. -/

namespace Sys2Proof.Machine

open Sys2Proof

/-- A push that reaches storage passes its check and writes there. -/
theorem State.pushable.memWrite {s : State} (h : s.pushable) (v : Word) :
    s.memWrite s.mode (s.x xsp - 4#32) v .word =
      .ok (s.setMem (storageWrite s.mem (s.x xsp - 4#32) v .word)) := by
  obtain ⟨h4, hreach, hsmc⟩ := h
  obtain ⟨hcheck, hcreg, hmmio⟩ := hreach.check (w := .word) fun _ => h4
  exact memWrite_storage hcheck hcreg hmmio hsmc

/-- A pop that reaches storage reads the word there. -/
theorem State.poppable.memRead {s : State} (h : s.poppable) :
    s.memRead s.mode (s.x xsp) .word = .ok (s.storageWord (s.x xsp).toNat, s) := by
  obtain ⟨h4, hreach⟩ := h
  obtain ⟨hcheck, hcreg, hmmio⟩ := hreach.check (w := .word) fun _ => h4
  exact memRead_word_storage hcheck hcreg hmmio

/-- The state after the word v is pushed to storage. -/
def State.pushed (s : State) (v : Word) : State :=
  (s.setMem (storageWrite s.mem (s.x xsp - 4#32) v .word)).setX xsp (s.x xsp - 4#32)

theorem pushed_frame (s : State) (v target : Word) :
    ((s.pushed v).setPc target).x xsp = s.x xsp - 4#32 ∧
      storesWord (s.x xsp - 4#32) v s ((s.pushed v).setPc target) ∧
      changesRegisters [xsp] [] s ((s.pushed v).setPc target) := by
  refine ⟨by simp [State.pushed], storesWord_of_mem rfl, ?_⟩
  exact (((changesRegisters.refl _ _ s).setMem _).setX (List.mem_singleton_self xsp) _).setPc _

theorem callTo_of_pushable {s : State} (h : s.pushable) (target : Word) :
    s.callTo target = .next ((s.pushed (s.pc + 4#32)).setPc target) :=
  callTo_of_memWrite target (h.memWrite _)

/-- Settles O40: the push, and the target by its number. -/
theorem callResult : Obligations.CallResult := by
  intro a f i s h
  refine ⟨⟨_, callTo_of_pushable h (s.immTarget a i), ?_, pushed_frame ..⟩,
    _, callTo_of_pushable h (s.regTarget a f), ?_, pushed_frame ..⟩
  · rw [pc_setPc, toNat_immTarget]
  · rw [pc_setPc, toNat_regTarget]

/-- Settles O41: the push, and the step to the next word. -/
theorem pushResult : Obligations.PushResult := fun r k s h =>
  ⟨⟨_, exec_push_of_memWrite (h.memWrite (s.x r)), pc_setPc .., pushed_frame ..⟩,
    _, exec_pushExt_of_memWrite (h.memWrite (s.e k)), pc_setPc .., pushed_frame ..⟩

/-- Settles O42: the word read at XSP goes to PC or to the destination, which is written last. -/
theorem popAndRetResult : Obligations.PopAndRetResult := by
  intro d k s h
  have hread := h.memRead
  have hraise (xs : List XReg) (es : List EReg) (hx : xsp ∈ xs) :
      changesRegisters xs es s (s.setX xsp (s.x xsp + 4#32)) :=
    (changesRegisters.refl _ _ s).setX hx _
  refine ⟨⟨_, exec_ret_of_memRead hread, pc_setPc .., by simp,
      (hraise _ _ (by simp)).setPc _, sameStorage_of_mem rfl⟩,
    ⟨_, exec_pop_of_memRead d hread, pc_setPc .., by simp, fun hd => by simp [hd.symm],
      ((hraise _ _ (by simp)).setX (by simp) _).setPc _, sameStorage_of_mem rfl⟩,
    ⟨_, exec_popExt_of_memRead k hread, pc_setPc .., by simp, by simp,
      ((hraise _ _ (by simp)).setE (by simp) _).setPc _, sameStorage_of_mem rfl⟩⟩

/-- After a push to storage a pop reaches storage. -/
theorem State.pushable.poppable {s : State} (h : s.pushable) (v target : Word) :
    ((s.pushed v).setPc target).poppable := by
  obtain ⟨h4, hreach, -⟩ := h
  have hx := (pushed_frame s v target).1
  have hmode : ((s.pushed v).setPc target).mode = s.mode := by simp [State.pushed]
  refine ⟨hx ▸ h4, .inl ?_⟩
  rw [hx, State.storable, hmode]
  exact hreach

/-- Settles O43: the pop reads back the word that the call pushed. -/
theorem callThenPopReadsPc : Obligations.CallThenPopReadsPc := by
  intro a d k s h htarget hd
  have hcall : exec (.callImm a k) s = .next ((s.pushed (s.pc + 4#32)).setPc (s.pc + 4#32)) :=
    htarget ▸ callTo_of_pushable h (s.immTarget a k)
  obtain ⟨hx, hstored, -⟩ := pushed_frame s (s.pc + 4#32) (s.pc + 4#32)
  have hread := (h.poppable (s.pc + 4#32) (s.pc + 4#32)).memRead
  rw [hx, hstored.storageWord, ← hx] at hread
  refine ⟨_, _, hcall, pc_setPc .., exec_pop_of_memRead d hread, ?_, ?_⟩
  · simp
  · simp [hd.symm, hx]

/-- A handler slot that can be used: a multiple of 4 in the vector table or program memory (46_system R242). -/
theorem slotUsable_iff {a : Word} :
    slotUsable a = true ↔ a.toNat % 4 = 0 ∧ 0x7F00 ≤ a.toNat ∧ a.toNat ≤ 0xFFFF5FFF := by
  simp only [slotUsable, Bool.and_eq_true, Bool.or_eq_true, beq_iff_eq, aligned_iff, region_eq,
    regionOf_eq_ivt, regionOf_eq_prog]
  omega

/-- Settles O44: the push under the caller's rights, then P0 and the handler; or the refusal before it. -/
theorem syscallResult : Obligations.SyscallResult := by
  intro r s slot
  refine ⟨fun h4 hlo hhi h => ?_, fun h => ?_⟩
  · have hslot : slotUsable s.cfg.syscallHandlerSlot = true := slotUsable_iff.mpr ⟨h4, hlo, hhi⟩
    have hmem := h.memWrite (s.pc + 4#32)
    refine ⟨_, exec_syscall_of_memWrite hslot hmem, by simp, by simp [slot], by simp,
      storesWord_of_mem rfl, fun d hd => ?_, fun k _ => by simp, by simp [sameControl], ?_, rfl⟩
    · have hne : d ≠ xsp := by simpa using hd
      simp [hne]
    · exact ((((sameSystem.refl s : sameSystem s (s.setMem _)).setCore _).setCore _).setCore _)
  · have hslot : slotUsable s.cfg.syscallHandlerSlot = false := by
      rw [Bool.eq_false_iff, Ne, slotUsable_iff]
      omega
    exact if_pos hslot

/-- Settles O45: SYSRET is a pop that ends in P1, HLT sets the halt flag, and in P1 both fault. -/
theorem privilegedInstructionResult : Obligations.PrivilegedInstructionResult := by
  intro s
  refine ⟨fun hp0 h => ?_, exec_sysret_of_user, fun hp0 => ?_, exec_hlt_of_user⟩
  · refine ⟨_, exec_sysret_of_memRead hp0 h.memRead, by simp, by simp, by simp, fun d hd => ?_,
      fun k _ => by simp, by simp [sameControl],
      (((sameSystem.refl s).setCore _).setCore _).setCore _, sameStorage_of_mem rfl, rfl⟩
    have hne : d ≠ xsp := by simpa using hd
    simp [hne]
  · have hnext : exec .hlt s = .next (s.setHalted true).advance := if_neg (by simp [hp0])
    exact ⟨_, hnext, by simp, by simp, (changesRegisters.refl _ _ _).advance, sameStorage_of_mem rfl⟩

end Sys2Proof.Machine
end

section
/-! EXC and the other cores (10_state R31, R35, R46, R75). A trap records its address and nothing else does;
and of all accesses only a byte write of core 0 to CORE_FLAGS reaches another core, because a word write never
covers that byte. -/

namespace Sys2Proof.Machine

open Sys2Proof

theorem AccessDone.exc {i : Instr} {s u : State} (h : AccessDone s i u) : u.exc = s.exc :=
  (congrArg Core.exc h.core :)

/-- Settles O59: the trap of a failed access records its address, every other end leaves EXC. -/
theorem excHoldsTheFailedDataAddress : Obligations.ExcHoldsTheFailedDataAddress := by
  intro i s t h
  cases exec_cases h with
  | trapNoData _ hnone ht =>
    exact ⟨fun _ _ _ _ hi => absurd (hnone.symm.trans hi) nofun, fun _ => (trapEntry_frame ht).exc⟩
  | trapData e k a w hd hfail ht =>
    refine ⟨fun k' a' w' _ hi _ => ?_, fun hpass => ?_⟩
    · cases hd.symm.trans hi
      exact (trapEntry_frame ht).exc
    · exact absurd (hfail.symm.trans (hpass k a w hd)) nofun
  | own _ hu hpass ho _ _ =>
    exact ⟨fun k a w _ hi hfail => absurd (hfail.symm.trans (hpass k a w hi)) nofun,
      fun _ => ho.exc.trans hu.exc⟩

/-! ## The other cores -/

/-- The turn and every core but the moving one are as they were. -/
structure OthersFrame (s t : State) : Prop where
  turn : t.turn = s.turn
  others : ∀ c, c ≠ s.turn → t.coreAt c = s.coreAt c

theorem OthersFrame.trans {s t u : State} (h : OthersFrame s t) (k : OthersFrame t u) :
    OthersFrame s u :=
  ⟨k.turn.trans h.turn, fun c hc => (k.others c (h.turn ▸ hc)).trans (h.others c hc)⟩

theorem OthersFrame.of_cores {s t : State} (hturn : t.turn = s.turn) (hcores : t.cores = s.cores) :
    OthersFrame s t :=
  ⟨hturn, fun c _ => by rw [State.coreAt, State.coreAt, hcores]⟩

theorem OthersFrame.setCore (s : State) (k : Core) : OthersFrame s (s.setCore k) :=
  ⟨rfl, fun c hc => by rw [coreAt_setCore, if_neg hc]⟩

/-- A word write never covers CORE_FLAGS (10_state R46, R50). -/
theorem writeThrough_word_others {s u : State} {m : Mode} {a v : Word}
    (hcheck : s.dataCheck m .store a .word = none) (h : s.writeThrough a v .word = .ok u) :
    OthersFrame s u := by
  obtain ⟨-, rfl⟩ | ⟨hcreg, hctl⟩ := writeThrough_cases hcheck h
  · exact .of_cores rfl rfl
  · have h4 := (aligned_iff a).mp ((dataCheck_eq_none.mp hcheck).1 rfl)
    rw [writeThrough_creg hcreg] at h
    exact ⟨hctl.turn, fun c hc => cregWriteAll_word_coreAt h4 h hc⟩

theorem enterHandler_others (s : State) (sp h : Word) : OthersFrame s (s.enterHandler sp h) :=
  ⟨rfl, coreAt_enterHandler_of_ne s sp h⟩

/-- A trap entry: its push is a word write. -/
theorem trapEntry_others {s t : State} {v : Nat} {ret : Word} {info : Option Word}
    (h : s.trapEntry v ret info = .next t) : OthersFrame s t := by
  rw [trapEntry_eq] at h
  have hexc : OthersFrame s (s.setExc (info.getD s.exc)) := .setCore s _
  obtain ⟨_, u, -, hcheck, -, hwrite, rfl⟩ | rfl := deliver_eq_next h
  · exact hexc.trans ((writeThrough_word_others hcheck hwrite).trans (enterHandler_others u _ _))
  · exact hexc.trans (.setCore _ _)

theorem OwnEffect.others {i : Instr} {s u t : State} (h : OwnEffect i s u t) : OthersFrame u t := by
  rw [h.only]
  exact .setCore u t.core

/-- STB is the only store of a byte (20_memory R69). -/
theorem stb_of_byteStore {s : State} {i : Instr} {a : Word}
    (h : s.dataAccess i = some (.store, a, .byte)) : ∃ r b f, i = .stb r b f := by
  cases i
  case stb r b f => exact ⟨r, b, f, rfl⟩
  case ldb | syscall | sysret =>
    simp only [State.dataAccess] at h
    split at h <;> cases h
  all_goals cases h

/-- Every instruction but STB leaves the other cores alone. -/
theorem exec_others {i : Instr} {s t : State} (h : exec i s = .next t)
    (hi : ∀ r a f, i ≠ .stb r a f) : OthersFrame s t := by
  cases exec_cases h with
  | trapNoData _ _ ht => exact trapEntry_others ht
  | trapData _ _ _ _ _ _ ht => exact trapEntry_others ht
  | own u hu _ ho _ _ =>
    refine OthersFrame.trans ?_ ho.others
    cases hu with
    | none => exact .of_cores rfl rfl
    | drawn => exact .of_cores rfl rfl
    | stored a v w _ ha hw =>
      obtain ⟨hcheck, -, hwrite⟩ := memWrite_eq_ok.mp hw
      cases w with
      | word => exact writeThrough_word_others hcheck hwrite
      | byte =>
        obtain ⟨r, b, f, rfl⟩ := stb_of_byteStore ha
        exact absurd rfl (hi r b f)

/-- A byte write leaves the other cores alone, unless core 0 in P0 writes CORE_FLAGS by it. -/
theorem memWrite_byte_others {s u : State} {m : Mode} {a v : Word}
    (h : s.memWrite m a v .byte = .ok u) :
    OthersFrame s u ∨ (s.turn = 0 ∧ m = .p0 ∧ region a = .creg ∧
      cregByteOf s.cfg a.toNat = some .coreFlags ∧ u = s.writeCoreFlags (v.setWidth 8)) := by
  obtain ⟨hcheck, -, hwrite⟩ := memWrite_eq_ok.mp h
  obtain ⟨-, -, huser, -, hcore0⟩ := dataCheck_eq_none.mp hcheck
  obtain ⟨-, rfl⟩ | ⟨hcreg, hctl⟩ := writeThrough_cases hcheck hwrite
  · exact .inl (.of_cores rfl rfl)
  · rw [writeThrough_creg hcreg] at hwrite
    obtain ⟨b, hb, rfl⟩ := cregWrite_eq_ok hwrite
    cases b with
    | sysDclk => exact .inl (.of_cores rfl rfl)
    | coreXclk => exact .inl (.setCore s _)
    | coreIntr k => exact .inl (.setCore s _)
    | bootAddr n k => exact .inl (.of_cores rfl rfl)
    | coreFlags =>
      have hturn : s.turn = 0 := by
        by_contra hne
        have hno := hcore0 hcreg hne a.toNat (by simp [bytesCovered])
        rw [core0Only, hb] at hno
        exact absurd hno nofun
      have hp0 : m = .p0 := by
        cases m with
        | p0 => rfl
        | p1 => exact absurd (hcreg.symm.trans (huser rfl)) nofun
      exact .inr ⟨hturn, hp0, hcreg, hb, by rw [← wordByte_zero]; rfl⟩

/-- STB leaves the other cores alone, unless core 0 in P0 writes CORE_FLAGS by it. -/
theorem exec_stb_others {r a f : XReg} {s t : State} (h : exec (.stb r a f) s = .next t) :
    OthersFrame s t ∨ (s.turn = 0 ∧ s.mode = .p0 ∧ region (s.byteAddress a) = .creg ∧
      cregByteOf s.cfg (s.byteAddress a).toNat = some .coreFlags ∧
      OthersFrame (s.writeCoreFlags ((rshValue s.cfg (s.x r) (s.x f).toNat).setWidth 8)) t) := by
  cases hw : s.memWrite s.mode (s.byteAddress a) (rshValue s.cfg (s.x r) (s.x f).toNat) .byte with
  | ok u =>
    cases (exec_stb_of_memWrite hw).symm.trans h
    have hpc : OthersFrame u (u.setPc (s.pc + 4#32)) := .setCore u _
    exact (memWrite_byte_others hw).imp (·.trans hpc) fun ⟨hturn, hp0, hr, hb, hu⟩ =>
      ⟨hturn, hp0, hr, hb, hu ▸ hpc⟩
  | raise e info =>
    change execStb r a f s = _ at h
    rw [execStb, hw] at h
    exact .inl (trapEntry_others h)
  | refuse q =>
    change execStb r a f s = _ at h
    rw [execStb, hw] at h
    cases h

/-- Settles O56: the one access that reaches another core sets its power as the layout reads the byte. -/
theorem instructionsLeaveOtherCoresAlone : Obligations.InstructionsLeaveOtherCoresAlone := by
  intro i s t c h hc
  by_cases hi : ∃ r a f, i = .stb r a f
  · obtain ⟨r, a, f, rfl⟩ := hi
    obtain hothers | ⟨hturn, hp0, hr, hb, hflags⟩ := exec_stb_others h
    · exact .inl (hothers.others c hc)
    · obtain ⟨n, rfl⟩ := Fin.exists_succ_eq.mpr (hturn ▸ hc)
      have ht := hflags.others n.succ (by rwa [turn_writeCoreFlags])
      rw [ht]
      obtain ⟨hon, hoff, hstart⟩ | ⟨hoff, hrun, hstop⟩ | ⟨-, -, hkept⟩ :=
        coreAt_writeCoreFlags_power s ((rshValue s.cfg (s.x r) (s.x f).toNat).setWidth 8) n
      · exact .inr ⟨r, a, f, rfl, hturn, hp0, hr, hb, n, rfl, .inl ⟨hon, hoff, hstart⟩⟩
      · exact .inr ⟨r, a, f, rfl, hturn, hp0, hr, hb, n, rfl,
          .inr ⟨hoff, hrun, congrArg Core.runState hstop⟩⟩
      · exact .inl hkept
  · exact .inl ((exec_others h fun r a f he => hi ⟨r, a, f, he⟩).others c hc)

end Sys2Proof.Machine
end

section
/-! The state after reset (10_state R53 to R55, 70_reset R321). -/

namespace Sys2Proof.Machine

open Sys2Proof

theorem runState_resetWith (cfg : Config) {c : CoreId} (hc : c ≠ 0) :
    ((State.resetWith cfg).coreAt c).runState = .off := by
  match c with
  | 0 => exact absurd rfl hc
  | 1 | 2 | 3 => rfl

/-- Under the default layout CORE_FLAGS reads 1 after reset: core 0 alone is on (10_state R46, R55). -/
theorem coreFlags_resetWith {cfg : Config} (hlayout : cfg.coreFlagsRead =
    #v[.const true, .bit 1, .bit 2, .bit 3, .const false, .const false, .const false, .const false]) :
    (State.resetWith cfg).coreFlags = 0x01#8 := by
  obtain ⟨hlow, hhigh⟩ := getLsbD_coreFlags_default (s := State.resetWith cfg) hlayout
  have hcore (c : CoreId) : (State.resetWith cfg).coreFlags.getLsbD c.val = decide (c = 0) := by
    rw [Bool.eq_iff_iff, hlow, decide_eq_true_iff, or_iff_left_iff_imp]
    intro hon
    by_contra hc
    exact hon (runState_resetWith cfg hc)
  apply BitVec.eq_of_getLsbD_eq
  intro n hn
  by_cases h4 : n < 4
  · obtain rfl | rfl | rfl | rfl : n = 0 ∨ n = 1 ∨ n = 2 ∨ n = 3 := by omega
    exacts [hcore 0, hcore 1, hcore 2, hcore 3]
  · rw [hhigh n (by omega)]
    obtain rfl | rfl | rfl | rfl : n = 4 ∨ n = 5 ∨ n = 6 ∨ n = 7 := by omega
    all_goals rfl

/-- Settles O50: core 0 is just powered on, the others are off. -/
theorem resetValues : Obligations.ResetValues := by
  refine ⟨fun cfg => ?_, rfl, rfl, coreFlags_resetWith rfl⟩
  obtain ⟨hx, he, hpending⟩ := poweredOn_zero cfg.resetPc 0#8
  exact ⟨fun j => ⟨hx j, he j⟩, rfl, rfl, rfl, rfl, rfl, hpending, rfl, rfl, coreFlags_resetWith,
    fun c hc => runState_resetWith cfg hc, rfl, rfl⟩

end Sys2Proof.Machine
end
